-- ==== Sys2Proof/Word.lean ====
section
/-! DEFINITION. The word types: bytes of an RNG answer, 32-bit bus and command words, and the 256-bit
values of the registers (00_scope.md R5, R6). -/

namespace Sys2Proof

/-- One byte of an RNG answer (20_memory.md R55). -/
abbrev Byte := BitVec 8

/-- A bus word or a command word (00_scope.md R6). -/
abbrev Word32 := BitVec 32

/-- A byte offset within the 4 KiB register window (20_memory.md R40, 70_reset_and_hazards.md R205). -/
abbrev Offset := BitVec 12

/-- An unsigned 256-bit value, the operand width `W` (00_scope.md R5). -/
abbrev U256 := BitVec 256

end Sys2Proof
end

