-- ==== Sys2Proof/Syntax.lean ====
section
/-! DEFINITION. The commands as syntax: one constructor per row of spec/opcode_table.json, with the
operands of 30_encoding.md R66. -/

namespace Sys2Proof

/-- A value register index, V0 to V15 (30_encoding.md R61, role V). -/
abbrev VIdx := Fin 16

/-- A point register index, P0 to P7 (30_encoding.md R61, role P). -/
abbrev PIdx := Fin 8

/-- A field slot, F0 to F3 (30_encoding.md R62). -/
abbrev FIdx := Fin 4

/-- A curve slot, C0 to C3 (30_encoding.md R62). -/
abbrev CIdx := Fin 4

/-- The 28 commands. An argument is named after the field of the command word it comes from (R60). -/
inductive Instr where
  -- control and configuration (40_control.md)
  | nop
  | mov (rd rs1 : VIdx)
  | pmov (rd rs1 : PIdx)
  | setmod (slot : FIdx) (rs1 : VIdx)
  | setcrv (slot : CIdx) (rs1 rs2 : VIdx)
  -- field arithmetic (41_field.md)
  | fmk (rd rs1 : VIdx) (slot : FIdx)
  | fadd (rd rs1 rs2 : VIdx)
  | fsub (rd rs1 rs2 : VIdx)
  | fmul (rd rs1 rs2 : VIdx)
  | mmul (rd rs1 rs2 : VIdx)
  | fpow (rd rs1 rs2 : VIdx) (neg : Bool)
  | fdiv (rd rs1 rs2 : VIdx)
  | feq (rs1 rs2 : VIdx)
  -- points (42_point.md)
  | pinf (rd : PIdx) (slot : CIdx)
  | pmk (rd : PIdx) (rs1 rs2 : VIdx) (slot : CIdx)
  | peq (rs1 rs2 : PIdx)
  | padd (rd rs1 rs2 : PIdx)
  | pdbl (rd rs1 : PIdx)
  | psmul (rd rs1 : PIdx) (rs2 : VIdx)
  | pgen (rd : PIdx)
  | pgetx (rd : VIdx) (rs1 : PIdx)
  | pgety (rd : VIdx) (rs1 : PIdx)
  | pisinf (rs1 : PIdx)
  -- inverse, keys and ECDSA (43_ecdsa.md)
  | minv (rd rs1 rs2 : VIdx)
  | keygen (rd : VIdx)
  | pubkey (rd : PIdx) (rs1 : VIdx)
  | sign (rd rs1 rs2 rs3 : VIdx)
  | verify (rd : PIdx) (rs1 rs2 rs3 : VIdx)
  deriving DecidableEq, Repr

end Sys2Proof
end

