-- ==== Sys2Proof/WellFormed.lean ====
section
/-! DEFINITION. Which commands of the syntax have a word: the constraints of 30_encoding.md R67 beyond
the field widths, which the operand types hold already. -/

namespace Sys2Proof

/-- The constraints of R67: SETMOD names F2 or F3, SETCRV does not name C0, and SIGN writes r and s to
two different registers. Every other command is well formed with any operands. -/
def wellFormedB : Instr → Bool
  | .nop => true
  | .mov _ _ => true
  | .pmov _ _ => true
  | .setmod slot _ => decide (2 ≤ slot.val)
  | .setcrv slot _ _ => decide (slot.val ≠ 0)
  | .fmk _ _ _ => true
  | .fadd _ _ _ => true
  | .fsub _ _ _ => true
  | .fmul _ _ _ => true
  | .mmul _ _ _ => true
  | .fpow _ _ _ _ => true
  | .fdiv _ _ _ => true
  | .feq _ _ => true
  | .pinf _ _ => true
  | .pmk _ _ _ _ => true
  | .peq _ _ => true
  | .padd _ _ _ => true
  | .pdbl _ _ => true
  | .psmul _ _ _ => true
  | .pgen _ => true
  | .pgetx _ _ => true
  | .pgety _ _ => true
  | .pisinf _ => true
  | .minv _ _ _ => true
  | .keygen _ => true
  | .pubkey _ _ => true
  | .sign rd _ _ rs3 => decide (rd ≠ rs3)
  | .verify _ _ _ _ => true

/-- The command satisfies R67. -/
abbrev WellFormed (i : Instr) : Prop := wellFormedB i = true

end Sys2Proof
end

