-- ==== Sys2Proof/Decode.lean ====
section
/-! DEFINITION. The command word CMD32 (30_encoding.md R60): its fields, the strict decoder of R64 and
R70, which is total on 32-bit words, and the encoder of R71, both from the role table R66. -/

namespace Sys2Proof

/-- The eight fields of a command word (R60), each an unsigned number of its width. -/
structure Fields where
  op : Fin 256
  rd : Fin 16
  rs1 : Fin 16
  rs2 : Fin 16
  rs3 : Fin 16
  slot : Fin 4
  neg : Fin 2
  rsv : Fin 32
  deriving DecidableEq, Repr

/-- Bits `lo + len − 1` down to `lo` of `w`, as an unsigned number (00_scope.md R6). -/
def bitsAt (w : Word32) (lo len : Nat) : Nat := w.toNat / 2 ^ lo % 2 ^ len

theorem bitsAt_lt (w : Word32) (lo len : Nat) : bitsAt w lo len < 2 ^ len :=
  Nat.mod_lt _ (Nat.two_pow_pos len)

/-- The fields of a word, at the bit positions of R60. -/
def fieldsOf (w : Word32) : Fields where
  op := ⟨bitsAt w 0 8, bitsAt_lt w 0 8⟩
  rd := ⟨bitsAt w 8 4, bitsAt_lt w 8 4⟩
  rs1 := ⟨bitsAt w 12 4, bitsAt_lt w 12 4⟩
  rs2 := ⟨bitsAt w 16 4, bitsAt_lt w 16 4⟩
  rs3 := ⟨bitsAt w 20 4, bitsAt_lt w 20 4⟩
  slot := ⟨bitsAt w 24 2, bitsAt_lt w 24 2⟩
  neg := ⟨bitsAt w 26 1, bitsAt_lt w 26 1⟩
  rsv := ⟨bitsAt w 27 5, bitsAt_lt w 27 5⟩

/-- The word with these fields: OP, RD<<8, RS1<<12, RS2<<16, RS3<<20, SLOT<<24, NEG<<26 (R71) and the
reserved bits RSV<<27 (R60). -/
def packFields (f : Fields) : Word32 :=
  BitVec.ofNat 32 (f.op.val + f.rd.val * 2 ^ 8 + f.rs1.val * 2 ^ 12 + f.rs2.val * 2 ^ 16 + f.rs3.val * 2 ^ 20
    + f.slot.val * 2 ^ 24 + f.neg.val * 2 ^ 26 + f.rsv.val * 2 ^ 27)

/-- The role marks of R66 for the register fields. -/
inductive Role where
  | unused
  | value
  | point
  deriving DecidableEq, Repr

/-- One row of R66: the role of each register field, and whether SLOT and NEG are operands. -/
structure Roles where
  rd : Role := .unused
  rs1 : Role := .unused
  rs2 : Role := .unused
  rs3 : Role := .unused
  slot : Bool := false
  neg : Bool := false
  deriving DecidableEq, Repr

/-- R64, conditions 3 and 4, for one register field: an unused field is zero, and a field of role P has
bit 3 clear. -/
def Role.allows (r : Role) (x : Fin 16) : Bool :=
  match r with
  | .unused => x.val == 0
  | .value => true
  | .point => decide (x.val < 8)

/-- R64, conditions 2 to 4: RSV is zero, every unused field is zero (SLOT and NEG among them) and every
point field is below 8. -/
def Roles.allows (r : Roles) (f : Fields) : Bool :=
  f.rsv.val == 0 && r.rd.allows f.rd && r.rs1.allows f.rs1 && r.rs2.allows f.rs2 && r.rs3.allows f.rs3
    && (r.slot || f.slot.val == 0) && (r.neg || f.neg.val == 0)

/-- A P-role field as a point register index: its bits [2:0] (R61). -/
def pointField (x : Fin 16) : PIdx := ⟨x.val % 8, Nat.mod_lt _ (by decide)⟩

/-- A point register index as a register field, bit 3 clear (R61). -/
def fieldOfPoint (x : PIdx) : Fin 16 := ⟨x.val, Nat.lt_trans x.isLt (by decide)⟩

/-- The command, where the fields meet the roles of its row and R67 holds. -/
def allow (r : Roles) (f : Fields) (i : Instr) : Option Instr :=
  if r.allows f && wellFormedB i then some i else none

/-- Decoding from the fields: the opcode map of R65 with the role table of R66, one row a line. Every
other opcode is illegal. -/
def decodeFields (f : Fields) : Option Instr :=
  match f.op.val with
  | 0x00 => allow {} f .nop
  | 0x01 => allow { rd := .value, rs1 := .value } f (.mov f.rd f.rs1)
  | 0x02 => allow { rd := .point, rs1 := .point } f (.pmov (pointField f.rd) (pointField f.rs1))
  | 0x03 => allow { rs1 := .value, slot := true } f (.setmod f.slot f.rs1)
  | 0x04 => allow { rs1 := .value, rs2 := .value, slot := true } f (.setcrv f.slot f.rs1 f.rs2)
  | 0x10 => allow { rd := .value, rs1 := .value, slot := true } f (.fmk f.rd f.rs1 f.slot)
  | 0x11 => allow { rd := .value, rs1 := .value, rs2 := .value } f (.fadd f.rd f.rs1 f.rs2)
  | 0x12 => allow { rd := .value, rs1 := .value, rs2 := .value } f (.fsub f.rd f.rs1 f.rs2)
  | 0x13 => allow { rd := .value, rs1 := .value, rs2 := .value } f (.fmul f.rd f.rs1 f.rs2)
  | 0x14 => allow { rd := .value, rs1 := .value, rs2 := .value } f (.mmul f.rd f.rs1 f.rs2)
  | 0x15 => allow { rd := .value, rs1 := .value, rs2 := .value, neg := true } f (.fpow f.rd f.rs1 f.rs2 (f.neg.val == 1))
  | 0x16 => allow { rd := .value, rs1 := .value, rs2 := .value } f (.fdiv f.rd f.rs1 f.rs2)
  | 0x17 => allow { rs1 := .value, rs2 := .value } f (.feq f.rs1 f.rs2)
  | 0x20 => allow { rd := .point, slot := true } f (.pinf (pointField f.rd) f.slot)
  | 0x21 => allow { rd := .point, rs1 := .value, rs2 := .value, slot := true } f (.pmk (pointField f.rd) f.rs1 f.rs2 f.slot)
  | 0x22 => allow { rs1 := .point, rs2 := .point } f (.peq (pointField f.rs1) (pointField f.rs2))
  | 0x23 => allow { rd := .point, rs1 := .point, rs2 := .point } f (.padd (pointField f.rd) (pointField f.rs1) (pointField f.rs2))
  | 0x24 => allow { rd := .point, rs1 := .point } f (.pdbl (pointField f.rd) (pointField f.rs1))
  | 0x25 => allow { rd := .point, rs1 := .point, rs2 := .value } f (.psmul (pointField f.rd) (pointField f.rs1) f.rs2)
  | 0x26 => allow { rd := .point } f (.pgen (pointField f.rd))
  | 0x27 => allow { rd := .value, rs1 := .point } f (.pgetx f.rd (pointField f.rs1))
  | 0x28 => allow { rd := .value, rs1 := .point } f (.pgety f.rd (pointField f.rs1))
  | 0x29 => allow { rs1 := .point } f (.pisinf (pointField f.rs1))
  | 0x30 => allow { rd := .value, rs1 := .value, rs2 := .value } f (.minv f.rd f.rs1 f.rs2)
  | 0x31 => allow { rd := .value } f (.keygen f.rd)
  | 0x32 => allow { rd := .point, rs1 := .value } f (.pubkey (pointField f.rd) f.rs1)
  | 0x33 => allow { rd := .value, rs1 := .value, rs2 := .value, rs3 := .value } f (.sign f.rd f.rs1 f.rs2 f.rs3)
  | 0x34 => allow { rd := .point, rs1 := .value, rs2 := .value, rs3 := .value } f (.verify (pointField f.rd) f.rs1 f.rs2 f.rs3)
  | _ => none

/-- `Decode` of R70, total on 32-bit words: the command, or `none` for an IllegalCommand (R68). -/
def decode (w : Word32) : Option Instr := decodeFields (fieldsOf w)

/-- The fields of a command (R66): the opcode of its row, its operands in their fields, zero elsewhere. -/
def fieldsFor : Instr → Fields
  | .nop => ⟨0x00, 0, 0, 0, 0, 0, 0, 0⟩
  | .mov rd rs1 => ⟨0x01, rd, rs1, 0, 0, 0, 0, 0⟩
  | .pmov rd rs1 => ⟨0x02, fieldOfPoint rd, fieldOfPoint rs1, 0, 0, 0, 0, 0⟩
  | .setmod slot rs1 => ⟨0x03, 0, rs1, 0, 0, slot, 0, 0⟩
  | .setcrv slot rs1 rs2 => ⟨0x04, 0, rs1, rs2, 0, slot, 0, 0⟩
  | .fmk rd rs1 slot => ⟨0x10, rd, rs1, 0, 0, slot, 0, 0⟩
  | .fadd rd rs1 rs2 => ⟨0x11, rd, rs1, rs2, 0, 0, 0, 0⟩
  | .fsub rd rs1 rs2 => ⟨0x12, rd, rs1, rs2, 0, 0, 0, 0⟩
  | .fmul rd rs1 rs2 => ⟨0x13, rd, rs1, rs2, 0, 0, 0, 0⟩
  | .mmul rd rs1 rs2 => ⟨0x14, rd, rs1, rs2, 0, 0, 0, 0⟩
  | .fpow rd rs1 rs2 neg => ⟨0x15, rd, rs1, rs2, 0, 0, if neg then 1 else 0, 0⟩
  | .fdiv rd rs1 rs2 => ⟨0x16, rd, rs1, rs2, 0, 0, 0, 0⟩
  | .feq rs1 rs2 => ⟨0x17, 0, rs1, rs2, 0, 0, 0, 0⟩
  | .pinf rd slot => ⟨0x20, fieldOfPoint rd, 0, 0, 0, slot, 0, 0⟩
  | .pmk rd rs1 rs2 slot => ⟨0x21, fieldOfPoint rd, rs1, rs2, 0, slot, 0, 0⟩
  | .peq rs1 rs2 => ⟨0x22, 0, fieldOfPoint rs1, fieldOfPoint rs2, 0, 0, 0, 0⟩
  | .padd rd rs1 rs2 => ⟨0x23, fieldOfPoint rd, fieldOfPoint rs1, fieldOfPoint rs2, 0, 0, 0, 0⟩
  | .pdbl rd rs1 => ⟨0x24, fieldOfPoint rd, fieldOfPoint rs1, 0, 0, 0, 0, 0⟩
  | .psmul rd rs1 rs2 => ⟨0x25, fieldOfPoint rd, fieldOfPoint rs1, rs2, 0, 0, 0, 0⟩
  | .pgen rd => ⟨0x26, fieldOfPoint rd, 0, 0, 0, 0, 0, 0⟩
  | .pgetx rd rs1 => ⟨0x27, rd, fieldOfPoint rs1, 0, 0, 0, 0, 0⟩
  | .pgety rd rs1 => ⟨0x28, rd, fieldOfPoint rs1, 0, 0, 0, 0, 0⟩
  | .pisinf rs1 => ⟨0x29, 0, fieldOfPoint rs1, 0, 0, 0, 0, 0⟩
  | .minv rd rs1 rs2 => ⟨0x30, rd, rs1, rs2, 0, 0, 0, 0⟩
  | .keygen rd => ⟨0x31, rd, 0, 0, 0, 0, 0, 0⟩
  | .pubkey rd rs1 => ⟨0x32, fieldOfPoint rd, rs1, 0, 0, 0, 0, 0⟩
  | .sign rd rs1 rs2 rs3 => ⟨0x33, rd, rs1, rs2, rs3, 0, 0, 0⟩
  | .verify rd rs1 rs2 rs3 => ⟨0x34, fieldOfPoint rd, rs1, rs2, rs3, 0, 0, 0⟩

/-- The word of a command (R66, R71). It decodes to the command if R67 holds. -/
def encode (i : Instr) : Word32 := packFields (fieldsFor i)

/-- The command the decoder reads from an instruction of `nbits` bits numbered as the opcode table
numbers them. CMD32 is the only length (R60, R73), so the word is the whole of the instruction. -/
def decodeTableWord (nbits w : Nat) : Option Instr :=
  if nbits ≤ 32 ∧ w < 2 ^ 32 then decode (BitVec.ofNat 32 w) else none

end Sys2Proof
end

