-- ==== Sys2Proof/Config.lean ====
section
/-! DEFINITION. What a build of the block fixes: the constants of 00_scope.md R8, the identification
word (10_state.md R19), the default parameters (00_scope.md R5), and the free values, each an opaque
constant with no body. -/

namespace Sys2Proof.Config

/-- The field modulus p = 2^256 − 2^32 − 977 of secp256k1 (R8). -/
def p : U256 := 0xFFFFFFFFFFFFFFFFFFFFFFFFFFFFFFFFFFFFFFFFFFFFFFFFFFFFFFFEFFFFFC2F#256

/-- The curve order N (R8). The spec supplies its middle digits from general knowledge. -/
def order : U256 := 0xFFFFFFFFFFFFFFFFFFFFFFFFFFFFFFFEBAAEDCE6AF48A03BBFD25E8CD0364141#256

/-- The x coordinate of the generator G (R8). -/
def gx : U256 := 0x79BE667EF9DCBBAC55A06295CE870B07029BFCDB2DCE28D959F2815B16F81798#256

/-- The y coordinate of the generator G (R8). -/
def gy : U256 := 0x483ADA7726A3C4655DA4FBFC0E1108A8FD17B448A68554199C47D08FFB10D4B8#256

/-- The constant of the ID register, "ECC1" in ASCII (10_state.md R19). -/
def idWord : Word32 := 0x45434331#32

/-- The default of PRIME_CHECK_BITS (R5). -/
def defaultPrimeCheckBits : Nat := 32

/-- The default of NONCE_MAX_ATTEMPTS (R5). -/
def defaultNonceMaxAttempts : Nat := 256

/-- BASE / 4 KiB of `Machine.State.reset`. R5 gives BASE no default: DESIGN CHOICE, assumption 8. -/
def defaultBasePage : Nat := 0

/-- FREE VALUE (20_memory.md R55). The 32 bytes the random-number collaborator delivers at draw
number `n`, when the state holds no answer already supplied. Byte 0 comes first. Under no law.
UNVERIFIED by design; see assumption 1. -/
opaque rngBytes : Nat → Vector Byte 32

/-- FREE VALUE (70_reset_and_hazards.md R196). The word that a read made while BUSY = 1 returns, for
the registers that R196 lists, at the `n`-th use of a free value. Under no law; see assumption 4. -/
opaque busyRead : Nat → Word32

/-- FREE VALUE (70_reset_and_hazards.md R192). How many draws a command had already taken when a reset
abandoned it. `Machine.State.abandonedDraws` bounds it by what the command would take in all; see assumption 6. -/
opaque abandonedDraws : Nat → Nat

end Sys2Proof.Config
end

