-- ==== Sys2Proof/Machine/Arith.lean ====
section
/-! DEFINITION. Exact integer arithmetic of the commands (00_scope.md R6): the non-negative residue, binary
exponentiation and FieldPow (41_field.md R107), the extended Euclidean inverse (43_ecdsa.md R140), the
primality test (40_control.md R87), and the scalar of a random draw (43_ecdsa.md R142). -/

namespace Sys2Proof.Machine

/-- `a mod m` of R6 for a possibly negative integer: the residue in [0, m) when m > 0. -/
def residue (a : Int) (m : Nat) : Nat := (a % (m : Int)).toNat

/-- The loop of `BinPow` (R107), at most `fuel` turns. -/
def binPowLoop (m : Nat) : (fuel r b k : Nat) → Nat
  | 0, r, _, _ => r
  | fuel + 1, r, b, k =>
    if k = 0 then r
    else binPowLoop m fuel (if k % 2 = 1 then r * b % m else r) (b * b % m) (k / 2)

/-- `BinPow(x, k, m)` of R107, for k < 2^256: 256 turns are enough. -/
def binPow (x k m : Nat) : Nat := binPowLoop m 256 (1 % m) x k

/-- `FieldPow(x, e, neg, m)` of R107: the exponent is reduced modulo m − 1. -/
def fieldPow (x e : Nat) (neg : Bool) (m : Nat) : Nat :=
  if neg = true ∧ 0 < e then
    binPow (binPow x ((m - 2) % (m - 1)) m) (e % (m - 1)) m
  else
    binPow x (e % (m - 1)) m

/-- The field quotient a · b^(m − 2) mod m of 41_field.md R109 (the Fermat inverse), without the test for a
zero divisor. -/
def fermatQuotient (a b m : Nat) : Nat := a * fieldPow b (m - 2) false m % m

/-- The loop of `ModInverse` (R140), at most `fuel` turns: the final `old_r` and `old_s`. -/
def euclidLoop : (fuel : Nat) → (oldR r : Nat) → (oldS s : Int) → Nat × Int
  | 0, oldR, _, oldS, _ => (oldR, oldS)
  | fuel + 1, oldR, r, oldS, s =>
    if r = 0 then (oldR, oldS)
    else euclidLoop fuel r (oldR - oldR / r * r) s (oldS - (oldR / r : Nat) * s)

/-- Turns enough for any operands below 2^256: the first turn only exchanges the pair, and every two turns
after it at least halve the larger remainder. -/
def euclidFuel : Nat := 520

/-- `ModInverse(a, n)` of R140; `none` where it raises NotInvertible. -/
def modInverse (a n : Nat) : Option Nat :=
  if n = 0 then none
  else
    match euclidLoop euclidFuel (a % n) n 1 0 with
    | (g, t) => if g = 1 then some (residue t n) else none

/-- `R⁻¹ mod m` for the Montgomery radix R = 2^256 and an odd m (41_field.md R106). -/
def montgomeryRinv (m : Nat) : Nat := (modInverse (2 ^ 256) m).getD 0

/-- `ScalarFromRaw(raw)` of R142. -/
def scalarFromRaw (raw : Nat) : Nat := raw % (Config.order.toNat - 1) + 1

/-- `ValidKey(d)` of R144. -/
abbrev ValidKey (d : Nat) : Prop := 1 ≤ d ∧ d < Config.order.toNat

/-- No `d` in [lo, lo + 2^depth) with d·d ≤ m divides m. The range is halved at each level, and a range that
begins past the square root is skipped. -/
def noSmallDivisor (m : Nat) : (depth lo : Nat) → Bool
  | 0, lo => decide (m < lo * lo) || m % lo != 0
  | depth + 1, lo =>
    decide (m < lo * lo) || (noSmallDivisor m depth lo && noSmallDivisor m depth (lo + 2 ^ depth))

/-- `PrimeAcceptable(m)` of R87 for a build with PRIME_CHECK_BITS = `bits`, by trial division up to the square
root. The divisors up to 2^128 are enough for any 256-bit m. -/
def primeAcceptable (bits m : Nat) : Bool :=
  decide (m < 2 ^ bits) && decide (2 ≤ m) && noSmallDivisor m 128 2

end Sys2Proof.Machine
end

