-- ==== Sys2Proof/Machine/State.lean ====
section
/-! DEFINITION. The state record of 10_state.md R10 as plain data, the model's own fields for the agents
outside the block (host, RNG collaborator, reset pin), the reasons a step could stop, and the state after
reset (10_state.md R34). -/

namespace Sys2Proof.Machine

/-- The tag of a value register (10_state.md R11). -/
inductive Tag where
  | unwritten
  | int
  | fe (f : FIdx)
  deriving DecidableEq, Repr

/-- The contents of a value register: a 256-bit unsigned value and its tag (R11). -/
structure VReg where
  value : U256
  tag : Tag
  deriving DecidableEq, Repr

/-- A curve point: the point at infinity of curve slot `c`, or an affine point of it (R14). -/
inductive Point where
  | inf (c : CIdx)
  | aff (c : CIdx) (x y : U256)
  deriving DecidableEq, Repr

/-- The contents of a point register, `PointVal` of R10: nothing, or a point. -/
inductive PointReg where
  | unwritten
  | pt (q : Point)
  deriving DecidableEq, Repr

/-- A field slot: a valid bit and a modulus (R15). -/
structure FieldSlot where
  valid : Bool
  m : U256
  deriving DecidableEq, Repr

/-- A curve slot: a valid bit, a field slot and two coefficients (R16). -/
structure CurveSlot where
  valid : Bool
  f : FIdx
  a : U256
  b : U256
  deriving DecidableEq, Repr

/-- The errors a command can complete with (60_exceptions.md R160). `Err.code` gives the 4-bit codes. The
reserved codes 0xD and 0xE and the unreachable 0xF (R167) have no constructor: no step reports them. -/
inductive Err where
  | invalidModulus
  | outOfRange
  | pointNotOnCurve
  | fieldMismatch
  | curveMismatch
  | notInvertible
  | divisionByZero
  | nonceExhausted
  | illegalCommand
  | unwrittenOperand
  | unconfiguredSlot
  | infinityCoordinate
  deriving DecidableEq, Repr

/-- The fields of the STATUS register (R21). -/
structure Status where
  busy : Bool
  done : Bool
  err : Bool
  res : Bool
  ovr : Bool
  errcode : BitVec 4
  deriving DecidableEq, Repr

/-- The named parameters (00_scope.md R5): PRIME_CHECK_BITS and NONCE_MAX_ATTEMPTS of the build, which PARAMS reads
back (R27), and BASE of the platform as a number of 4 KiB pages, so that it is aligned (20_memory.md R40). The width of
a bus address is not given, so BASE is a natural number. -/
structure Params where
  primeCheckBits : Nat
  nonceMaxAttempts : Nat
  basePage : Nat
  deriving DecidableEq, Repr

/-- The RNG collaborator's port (20_memory.md R55): the answers it has ready, each of 32 bytes with b[0]
first, and how many draws have been taken. With no answer ready, a draw is the free value
`Config.rngBytes`; see assumption 1. -/
structure Rng where
  answers : List (Vector Byte 32)
  drawn : Nat
  deriving DecidableEq, Repr

/-- One move of an agent (20_memory.md R51, 70_reset_and_hazards.md R190): the core's step, a host read or
write of `width` bits at a byte offset of the window, or a level put on the `rst_n` pin. -/
inductive Event where
  | core
  | read (width : Nat) (off : Offset)
  | write (width : Nat) (off : Offset) (d : Word32)
  | rstN (level : Bool)
  deriving DecidableEq, Repr

/-- The machine. The fields from `v` to `attempts` are the record of R10; F0, F1 and C0 are hardwired and
live in the accessors of Machine/Ops.lean, and `pending` is a view of `status.busy` (R31). The fields from
`params` on are the model's own. -/
structure State where
  /-- Value registers V0 to V15 (R11). -/
  v : Vector VReg 16
  /-- Point registers P0 to P7 (R14). -/
  p : Vector PointReg 8
  /-- Generic field slot F2 (R15). -/
  f2 : FieldSlot
  /-- Generic field slot F3 (R15). -/
  f3 : FieldSlot
  /-- Generic curve slot C1 (R16). -/
  c1 : CurveSlot
  /-- Generic curve slot C2 (R16). -/
  c2 : CurveSlot
  /-- Generic curve slot C3 (R16). -/
  c3 : CurveSlot
  /-- CTRL.IE (R20). -/
  ie : Bool
  /-- STATUS (R21). -/
  status : Status
  /-- The last accepted command word (R22). -/
  cmd : Word32
  /-- ATTEMPTS (R25). -/
  attempts : BitVec 16
  /-- The parameters of this build and its platform (00_scope.md R5); no step changes them. -/
  params : Params
  /-- The level of the `rst_n` pin; low holds the block in reset (70_reset_and_hazards.md R190). -/
  rstN : Bool
  /-- The RNG collaborator's port. -/
  rng : Rng
  /-- The moves of the host, the core and the pin still to come, in their order (20_memory.md R51). -/
  agenda : List Event
  /-- The values the host's reads returned, oldest first (70_reset_and_hazards.md R202). -/
  reads : List Word32
  /-- How many free values `Config.busyRead` and `Config.abandonedDraws` have given. -/
  freeCount : Nat
  /-- Ghost log of the error completions, oldest first, never cleared (93_implementation_defined.md §2). -/
  errLog : List (Word32 × Err)
  /-- Ghost log of the dropped writes, oldest first, never cleared (93_implementation_defined.md §2). -/
  ovrLog : List (Offset × Word32)
  deriving DecidableEq, Repr

/-- Why a step stops with a fault: never. The spec gives every command, bus access and pin level an effect
(30_encoding.md R68, 20_memory.md R42, R43), so no constructor is needed and no step raises one. -/
inductive Fault where
  deriving DecidableEq, Repr

/-- Why a step has no meaning. -/
inductive Refusal where
  /-- Raised by an arm of `exec` whose command has no meaning yet. No arm raises it now. Safe. -/
  | notModelled (mnemonic : String)
  deriving DecidableEq, Repr

/-- The outcome of a step of this machine. -/
abbrev Out := Host.Outcome State Fault Refusal

/-- The machine right after reset (R34). The model's own fields hold the default parameters, the pin high,
no answer, no move, no read and empty logs (assumptions 1 to 8). -/
def State.reset : State where
  v := Vector.replicate 16 ⟨0, .unwritten⟩
  p := Vector.replicate 8 .unwritten
  f2 := ⟨false, 0⟩
  f3 := ⟨false, 0⟩
  c1 := ⟨false, 0, 0, 0⟩
  c2 := ⟨false, 0, 0, 0⟩
  c3 := ⟨false, 0, 0, 0⟩
  ie := false
  status := ⟨false, false, false, false, false, 0⟩
  cmd := 0
  attempts := 0
  params := ⟨Config.defaultPrimeCheckBits, Config.defaultNonceMaxAttempts, Config.defaultBasePage⟩
  rstN := true
  rng := ⟨[], 0⟩
  agenda := []
  reads := []
  freeCount := 0
  errLog := []
  ovrLog := []

end Sys2Proof.Machine
end

