-- ==== Sys2Proof/Machine/Ops.lean ====
section
/-! DEFINITION. The named operations over the registers: the accessors with the hardwired slots
(10_state.md R15, R16), the staged register writes, slot invalidation (40_control.md R84, R86), the random
draw (20_memory.md R55), and completing a command with or without an error (60_exceptions.md R162). -/

namespace Sys2Proof.Machine

/-- `f` on every element of a register file. -/
def mapFile {α β : Type} {n : Nat} (f : α → β) (file : Vector α n) : Vector β n :=
  ⟨(file.toList.map f).toArray, by simp⟩

/-! ### Value and point registers -/

/-- Value register V[i] (R11). -/
def State.vreg (s : State) (i : VIdx) : VReg := s.v.get i

/-- The write `V[i] <- x` (00_scope.md R7). -/
def State.setV (s : State) (i : VIdx) (x : VReg) : State := { s with v := s.v.set i.val x i.isLt }

/-- Point register P[i] (R14). -/
def State.preg (s : State) (i : PIdx) : PointReg := s.p.get i

/-- The write `P[i] <- q` of a point (00_scope.md R7). -/
def State.setP (s : State) (i : PIdx) (q : Point) : State := { s with p := s.p.set i.val (.pt q) i.isLt }

/-! ### Field and curve slots -/

/-- Field slot MOD[f]: F0 = p and F1 = N are hardwired (R15). -/
def State.fieldSlot (s : State) (f : FIdx) : FieldSlot :=
  match f with
  | 0 => ⟨true, Config.p⟩
  | 1 => ⟨true, Config.order⟩
  | 2 => s.f2
  | 3 => s.f3

/-- The write `MOD[f] <- x`; a hardwired slot keeps its contents (R15). -/
def State.setField (s : State) (f : FIdx) (x : FieldSlot) : State :=
  match f with
  | 0 => s
  | 1 => s
  | 2 => { s with f2 := x }
  | 3 => { s with f3 := x }

/-- Curve slot CRV[c]: C0 = secp256k1 is hardwired (R16). -/
def State.curveSlot (s : State) (c : CIdx) : CurveSlot :=
  match c with
  | 0 => ⟨true, 0, 0, 7⟩
  | 1 => s.c1
  | 2 => s.c2
  | 3 => s.c3

/-- The write `CRV[c] <- x`; the hardwired slot keeps its contents (R16). -/
def State.setCurve (s : State) (c : CIdx) (x : CurveSlot) : State :=
  match c with
  | 0 => s
  | 1 => { s with c1 := x }
  | 2 => { s with c2 := x }
  | 3 => { s with c3 := x }

/-- `MOD[f].m` as an integer; `ModOf(FE(f))` of R17. -/
def State.modOf (s : State) (f : FIdx) : Nat := (s.fieldSlot f).m.toNat

/-- A curve's field modulus and coefficients. -/
structure CurveKey where
  m : Nat
  a : Nat
  b : Nat
  deriving DecidableEq, Repr

/-- `CurveKey(c)` of R17. -/
def State.curveKey (s : State) (c : CIdx) : CurveKey :=
  ⟨s.modOf (s.curveSlot c).f, (s.curveSlot c).a.toNat, (s.curveSlot c).b.toNat⟩

/-- `CurveOf` of R17. -/
def Point.curve : Point → CIdx
  | .inf c => c
  | .aff c _ _ => c

/-- `HasOrder(c)` of R17: only the secp256k1 slot reduces scalars. -/
def hasOrder (c : CIdx) : Bool := c == 0

/-! ### Invalidation -/

/-- A value register after `InvalidateField(f)`: an FE(f) tag becomes UNWRITTEN, the value bits stay (R84). -/
def VReg.dropField (f : FIdx) (x : VReg) : VReg := if x.tag = .fe f then { x with tag := .unwritten } else x

/-- A point register after `InvalidateCurve(c)`: a point of curve c becomes Unwritten (R86). -/
def PointReg.dropCurve (c : CIdx) : PointReg → PointReg
  | .unwritten => .unwritten
  | .pt q => if q.curve = c then .unwritten else .pt q

/-- `InvalidateCurve(c)` of R86. -/
def State.invalidateCurve (s : State) (c : CIdx) : State := { s with p := mapFile (PointReg.dropCurve c) s.p }

/-- The turn of R84's second loop for curve slot c: a valid curve over field f becomes invalid, with its
points. -/
def State.invalidateCurveOver (s : State) (f : FIdx) (c : CIdx) : State :=
  if (s.curveSlot c).valid = true ∧ (s.curveSlot c).f = f then
    (s.setCurve c { s.curveSlot c with valid := false }).invalidateCurve c
  else s

/-- `InvalidateField(f)` of R84. -/
def State.invalidateField (s : State) (f : FIdx) : State :=
  ((({ s with v := mapFile (VReg.dropField f) s.v }).invalidateCurveOver f 1).invalidateCurveOver f 2).invalidateCurveOver f 3

/-! ### Random draws -/

/-- The integer of a 32-byte answer: b[0] is the most significant byte (20_memory.md R55). -/
def rawOfBytes (b : Vector Byte 32) : Nat := b.toList.foldl (fun acc x => acc * 256 + x.toNat) 0

/-- `RngDraw()` of R55: the next answer the collaborator has ready, or else a free one. Every draw is
answered. -/
def Rng.draw (g : Rng) : Nat × Rng :=
  match g.answers with
  | b :: rest => (rawOfBytes b, ⟨rest, g.drawn + 1⟩)
  | [] => (rawOfBytes (Config.rngBytes g.drawn), ⟨[], g.drawn + 1⟩)

/-- The collaborator after `k` further draws whose values are lost (70_reset_and_hazards.md R192). -/
def Rng.skip (g : Rng) (k : Nat) : Rng := ⟨g.answers.drop k, g.drawn + k⟩

/-! ### Completing a command -/

/-- The 4-bit code of an error (60_exceptions.md R160). -/
def Err.code : Err → BitVec 4
  | .invalidModulus => 0x1
  | .outOfRange => 0x2
  | .pointNotOnCurve => 0x3
  | .fieldMismatch => 0x4
  | .curveMismatch => 0x5
  | .notInvertible => 0x6
  | .divisionByZero => 0x7
  | .nonceExhausted => 0x8
  | .illegalCommand => 0x9
  | .unwrittenOperand => 0xA
  | .unconfiguredSlot => 0xB
  | .infinityCoordinate => 0xC

/-- The success arm of R162: ERR = 0, ERRCODE = 0, RES as staged, then DONE = 1 and BUSY = pending = 0. OVR
stays. -/
def State.completeOk (s : State) (res : Bool) : State :=
  { s with status := { s.status with busy := false, done := true, err := false, res := res, errcode := 0 } }

/-- TAKING AN ERROR, the block's only "trap entry" (R162): ERR = 1, ERRCODE = code(E), RES = 0, then DONE = 1
and BUSY = pending = 0. Nothing else is saved and control goes nowhere (R165). There is no return from it
(R166). The ghost log notes the word and the error. -/
def State.completeErr (s : State) (e : Err) : State :=
  { s with
    status := { s.status with busy := false, done := true, err := true, res := false, errcode := e.code }
    errLog := s.errLog ++ [(s.cmd, e)] }

/-- What a command's pseudocode leaves staged: the state with its register writes, and RES (R162). -/
structure Staged where
  st : State
  res : Bool

/-- The commit of R162. A command body runs on `s`; its staged writes replace `s` on success and are
discarded on an error. -/
def finish (s : State) (body : Except Err Staged) : Out :=
  match body with
  | .ok r => .next (r.st.completeOk r.res)
  | .error e => .next (s.completeErr e)

/-- `if not c then raise e` (00_scope.md R7). -/
def require (c : Prop) [Decidable c] (e : Err) : Except Err Unit := if c then .ok () else .error e

end Sys2Proof.Machine
end

