-- ==== Sys2Proof/Machine/Operands.lean ====
section
/-! DEFINITION. Operand forms: reading a source register as an integer, as a field element or as a point,
and the compatibility checks (00_scope.md R7, 41_field.md R100, 42_point.md R120). -/

namespace Sys2Proof.Machine

/-- `ReadV(i)` of R7: UnwrittenOperand for an UNWRITTEN register. The integer operands of a command use the
value under any written tag (10_state.md R11). -/
def State.readV (s : State) (i : VIdx) : Except Err VReg :=
  if (s.vreg i).tag = .unwritten then .error .unwrittenOperand else .ok (s.vreg i)

/-- `ReadP(i)` of R7: UnwrittenOperand for an Unwritten register. -/
def State.readP (s : State) (i : PIdx) : Except Err Point :=
  match s.preg i with
  | .unwritten => .error .unwrittenOperand
  | .pt q => .ok q

/-- `CheckFE` of R100: the field slot of an FE tag, and FieldMismatch for any other tag. -/
def fieldOfTag : Tag → Except Err FIdx
  | .fe f => .ok f
  | .int => .error .fieldMismatch
  | .unwritten => .error .fieldMismatch

/-- Two field operands as a binary field command reads them: the two values, the slot of the first operand
and its modulus. -/
structure FieldPair where
  a : Nat
  b : Nat
  f : FIdx
  m : Nat
  deriving DecidableEq, Repr

/-- The operand head that FADD, FSUB, FMUL, MMUL and FDIV share: ReadV of both, CheckFE of both, SameField
(R100, R102). -/
def State.readFieldPair (s : State) (i j : VIdx) : Except Err FieldPair := do
  let a ← s.readV i
  let b ← s.readV j
  let f ← fieldOfTag a.tag
  let g ← fieldOfTag b.tag
  require (s.modOf f = s.modOf g) .fieldMismatch
  .ok ⟨a.value.toNat, b.value.toNat, f, s.modOf f⟩

/-- `CurveCompatible(c1, c2)` of R120: same modulus, a and b. -/
abbrev State.CurveCompatible (s : State) (c d : CIdx) : Prop := s.curveKey c = s.curveKey d

/-- `OnCurve(c, x, y)` of R120. -/
abbrev State.OnCurve (s : State) (c : CIdx) (x y : Nat) : Prop :=
  residue ((y * y : Int) - (x * x * x + (s.curveKey c).a * x + (s.curveKey c).b)) (s.curveKey c).m = 0

/-- A field element of value `x` in slot `f`, as a command writes it. -/
def feReg (x : Nat) (f : FIdx) : VReg := ⟨BitVec.ofNat 256 x, .fe f⟩

/-- A plain integer of value `x`, as a command writes it. -/
def intReg (x : Nat) : VReg := ⟨BitVec.ofNat 256 x, .int⟩

end Sys2Proof.Machine
end

