-- ==== Sys2Proof/Machine/Control.lean ====
section
/-! DEFINITION. The control and configuration commands (40_control.md): NOP, MOV, PMOV, SETMOD, SETCRV. -/

namespace Sys2Proof.Machine

/-- NOP (R80). -/
def execNop (s : State) : Out := finish s (.ok ⟨s, false⟩)

/-- MOV vd, vs (R81): the copy takes the tag along. -/
def execMov (rd rs1 : VIdx) (s : State) : Out :=
  finish s do
    let a ← s.readV rs1
    .ok ⟨s.setV rd a, false⟩

/-- PMOV pd, ps (R82). -/
def execPmov (rd rs1 : PIdx) (s : State) : Out :=
  finish s do
    let q ← s.readP rs1
    .ok ⟨s.setP rd q, false⟩

/-- SETMOD fN, vm (R83): the prime test, then the invalidation of R84, then the slot. A hardwired slot is an
IllegalCommand (30_encoding.md R67). -/
def execSetmod (slot : FIdx) (rs1 : VIdx) (s : State) : Out :=
  finish s do
    require (2 ≤ slot.val) .illegalCommand
    let a ← s.readV rs1
    require (primeAcceptable s.params.primeCheckBits a.value.toNat = true) .invalidModulus
    .ok ⟨(s.invalidateField slot).setField slot ⟨true, a.value⟩, false⟩

/-- SETCRV cN, va, vb (R85): the curve takes the field of va. The hardwired slot is an IllegalCommand
(30_encoding.md R67). -/
def execSetcrv (slot : CIdx) (rs1 rs2 : VIdx) (s : State) : Out :=
  finish s do
    require (slot ≠ 0) .illegalCommand
    let a ← s.readV rs1
    let b ← s.readV rs2
    let f ← fieldOfTag a.tag
    let g ← fieldOfTag b.tag
    require (s.modOf f = s.modOf g) .fieldMismatch
    .ok ⟨(s.invalidateCurve slot).setCurve slot ⟨true, f, a.value, b.value⟩, false⟩

end Sys2Proof.Machine
end

