-- ==== Sys2Proof/Machine/Curve.lean ====
section
/-! DEFINITION. The group law (42_point.md R124) and double-and-add scalar multiplication (R128) as functions,
over the curve slots of a state. -/

namespace Sys2Proof.Machine

/-- A slope division, which is a field division: DivisionByZero for a zero divisor, else the Fermat quotient
(R124; 90_conflicts.md C1, 92_eei_decisions.md D13). -/
def slope (num den m : Nat) : Except Err Nat :=
  if den = 0 then .error .divisionByZero else .ok (fermatQuotient num den m)

/-- The third point of the line of slope `l` through (x1, y1), reflected: x3 = l² − x1 − x2 and
y3 = l·(x1 − x3) − y1, both mod m (R124, cases 4 and 5). -/
def chordPoint (c : CIdx) (m l x1 y1 x2 : Nat) : Point :=
  let x3 := residue ((l * l : Int) - x1 - x2) m
  let y3 := residue ((l : Int) * ((x1 : Int) - x3) - y1) m
  .aff c (BitVec.ofNat 256 x3) (BitVec.ofNat 256 y3)

/-- Case 4 of R124, doubling (x, y) on curve slot `c`. -/
def State.doubleAffine (s : State) (c : CIdx) (x y : Nat) : Except Err Point :=
  if y = 0 then .ok (.inf c)
  else do
    let k := s.curveKey c
    let l ← slope ((3 * x * x + k.a) % k.m) (2 * y % k.m) k.m
    .ok (chordPoint c k.m l x y x)

/-- Case 5 of R124, the secant through two points of different x on curve slot `c`. -/
def State.addSecant (s : State) (c : CIdx) (x1 y1 x2 y2 : Nat) : Except Err Point := do
  let k := s.curveKey c
  let l ← slope (residue ((y2 : Int) - y1) k.m) (residue ((x2 : Int) - x1) k.m) k.m
  .ok (chordPoint c k.m l x1 y1 x2)

/-- `PointAdd(A, B)` of R124: the mismatch test first, then the five cases in their order. -/
def State.pointAdd (s : State) (A B : Point) : Except Err Point :=
  if ¬ s.CurveCompatible A.curve B.curve then .error .curveMismatch
  else
    match A, B with
    | .inf _, B => .ok B
    | A, .inf _ => .ok A
    | .aff c x1 y1, .aff _ x2 y2 =>
      if x1 = x2 then
        if y1 = y2 then s.doubleAffine c x1.toNat y1.toNat
        else .ok (.inf c)
      else s.addSecant c x1.toNat y1.toNat x2.toNat y2.toNat

/-- The loop of `ScalarMul` (R128), at most `fuel` turns. -/
def State.scalarLoop (s : State) : (fuel k : Nat) → (result current : Point) → Except Err Point
  | 0, _, result, _ => .ok result
  | fuel + 1, k, result, current =>
    if k = 0 then .ok result
    else do
      let result' ← if k % 2 = 1 then s.pointAdd result current else .ok result
      let current' ← s.pointAdd current current
      s.scalarLoop fuel (k / 2) result' current'

/-- The scalar the loop uses: reduced modulo N on the secp256k1 slot only (R128). -/
def loopScalar (c : CIdx) (k : Nat) : Nat := if hasOrder c then k % Config.order.toNat else k

/-- `ScalarMul(Pt, k)` of R128 for k < 2^256: 256 turns are enough. -/
def State.scalarMul (s : State) (pt : Point) (k : Nat) : Except Err Point :=
  s.scalarLoop 256 (loopScalar pt.curve k) (.inf pt.curve) pt

/-- The generator G of secp256k1 (00_scope.md R8), a point of C0. -/
def generator : Point := .aff 0 Config.gx Config.gy

end Sys2Proof.Machine
end

