-- ==== Sys2Proof/Machine/Ecdsa.lean ====
section
/-! DEFINITION. The modular inverse, key and ECDSA commands (43_ecdsa.md): MINV, KEYGEN, PUBKEY, SIGN, VERIFY. -/

namespace Sys2Proof.Machine

/-- `ModInverse` as a command step (R140): NotInvertible where there is no inverse. -/
def invertOrRaise (a n : Nat) : Except Err Nat :=
  match modInverse a n with
  | some x => .ok x
  | none => .error .notInvertible

/-- MINV vd, va, vn (R141): integers of any written tag, and the result is an INT. -/
def execMinv (rd rs1 rs2 : VIdx) (s : State) : Out :=
  finish s do
    let a ← s.readV rs1
    let n ← s.readV rs2
    let x ← invertOrRaise a.value.toNat n.value.toNat
    .ok ⟨s.setV rd (intReg x), false⟩

/-- KEYGEN vd (R143): exactly one draw. -/
def execKeygen (rd : VIdx) (s : State) : Out :=
  finish s (.ok ⟨{ s with rng := s.rng.draw.2 }.setV rd (intReg (scalarFromRaw s.rng.draw.1)), false⟩)

/-- PUBKEY pd, vk (R145). -/
def execPubkey (rd : PIdx) (rs1 : VIdx) (s : State) : Out :=
  finish s do
    let d ← s.readV rs1
    require (ValidKey d.value.toNat) .outOfRange
    let q ← s.scalarMul generator d.value.toNat
    .ok ⟨s.setP rd q, false⟩

/-- `x(R) mod N` of a point (R147, R148). The spec derives that R is affine wherever SIGN uses it (R147), so
the value at infinity is never used; there it counts as a degenerate attempt (assumption 9). DEDUCED. -/
def xModOrder : Point → Nat
  | .inf _ => 0
  | .aff _ x _ => x.toNat % Config.order.toNat

/-- One turn of SIGN's loop for the nonce `k` (R147, ComputeR and ComputeS): the signature (r, s), or `none`
for a ProtocolRetry. -/
def State.signAttempt (st : State) (z d k : Nat) : Except Err (Option (Nat × Nat)) := do
  let q ← st.scalarMul generator k
  let r := xModOrder q
  if r = 0 then .ok none
  else do
    let kInv ← invertOrRaise k Config.order.toNat
    let t := kInv * (z + r * d) % Config.order.toNat
    if t = 0 then .ok none else .ok (some (r, t))

/-- What SIGN's nonce loop leaves: the RNG port, the number of nonces drawn, and the signature or the error. -/
structure SignResult where
  rng : Rng
  attempts : Nat
  sig : Except Err (Nat × Nat)

/-- SIGN's nonce loop (R147): `left` attempts are left of NONCE_MAX_ATTEMPTS and `done` nonces were drawn. -/
def State.signLoop (st : State) (z d : Nat) : (left done : Nat) → Rng → SignResult
  | 0, done, g => ⟨g, done, .error .nonceExhausted⟩
  | left + 1, done, g =>
    match st.signAttempt z d (scalarFromRaw g.draw.1) with
    | .error e => ⟨g.draw.2, done + 1, .error e⟩
    | .ok none => st.signLoop z d left (done + 1) g.draw.2
    | .ok (some sig) => ⟨g.draw.2, done + 1, .ok sig⟩

/-- SIGN's checks before it draws a nonce (R147): z and the private key d. -/
def State.signOperands (s : State) (rd rs1 rs2 rs3 : VIdx) : Except Err (Nat × Nat) := do
  require (rd ≠ rs3) .illegalCommand
  let z ← s.readV rs1
  let d ← s.readV rs2
  require (ValidKey d.value.toNat) .outOfRange
  .ok (z.value.toNat, d.value.toNat)

/-- The state after SIGN's nonce loop, before the commit: the draws are taken, and ATTEMPTS is kept whatever
the outcome (60_exceptions.md R162). -/
def State.afterNonces (s : State) (r : SignResult) : State :=
  { s with rng := r.rng, attempts := BitVec.ofNat 16 r.attempts }

/-- The signature of a finished nonce loop into its two registers (R147). -/
def State.writeSignature (s : State) (rd rs3 : VIdx) (sig : Except Err (Nat × Nat)) : Except Err Staged := do
  let p ← sig
  .ok ⟨(s.setV rd (intReg p.1)).setV rs3 (intReg p.2), false⟩

/-- SIGN vr, vs, vz, vd (R147): r to RD, s to RS3, z from RS1, d from RS2. -/
def execSign (rd rs1 rs2 rs3 : VIdx) (s : State) : Out :=
  match s.signOperands rd rs1 rs2 rs3 with
  | .error e => finish s (.error e)
  | .ok (z, d) =>
    let r := s.signLoop z d s.params.nonceMaxAttempts 0 s.rng
    finish (s.afterNonces r) ((s.afterNonces r).writeSignature rd rs3 r.sig)

/-- The range test of R148 step 1. -/
abbrev SignatureInRange (r t : Nat) : Prop :=
  (1 ≤ r ∧ r ≤ Config.order.toNat - 1) ∧ (1 ≤ t ∧ t ≤ Config.order.toNat - 1)

/-- The verdict of R148, steps 1 to 7, for a key that passed the curve check. -/
def State.verdict (s : State) (q : Point) (z r t : Nat) : Except Err Bool :=
  if ¬ SignatureInRange r t then .ok false
  else do
    let w ← invertOrRaise t Config.order.toNat
    let a ← s.scalarMul generator (z * w % Config.order.toNat)
    let b ← s.scalarMul q (r * w % Config.order.toNat)
    let sum ← s.pointAdd a b
    match sum with
    | .inf _ => .ok false
    | .aff _ x _ => .ok (decide (x.toNat % Config.order.toNat = r))

/-- VERIFY pq, vz, vr, vs (R148): the public key from point register RD, z from RS1, r from RS2, s from RS3. -/
def execVerify (rd : PIdx) (rs1 rs2 rs3 : VIdx) (s : State) : Out :=
  finish s do
    let q ← s.readP rd
    let z ← s.readV rs1
    let r ← s.readV rs2
    let t ← s.readV rs3
    require (s.CurveCompatible q.curve 0) .curveMismatch
    let v ← s.verdict q z.value.toNat r.value.toNat t.value.toNat
    .ok ⟨s, v⟩

end Sys2Proof.Machine
end

