-- ==== Sys2Proof/Machine/Field.lean ====
section
/-! DEFINITION. The field arithmetic commands (41_field.md): FMK, FADD, FSUB, FMUL, MMUL, FPOW, FDIV, FEQ. -/

namespace Sys2Proof.Machine

/-- FMK vd, vs, fN (R101): the value is checked against the modulus, never reduced. -/
def execFmk (rd rs1 : VIdx) (slot : FIdx) (s : State) : Out :=
  finish s do
    let a ← s.readV rs1
    require ((s.fieldSlot slot).valid = true) .unconfiguredSlot
    require (a.value.toNat < s.modOf slot) .outOfRange
    .ok ⟨s.setV rd ⟨a.value, .fe slot⟩, false⟩

/-- FADD vd, va, vb (R102). -/
def execFadd (rd rs1 rs2 : VIdx) (s : State) : Out :=
  finish s do
    let o ← s.readFieldPair rs1 rs2
    .ok ⟨s.setV rd (feReg ((o.a + o.b) % o.m) o.f), false⟩

/-- FSUB vd, va, vb (R103): the residue is never negative. -/
def execFsub (rd rs1 rs2 : VIdx) (s : State) : Out :=
  finish s do
    let o ← s.readFieldPair rs1 rs2
    .ok ⟨s.setV rd (feReg (residue ((o.a : Int) - o.b) o.m) o.f), false⟩

/-- FMUL vd, va, vb (R104): the plain product, whatever the internal method (R105). -/
def execFmul (rd rs1 rs2 : VIdx) (s : State) : Out :=
  finish s do
    let o ← s.readFieldPair rs1 rs2
    .ok ⟨s.setV rd (feReg (o.a * o.b % o.m) o.f), false⟩

/-- MMUL vd, va, vb (R106): the raw Montgomery product with R = 2^256, for an odd modulus. -/
def execMmul (rd rs1 rs2 : VIdx) (s : State) : Out :=
  finish s do
    let o ← s.readFieldPair rs1 rs2
    require (o.m % 2 ≠ 0) .invalidModulus
    .ok ⟨s.setV rd (feReg (o.a * o.b * montgomeryRinv o.m % o.m) o.f), false⟩

/-- FPOW and FPOW.NEG vd, va, ve (R108): the base is a field element, the exponent an integer of any written
tag. -/
def execFpow (rd rs1 rs2 : VIdx) (neg : Bool) (s : State) : Out :=
  finish s do
    let a ← s.readV rs1
    let e ← s.readV rs2
    let f ← fieldOfTag a.tag
    .ok ⟨s.setV rd (feReg (fieldPow a.value.toNat e.value.toNat neg (s.modOf f)) f), false⟩

/-- FDIV vd, va, vb (R109): the Fermat inverse, DivisionByZero for a zero divisor. -/
def execFdiv (rd rs1 rs2 : VIdx) (s : State) : Out :=
  finish s do
    let o ← s.readFieldPair rs1 rs2
    require (o.b ≠ 0) .divisionByZero
    .ok ⟨s.setV rd (feReg (fermatQuotient o.a o.b o.m) o.f), false⟩

/-- FEQ va, vb (R110): different moduli compare unequal and raise no error. -/
def execFeq (rs1 rs2 : VIdx) (s : State) : Out :=
  finish s do
    let a ← s.readV rs1
    let b ← s.readV rs2
    let f ← fieldOfTag a.tag
    let g ← fieldOfTag b.tag
    .ok ⟨s, decide (a.value = b.value) && decide (s.modOf f = s.modOf g)⟩

end Sys2Proof.Machine
end

