-- ==== Sys2Proof/Machine/Group.lean ====
section
/-! DEFINITION. The curve point commands (42_point.md): PINF, PMK, PEQ, PADD, PDBL, PSMUL, PGEN, PGETX, PGETY,
PISINF. -/

namespace Sys2Proof.Machine

/-- PINF pd, cN (R121). -/
def execPinf (rd : PIdx) (slot : CIdx) (s : State) : Out :=
  finish s do
    require ((s.curveSlot slot).valid = true) .unconfiguredSlot
    .ok ⟨s.setP rd (.inf slot), false⟩

/-- PMK pd, vx, vy, cN (R122). -/
def execPmk (rd : PIdx) (rs1 rs2 : VIdx) (slot : CIdx) (s : State) : Out :=
  finish s do
    let x ← s.readV rs1
    let y ← s.readV rs2
    require ((s.curveSlot slot).valid = true) .unconfiguredSlot
    let f ← fieldOfTag x.tag
    let g ← fieldOfTag y.tag
    require (s.modOf f = (s.curveKey slot).m ∧ s.modOf g = (s.curveKey slot).m) .fieldMismatch
    require (s.OnCurve slot x.value.toNat y.value.toNat) .pointNotOnCurve
    .ok ⟨s.setP rd (.aff slot x.value y.value), false⟩

/-- The equality of R123: any two points at infinity are equal, and affine points need equal coordinates and
compatible curves. -/
def State.pointEq (s : State) : Point → Point → Bool
  | .inf _, .inf _ => true
  | .inf _, .aff _ _ _ => false
  | .aff _ _ _, .inf _ => false
  | .aff c x y, .aff d x' y' => decide (x = x') && decide (y = y') && decide (s.CurveCompatible c d)

/-- PEQ pa, pb (R123). -/
def execPeq (rs1 rs2 : PIdx) (s : State) : Out :=
  finish s do
    let a ← s.readP rs1
    let b ← s.readP rs2
    .ok ⟨s, s.pointEq a b⟩

/-- PADD pd, pa, pb (R126). -/
def execPadd (rd rs1 rs2 : PIdx) (s : State) : Out :=
  finish s do
    let a ← s.readP rs1
    let b ← s.readP rs2
    let q ← s.pointAdd a b
    .ok ⟨s.setP rd q, false⟩

/-- PDBL pd, pa (R127): the point added to itself. -/
def execPdbl (rd rs1 : PIdx) (s : State) : Out :=
  finish s do
    let a ← s.readP rs1
    let q ← s.pointAdd a a
    .ok ⟨s.setP rd q, false⟩

/-- PSMUL pd, pa, vk (R129): the scalar is an integer of any written tag. -/
def execPsmul (rd rs1 : PIdx) (rs2 : VIdx) (s : State) : Out :=
  finish s do
    let a ← s.readP rs1
    let k ← s.readV rs2
    let q ← s.scalarMul a k.value.toNat
    .ok ⟨s.setP rd q, false⟩

/-- PGEN pd (R130). -/
def execPgen (rd : PIdx) (s : State) : Out := finish s (.ok ⟨s.setP rd generator, false⟩)

/-- PGETX vd, pa (R131). -/
def execPgetx (rd : VIdx) (rs1 : PIdx) (s : State) : Out :=
  finish s do
    let a ← s.readP rs1
    match a with
    | .inf _ => .error .infinityCoordinate
    | .aff c x _ => .ok ⟨s.setV rd ⟨x, .fe (s.curveSlot c).f⟩, false⟩

/-- PGETY vd, pa (R132). -/
def execPgety (rd : VIdx) (rs1 : PIdx) (s : State) : Out :=
  finish s do
    let a ← s.readP rs1
    match a with
    | .inf _ => .error .infinityCoordinate
    | .aff c _ y => .ok ⟨s.setV rd ⟨y, .fe (s.curveSlot c).f⟩, false⟩

/-- The test of R133. -/
def Point.isInf : Point → Bool
  | .inf _ => true
  | .aff _ _ _ => false

/-- PISINF pa (R133). -/
def execPisinf (rs1 : PIdx) (s : State) : Out :=
  finish s do
    let a ← s.readP rs1
    .ok ⟨s, a.isInf⟩

end Sys2Proof.Machine
end

