-- ==== Sys2Proof/Machine/Dispatch.lean ====
section
/-! DEFINITION. The dispatch: each command to its meaning, which runs it through the command cycle of
60_exceptions.md R162 and completes it. -/

namespace Sys2Proof.Machine

def exec (i : Instr) (s : State) : Host.Outcome State Fault Refusal :=
  match i with
  | .nop => Sys2Proof.Machine.execNop s
  | .mov rd rs1 => Sys2Proof.Machine.execMov rd rs1 s
  | .pmov rd rs1 => Sys2Proof.Machine.execPmov rd rs1 s
  | .setmod slot rs1 => Sys2Proof.Machine.execSetmod slot rs1 s
  | .setcrv slot rs1 rs2 => Sys2Proof.Machine.execSetcrv slot rs1 rs2 s
  | .fmk rd rs1 slot => Sys2Proof.Machine.execFmk rd rs1 slot s
  | .fadd rd rs1 rs2 => Sys2Proof.Machine.execFadd rd rs1 rs2 s
  | .fsub rd rs1 rs2 => Sys2Proof.Machine.execFsub rd rs1 rs2 s
  | .fmul rd rs1 rs2 => Sys2Proof.Machine.execFmul rd rs1 rs2 s
  | .mmul rd rs1 rs2 => Sys2Proof.Machine.execMmul rd rs1 rs2 s
  | .fpow rd rs1 rs2 neg => Sys2Proof.Machine.execFpow rd rs1 rs2 neg s
  | .fdiv rd rs1 rs2 => Sys2Proof.Machine.execFdiv rd rs1 rs2 s
  | .feq rs1 rs2 => Sys2Proof.Machine.execFeq rs1 rs2 s
  | .pinf rd slot => Sys2Proof.Machine.execPinf rd slot s
  | .pmk rd rs1 rs2 slot => Sys2Proof.Machine.execPmk rd rs1 rs2 slot s
  | .peq rs1 rs2 => Sys2Proof.Machine.execPeq rs1 rs2 s
  | .padd rd rs1 rs2 => Sys2Proof.Machine.execPadd rd rs1 rs2 s
  | .pdbl rd rs1 => Sys2Proof.Machine.execPdbl rd rs1 s
  | .psmul rd rs1 rs2 => Sys2Proof.Machine.execPsmul rd rs1 rs2 s
  | .pgen rd => Sys2Proof.Machine.execPgen rd s
  | .pgetx rd rs1 => Sys2Proof.Machine.execPgetx rd rs1 s
  | .pgety rd rs1 => Sys2Proof.Machine.execPgety rd rs1 s
  | .pisinf rs1 => Sys2Proof.Machine.execPisinf rs1 s
  | .minv rd rs1 rs2 => Sys2Proof.Machine.execMinv rd rs1 rs2 s
  | .keygen rd => Sys2Proof.Machine.execKeygen rd s
  | .pubkey rd rs1 => Sys2Proof.Machine.execPubkey rd rs1 s
  | .sign rd rs1 rs2 rs3 => Sys2Proof.Machine.execSign rd rs1 rs2 rs3 s
  | .verify rd rs1 rs2 rs3 => Sys2Proof.Machine.execVerify rd rs1 rs2 rs3 s

end Sys2Proof.Machine
end

