-- ==== Sys2Proof/Machine/Flags.lean ====
section
/-! DEFINITION. The block's flags and the words that show them: STATUS (10_state.md R21), CTRL (R20), the tag
and slot views VTAG, PTAG and SLOTS (R23, R24, R26), PARAMS (R27) and the IRQ output (R28). The block has no
condition codes (R30); which flags a command writes is in `State.completeOk` and `State.completeErr`. -/

namespace Sys2Proof.Machine

/-- A flag as a number. -/
def bit (b : Bool) : Nat := if b then 1 else 0

/-- `pending` of R31, the same as STATUS.BUSY. -/
def State.pending (s : State) : Bool := s.status.busy

/-- The STATUS word (R21). -/
def Status.word (t : Status) : Word32 :=
  BitVec.ofNat 32 (bit t.busy + bit t.done * 2 ^ 1 + bit t.err * 2 ^ 2 + bit t.res * 2 ^ 3 + bit t.ovr * 2 ^ 4
    + t.errcode.toNat * 2 ^ 8)

/-- The CTRL word (R20): SRST reads 0. -/
def State.ctrlWord (s : State) : Word32 := BitVec.ofNat 32 (bit s.ie)

/-- The IRQ output, a level (R28, 60_exceptions.md R168). -/
def State.irq (s : State) : Bool := s.status.done && s.ie

/-- The 4-bit tag code of R11. -/
def Tag.code : Tag → Nat
  | .unwritten => 0x0
  | .int => 0x1
  | .fe f => 0x4 + f.val

/-- The nibble of PTAG for a point register: kind in [1:0], curve slot in [3:2] (R24). -/
def PointReg.code : PointReg → Nat
  | .unwritten => 0
  | .pt (.inf c) => 1 + 4 * c.val
  | .pt (.aff c _ _) => 2 + 4 * c.val

/-- Nibbles side by side, the first in bits [3:0]. -/
def packNibbles : List Nat → Nat
  | [] => 0
  | x :: xs => x + 16 * packNibbles xs

/-- VTAG_LO (R23): the tag codes of V0 to V7. -/
def State.vtagLo (s : State) : Word32 := BitVec.ofNat 32 (packNibbles ((s.v.toList.take 8).map fun x => x.tag.code))

/-- VTAG_HI (R23): the tag codes of V8 to V15. -/
def State.vtagHi (s : State) : Word32 := BitVec.ofNat 32 (packNibbles ((s.v.toList.drop 8).map fun x => x.tag.code))

/-- PTAG (R24). -/
def State.ptag (s : State) : Word32 := BitVec.ofNat 32 (packNibbles (s.p.toList.map PointReg.code))

/-- ATTEMPTS (R25): bits [31:16] read 0. -/
def State.attemptsWord (s : State) : Word32 := BitVec.ofNat 32 s.attempts.toNat

/-- SLOTS (R26): bit f is MOD[f].valid, bit 4 + c is CRV[c].valid. -/
def State.slots (s : State) : Word32 :=
  BitVec.ofNat 32 (bit (s.fieldSlot 0).valid + bit (s.fieldSlot 1).valid * 2 ^ 1 + bit (s.fieldSlot 2).valid * 2 ^ 2
    + bit (s.fieldSlot 3).valid * 2 ^ 3 + bit (s.curveSlot 0).valid * 2 ^ 4 + bit (s.curveSlot 1).valid * 2 ^ 5
    + bit (s.curveSlot 2).valid * 2 ^ 6 + bit (s.curveSlot 3).valid * 2 ^ 7)

/-- PARAMS (R27): NONCE_MAX_ATTEMPTS in [15:0], PRIME_CHECK_BITS in [23:16]. Each shows the low bits of its
parameter, which matters for PRIME_CHECK_BITS = 256 only (assumption 10). DEDUCED. -/
def State.paramsWord (s : State) : Word32 :=
  BitVec.ofNat 32 (s.params.nonceMaxAttempts % 2 ^ 16 + s.params.primeCheckBits % 2 ^ 8 * 2 ^ 16)

end Sys2Proof.Machine
end

