-- ==== Sys2Proof/Machine/Window.lean ====
section
/-! DEFINITION. The register window as the host sees it (20_memory.md R41 to R44): which register an offset
names, the exact word a read of it gives, the reads that are hazardous while BUSY = 1
(70_reset_and_hazards.md R196), and the word of a value register. -/

namespace Sys2Proof.Machine

/-- BASE, the bus address of the window, a multiple of 4 KiB (R40; 00_scope.md R5). -/
def Params.base (p : Params) : Nat := 0x1000 * p.basePage

/-- The bus address of a byte offset of the window (R40). -/
def State.busAddress (s : State) (off : Offset) : Nat := s.params.base + off.toNat

/-- The byte offset that the port sees for a bus address (R40, 70_reset_and_hazards.md R205); `none` outside the
window, where no register of the block is (assumption 8). -/
def State.windowOffset (s : State) (addr : Nat) : Option Offset :=
  if s.params.base ≤ addr ∧ addr < s.params.base + 0x1000 then some (BitVec.ofNat 12 (addr - s.params.base)) else none

/-- What a word of the register window is (R41). -/
inductive WinReg where
  | id
  | ctrl
  | status
  | cmd
  | vtagLo
  | vtagHi
  | ptag
  | attempts
  | slots
  | params
  | vword (i : VIdx) (j : Fin 8)
  | reserved
  deriving DecidableEq, Repr

/-- The register at byte offset `off`, a multiple of 4 (R41). V[i] word j is at 0x100 + 0x20·i + 4·j. -/
def winReg (off : Offset) : WinReg :=
  match off.toNat with
  | 0x000 => .id
  | 0x004 => .ctrl
  | 0x008 => .status
  | 0x00C => .cmd
  | 0x010 => .vtagLo
  | 0x014 => .vtagHi
  | 0x018 => .ptag
  | 0x01C => .attempts
  | 0x020 => .slots
  | 0x024 => .params
  | n =>
    if 0x100 ≤ n ∧ n < 0x300 then .vword (Fin.ofNat 16 ((n - 0x100) / 0x20)) (Fin.ofNat 8 (n / 4))
    else .reserved

/-- The offset of V[i] word j (R41). -/
def vwordOffset (i : VIdx) (j : Fin 8) : Offset := BitVec.ofNat 12 (0x100 + 0x20 * i.val + 4 * j.val)

/-- The defined access: 32 bits wide at a multiple of 4 (R42). -/
def definedAccess (width : Nat) (off : Offset) : Bool := width == 32 && off.toNat % 4 == 0

/-- Word `j` of a 256-bit value, bits [32j + 31 : 32j] (R44). -/
def wordOf (x : U256) (j : Fin 8) : Word32 := x.extractLsb' (32 * j.val) 32

/-- A 256-bit value with word `j` replaced; the other seven words keep their contents (R47). -/
def withWord (x : U256) (j : Fin 8) (d : Word32) : U256 :=
  (x &&& ~~~(0xFFFFFFFF#256 <<< (32 * j.val))) ||| (d.setWidth 256 <<< (32 * j.val))

/-- The word a read returns once BUSY = 0 (R41, R43). -/
def State.readWord (s : State) : WinReg → Word32
  | .id => Config.idWord
  | .ctrl => s.ctrlWord
  | .status => s.status.word
  | .cmd => s.cmd
  | .vtagLo => s.vtagLo
  | .vtagHi => s.vtagHi
  | .ptag => s.ptag
  | .attempts => s.attemptsWord
  | .slots => s.slots
  | .params => s.paramsWord
  | .vword i j => wordOf (s.vreg i).value j
  | .reserved => 0

/-- The registers whose reads are draws while BUSY = 1 (R196). -/
def WinReg.hazard : WinReg → Bool
  | .id => false
  | .ctrl => false
  | .status => false
  | .cmd => false
  | .vtagLo => true
  | .vtagHi => true
  | .ptag => true
  | .attempts => true
  | .slots => true
  | .params => false
  | .vword _ _ => true
  | .reserved => false

end Sys2Proof.Machine
end

