-- ==== Sys2Proof/Machine/Bus.lean ====
section
/-! DEFINITION. The moves of the agents (20_memory.md R51): the core's step (60_exceptions.md R162), the two
resets (70_reset_and_hazards.md R190 to R193), host reads and writes (20_memory.md R42 to R50,
70_reset_and_hazards.md R195, R196), and which move comes next. -/

namespace Sys2Proof.Machine

/-! ### The core -/

/-- The core's one step (R162): decode CMD and run the command, or complete with IllegalCommand. -/
def coreStep (s : State) : Out :=
  match decode s.cmd with
  | some i => exec i s
  | none => finish s (.error .illegalCommand)

/-! ### Reset -/

/-- How many draws the pending command takes in all. -/
def State.pendingDraws (s : State) : Nat :=
  match coreStep s with
  | .next t => t.rng.drawn - s.rng.drawn
  | .fault _ => 0
  | .refused _ => 0

/-- How many draws a command abandoned by reset had already taken: any number up to what it takes in all
(70_reset_and_hazards.md R192). -/
def State.abandonedDraws (s : State) : Nat :=
  if s.pending then min (Config.abandonedDraws s.freeCount) s.pendingDraws else 0

/-- The effect of either reset on the block (R191): every piece of its state to R34's value. A running command
is abandoned, the draws it has taken are lost (R192), and what lies outside the block stays. -/
def State.resetBlock (s : State) : State :=
  { State.reset with
    params := s.params
    rstN := s.rstN
    rng := s.rng.skip s.abandonedDraws
    agenda := s.agenda
    reads := s.reads
    freeCount := if s.pending then s.freeCount + 1 else s.freeCount
    errLog := s.errLog
    ovrLog := s.ovrLog }

/-- A level on the `rst_n` pin (R190): low puts the block into reset, high lets it leave. -/
def State.driveRstN (s : State) (level : Bool) : State :=
  if level then { s with rstN := true } else { s.resetBlock with rstN := false }

/-! ### Host reads -/

/-- A read that returned `w` to the host (R202). -/
def State.noteRead (s : State) (w : Word32) : State := { s with reads := s.reads ++ [w] }

/-- `BusRead` of `width` bits at `off`: 0 for an access that is not defined (R42), a draw for the registers of
R196 while BUSY = 1, and the exact word otherwise. No read changes the block (R45). -/
def State.hostRead (s : State) (width : Nat) (off : Offset) : State :=
  if definedAccess width off = false then s.noteRead 0
  else if (s.pending && (winReg off).hazard) = true then
    { s.noteRead (Config.busyRead s.freeCount) with freeCount := s.freeCount + 1 }
  else s.noteRead (s.readWord (winReg off))

/-! ### Host writes -/

/-- A write dropped because BUSY = 1 (R195): OVR is set, and the ghost log notes it. -/
def State.overrun (s : State) (off : Offset) (d : Word32) : State :=
  { s with status := { s.status with ovr := true }, ovrLog := s.ovrLog ++ [(off, d)] }

/-- A host write of word `j` of V[i] (R47): the other words stay, and the tag becomes INT. -/
def State.writeVWord (s : State) (i : VIdx) (j : Fin 8) (d : Word32) : State :=
  s.setV i ⟨withWord (s.vreg i).value j d, .int⟩

/-- An accepted CMD write (R48): the word is stored, DONE, ERR, ERRCODE and RES are cleared, BUSY = pending = 1. -/
def State.acceptCmd (s : State) (w : Word32) : State :=
  { s with
    cmd := w
    status := { s.status with busy := true, done := false, err := false, res := false, errcode := 0 } }

/-- A write of STATUS (R49): DONE and OVR are cleared by writing 1. -/
def State.writeStatus (s : State) (d : Word32) : State :=
  { s with
    status := { s.status with done := s.status.done && !d.getLsbD 1, ovr := s.status.ovr && !d.getLsbD 4 } }

/-- A write of CTRL (R50): IE, then the soft reset. -/
def State.writeCtrl (s : State) (d : Word32) : State :=
  let s' := { s with ie := d.getLsbD 0 }
  if d.getLsbD 1 then s'.resetBlock else s'

/-- A defined write to a register of the window (R43, R47 to R50). -/
def State.writeReg (s : State) (off : Offset) (d : Word32) : WinReg → State
  | .id => s
  | .ctrl => s.writeCtrl d
  | .status => s.writeStatus d
  | .cmd => if s.pending then s.overrun off d else s.acceptCmd d
  | .vtagLo => s
  | .vtagHi => s
  | .ptag => s
  | .attempts => s
  | .slots => s
  | .params => s
  | .vword i j => if s.pending then s.overrun off d else s.writeVWord i j d
  | .reserved => s

/-- `BusWrite` of `width` bits at `off`: ignored where the access is not defined (R42), and while `rst_n` holds
the block in reset (R190; assumption 5). DEDUCED. -/
def State.hostWrite (s : State) (width : Nat) (off : Offset) (d : Word32) : State :=
  if definedAccess width off = false ∨ s.rstN = false then s else s.writeReg off d (winReg off)

/-! ### Bus addresses -/

/-- A host access as the platform's bus carries it, at a bus address (R40). -/
inductive BusAccess where
  | read (width addr : Nat)
  | write (width addr : Nat) (d : Word32)
  deriving DecidableEq, Repr

/-- The host move that an access of the bus is at the block's port (R40, 70_reset_and_hazards.md R205); `none` for an
access outside the window, which never reaches the block (assumption 8). -/
def State.portMove (s : State) : BusAccess → Option Event
  | .read width addr => (s.windowOffset addr).map fun off => .read width off
  | .write width addr d => (s.windowOffset addr).map fun off => .write width off d

/-! ### Which move comes next -/

/-- The core's move: enabled only while a command is pending (R51); otherwise nothing happens. -/
def coreMove (s : State) : Out := if s.pending then coreStep s else .next s

/-- The next move of the agents. The agenda holds the interleaving (R51); when it is empty the core completes
the pending command (R197), and an idle block stays as it is. -/
def nextMove (s : State) : Out :=
  match s.agenda with
  | [] => coreMove s
  | .core :: rest => coreMove { s with agenda := rest }
  | .read width off :: rest => .next ({ s with agenda := rest }.hostRead width off)
  | .write width off d :: rest => .next ({ s with agenda := rest }.hostWrite width off d)
  | .rstN level :: rest => .next ({ s with agenda := rest }.driveRstN level)

/-- `s` with the command word `w` accepted and the core's step as the next move. -/
def State.launchWord (s : State) (w : Word32) : State :=
  { s.acceptCmd w with rstN := true, agenda := .core :: s.agenda }

end Sys2Proof.Machine
end

