-- ==== Sys2Proof/Machine/Step.lean ====
section
/-! DEFINITION. One step of the machine: the next move of its agents (20_memory.md R51). -/

namespace Sys2Proof.Machine

/-- One step. Each bus access, each pin level and each command is one step. -/
def step (s : State) : Host.Outcome State Fault Refusal := Sys2Proof.Machine.nextMove s

/-- `s` with the command of `nbits` bits `w` accepted in CMD, so that the next step runs it (20_memory.md R48;
assumption 3). A command is 32 bits long, so bits above `nbits` are those of `w`. -/
def State.withFetchWord (s : State) (_nbits w : Nat) : State := s.launchWord (BitVec.ofNat 32 w)

end Sys2Proof.Machine
end

