-- ==== Sys2Proof/Safety.lean ====
section
/-! DEFINITION. What counts as a safe run, in the terms the claims use: how a command completes, the operands and
the errors the spec lists for a command, the opcode table, the clean entry premise (70_reset_and_hazards.md R194),
the end of a run (R202), the invariants of 10_state.md R35, and the group law, double-and-add and the nonces of
SIGN as relations in plain modular arithmetic, written from 42_point.md R124, R128 and 43_ecdsa.md R147. -/

namespace Sys2Proof.Safety

open Sys2Proof.Machine

/-! ### How a command completes -/

/-- `t` reports success with the boolean result `res` (R162): DONE = 1, BUSY = 0, ERR = 0, ERRCODE = 0. -/
abbrev Succeeded (t : State) (res : Bool) : Prop :=
  t.status.busy = false ∧ t.status.done = true ∧ t.status.err = false ∧ t.status.errcode = 0 ∧ t.status.res = res

/-- `t` reports the error `e` (R162): DONE = 1, BUSY = 0, ERR = 1, ERRCODE = code(e), RES = 0. -/
abbrev Failed (t : State) (e : Err) : Prop :=
  t.status.busy = false ∧ t.status.done = true ∧ t.status.err = true ∧ t.status.errcode = e.code ∧ t.status.res = false

/-- Command `i` completes in `s` with the error `e`. -/
abbrev Raises (i : Instr) (s : State) (e : Err) : Prop := ∃ t, exec i s = .next t ∧ Failed t e

/-- `V[i]` holds an operand. -/
abbrev Written (s : State) (i : VIdx) : Prop := (s.vreg i).tag ≠ .unwritten

/-- `V[i]` and `V[j]` hold field elements of slots with the same modulus (41_field.md R100). -/
abbrev SameField (s : State) (i j : VIdx) : Prop :=
  ∃ f g, (s.vreg i).tag = .fe f ∧ (s.vreg j).tag = .fe g ∧ s.modOf f = s.modOf g

/-! ### What the spec lists for each command -/

/-- The value registers a command reads (30_encoding.md R66, and the rule of each command). -/
def valueSources : Instr → List VIdx
  | .nop => []
  | .mov _ rs1 => [rs1]
  | .pmov _ _ => []
  | .setmod _ rs1 => [rs1]
  | .setcrv _ rs1 rs2 => [rs1, rs2]
  | .fmk _ rs1 _ => [rs1]
  | .fadd _ rs1 rs2 => [rs1, rs2]
  | .fsub _ rs1 rs2 => [rs1, rs2]
  | .fmul _ rs1 rs2 => [rs1, rs2]
  | .mmul _ rs1 rs2 => [rs1, rs2]
  | .fpow _ rs1 rs2 _ => [rs1, rs2]
  | .fdiv _ rs1 rs2 => [rs1, rs2]
  | .feq rs1 rs2 => [rs1, rs2]
  | .pinf _ _ => []
  | .pmk _ rs1 rs2 _ => [rs1, rs2]
  | .peq _ _ => []
  | .padd _ _ _ => []
  | .pdbl _ _ => []
  | .psmul _ _ rs2 => [rs2]
  | .pgen _ => []
  | .pgetx _ _ => []
  | .pgety _ _ => []
  | .pisinf _ => []
  | .minv _ rs1 rs2 => [rs1, rs2]
  | .keygen _ => []
  | .pubkey _ rs1 => [rs1]
  | .sign _ rs1 rs2 _ => [rs1, rs2]
  | .verify _ rs1 rs2 rs3 => [rs1, rs2, rs3]

/-- The point registers a command reads (30_encoding.md R66, and the rule of each command). -/
def pointSources : Instr → List PIdx
  | .nop => []
  | .mov _ _ => []
  | .pmov _ rs1 => [rs1]
  | .setmod _ _ => []
  | .setcrv _ _ _ => []
  | .fmk _ _ _ => []
  | .fadd _ _ _ => []
  | .fsub _ _ _ => []
  | .fmul _ _ _ => []
  | .mmul _ _ _ => []
  | .fpow _ _ _ _ => []
  | .fdiv _ _ _ => []
  | .feq _ _ => []
  | .pinf _ _ => []
  | .pmk _ _ _ _ => []
  | .peq rs1 rs2 => [rs1, rs2]
  | .padd _ rs1 rs2 => [rs1, rs2]
  | .pdbl _ rs1 => [rs1]
  | .psmul _ rs1 _ => [rs1]
  | .pgen _ => []
  | .pgetx _ rs1 => [rs1]
  | .pgety _ rs1 => [rs1]
  | .pisinf rs1 => [rs1]
  | .minv _ _ _ => []
  | .keygen _ => []
  | .pubkey _ _ => []
  | .sign _ _ _ _ => []
  | .verify rd _ _ _ => [rd]

/-- The value registers a command writes, SETMOD's invalidation apart. -/
def valueDests : Instr → List VIdx
  | .nop => []
  | .mov rd _ => [rd]
  | .pmov _ _ => []
  | .setmod _ _ => []
  | .setcrv _ _ _ => []
  | .fmk rd _ _ => [rd]
  | .fadd rd _ _ => [rd]
  | .fsub rd _ _ => [rd]
  | .fmul rd _ _ => [rd]
  | .mmul rd _ _ => [rd]
  | .fpow rd _ _ _ => [rd]
  | .fdiv rd _ _ => [rd]
  | .feq _ _ => []
  | .pinf _ _ => []
  | .pmk _ _ _ _ => []
  | .peq _ _ => []
  | .padd _ _ _ => []
  | .pdbl _ _ => []
  | .psmul _ _ _ => []
  | .pgen _ => []
  | .pgetx rd _ => [rd]
  | .pgety rd _ => [rd]
  | .pisinf _ => []
  | .minv rd _ _ => [rd]
  | .keygen rd => [rd]
  | .pubkey _ _ => []
  | .sign rd _ _ rs3 => [rd, rs3]
  | .verify _ _ _ _ => []

/-- The point registers a command writes, the invalidation by SETMOD and SETCRV apart. -/
def pointDests : Instr → List PIdx
  | .nop => []
  | .mov _ _ => []
  | .pmov rd _ => [rd]
  | .setmod _ _ => []
  | .setcrv _ _ _ => []
  | .fmk _ _ _ => []
  | .fadd _ _ _ => []
  | .fsub _ _ _ => []
  | .fmul _ _ _ => []
  | .mmul _ _ _ => []
  | .fpow _ _ _ _ => []
  | .fdiv _ _ _ => []
  | .feq _ _ => []
  | .pinf rd _ => [rd]
  | .pmk rd _ _ _ => [rd]
  | .peq _ _ => []
  | .padd rd _ _ => [rd]
  | .pdbl rd _ => [rd]
  | .psmul rd _ _ => [rd]
  | .pgen rd => [rd]
  | .pgetx _ _ => []
  | .pgety _ _ => []
  | .pisinf _ => []
  | .minv _ _ _ => []
  | .keygen _ => []
  | .pubkey rd _ => [rd]
  | .sign _ _ _ _ => []
  | .verify _ _ _ _ => []

/-- The errors a well-formed command can report: the column "raised by" of 60_exceptions.md R160 and the "Errors"
line of the command's rule. -/
def listedErrors : Instr → List Err
  | .nop => []
  | .mov _ _ => [.unwrittenOperand]
  | .pmov _ _ => [.unwrittenOperand]
  | .setmod _ _ => [.unwrittenOperand, .invalidModulus]
  | .setcrv _ _ _ => [.unwrittenOperand, .fieldMismatch]
  | .fmk _ _ _ => [.unwrittenOperand, .unconfiguredSlot, .outOfRange]
  | .fadd _ _ _ => [.unwrittenOperand, .fieldMismatch]
  | .fsub _ _ _ => [.unwrittenOperand, .fieldMismatch]
  | .fmul _ _ _ => [.unwrittenOperand, .fieldMismatch]
  | .mmul _ _ _ => [.unwrittenOperand, .fieldMismatch, .invalidModulus]
  | .fpow _ _ _ _ => [.unwrittenOperand, .fieldMismatch]
  | .fdiv _ _ _ => [.unwrittenOperand, .fieldMismatch, .divisionByZero]
  | .feq _ _ => [.unwrittenOperand, .fieldMismatch]
  | .pinf _ _ => [.unconfiguredSlot]
  | .pmk _ _ _ _ => [.unwrittenOperand, .unconfiguredSlot, .fieldMismatch, .pointNotOnCurve]
  | .peq _ _ => [.unwrittenOperand]
  | .padd _ _ _ => [.unwrittenOperand, .curveMismatch, .divisionByZero]
  | .pdbl _ _ => [.unwrittenOperand, .divisionByZero]
  | .psmul _ _ _ => [.unwrittenOperand, .divisionByZero]
  | .pgen _ => []
  | .pgetx _ _ => [.unwrittenOperand, .infinityCoordinate]
  | .pgety _ _ => [.unwrittenOperand, .infinityCoordinate]
  | .pisinf _ => [.unwrittenOperand]
  | .minv _ _ _ => [.unwrittenOperand, .notInvertible]
  | .keygen _ => []
  | .pubkey _ _ => [.unwrittenOperand, .outOfRange]
  | .sign _ _ _ _ => [.unwrittenOperand, .outOfRange, .nonceExhausted]
  | .verify _ _ _ _ => [.unwrittenOperand, .curveMismatch]

/-! ### The opcode table (30_encoding.md R66, R70) -/

/-- One row: match, mask, and the command with the operands of a word that matches. -/
structure OpcodeRow where
  code : Word32
  mask : Word32
  command : Word32 → Instr

/-- The four bits of a word from bit `lo`, as a value register index. -/
def vAt (w : Word32) (lo : Nat) : VIdx := Fin.ofNat 16 (w.extractLsb' lo 4).toNat

/-- The three bits of a word from bit `lo`, as a point register index (R61). -/
def pAt (w : Word32) (lo : Nat) : PIdx := Fin.ofNat 8 (w.extractLsb' lo 3).toNat

/-- Bits [25:24] of a word, as a slot (R62). -/
def slotAt (w : Word32) : Fin 4 := Fin.ofNat 4 (w.extractLsb' 24 2).toNat

/-- R66, row by row. -/
def opcodeTable : List OpcodeRow := [
  ⟨0x00000000, 0xFFFFFFFF, fun _ => .nop⟩,
  ⟨0x00000001, 0xFFFF00FF, fun w => .mov (vAt w 8) (vAt w 12)⟩,
  ⟨0x00000002, 0xFFFF88FF, fun w => .pmov (pAt w 8) (pAt w 12)⟩,
  ⟨0x02000003, 0xFEFF0FFF, fun w => .setmod (slotAt w) (vAt w 12)⟩,
  ⟨0x00000004, 0xFCF00FFF, fun w => .setcrv (slotAt w) (vAt w 12) (vAt w 16)⟩,
  ⟨0x00000010, 0xFCFF00FF, fun w => .fmk (vAt w 8) (vAt w 12) (slotAt w)⟩,
  ⟨0x00000011, 0xFFF000FF, fun w => .fadd (vAt w 8) (vAt w 12) (vAt w 16)⟩,
  ⟨0x00000012, 0xFFF000FF, fun w => .fsub (vAt w 8) (vAt w 12) (vAt w 16)⟩,
  ⟨0x00000013, 0xFFF000FF, fun w => .fmul (vAt w 8) (vAt w 12) (vAt w 16)⟩,
  ⟨0x00000014, 0xFFF000FF, fun w => .mmul (vAt w 8) (vAt w 12) (vAt w 16)⟩,
  ⟨0x00000015, 0xFBF000FF, fun w => .fpow (vAt w 8) (vAt w 12) (vAt w 16) (w.getLsbD 26)⟩,
  ⟨0x00000016, 0xFFF000FF, fun w => .fdiv (vAt w 8) (vAt w 12) (vAt w 16)⟩,
  ⟨0x00000017, 0xFFF00FFF, fun w => .feq (vAt w 12) (vAt w 16)⟩,
  ⟨0x00000020, 0xFCFFF8FF, fun w => .pinf (pAt w 8) (slotAt w)⟩,
  ⟨0x00000021, 0xFCF008FF, fun w => .pmk (pAt w 8) (vAt w 12) (vAt w 16) (slotAt w)⟩,
  ⟨0x00000022, 0xFFF88FFF, fun w => .peq (pAt w 12) (pAt w 16)⟩,
  ⟨0x00000023, 0xFFF888FF, fun w => .padd (pAt w 8) (pAt w 12) (pAt w 16)⟩,
  ⟨0x00000024, 0xFFFF88FF, fun w => .pdbl (pAt w 8) (pAt w 12)⟩,
  ⟨0x00000025, 0xFFF088FF, fun w => .psmul (pAt w 8) (pAt w 12) (vAt w 16)⟩,
  ⟨0x00000026, 0xFFFFF8FF, fun w => .pgen (pAt w 8)⟩,
  ⟨0x00000027, 0xFFFF80FF, fun w => .pgetx (vAt w 8) (pAt w 12)⟩,
  ⟨0x00000028, 0xFFFF80FF, fun w => .pgety (vAt w 8) (pAt w 12)⟩,
  ⟨0x00000029, 0xFFFF8FFF, fun w => .pisinf (pAt w 12)⟩,
  ⟨0x00000030, 0xFFF000FF, fun w => .minv (vAt w 8) (vAt w 12) (vAt w 16)⟩,
  ⟨0x00000031, 0xFFFFF0FF, fun w => .keygen (vAt w 8)⟩,
  ⟨0x00000032, 0xFFFF08FF, fun w => .pubkey (pAt w 8) (vAt w 12)⟩,
  ⟨0x00000033, 0xFF0000FF, fun w => .sign (vAt w 8) (vAt w 12) (vAt w 16) (vAt w 20)⟩,
  ⟨0x00000034, 0xFF0008FF, fun w => .verify (pAt w 8) (vAt w 12) (vAt w 16) (vAt w 20)⟩]

/-- `Decode` of R70: the first row that matches and whose constraints (R67) hold. -/
def tableDecode (w : Word32) : Option Instr :=
  (opcodeTable.find? fun row => (w &&& row.mask) == row.code && wellFormedB (row.command w)).map fun row => row.command w

/-! ### Runs -/

/-- The clean-entry premise **Clean** of R194. -/
abbrev Clean (s : State) : Prop :=
  s.status.busy = false ∧ s.status.done = false ∧ s.status.err = false ∧ s.status.errcode = 0 ∧ s.status.res = false
    ∧ s.status.ovr = false

/-- A move of the host: a bus access (20_memory.md R51). -/
def isAccess : Event → Bool
  | .core => false
  | .read _ _ => true
  | .write _ _ _ => true
  | .rstN _ => false

/-- The end of a run (R202): no access of the host is left and no command is pending. R202 never speaks of the pin: that
levels of `rst_n` still to come do not keep a run from having ended is the model's DESIGN CHOICE (assumption 17), and
so is that left-over moves of the idle core do not. -/
abbrev Ended (s : State) : Prop := (s.agenda.all fun e => !isAccess e) = true ∧ s.pending = false

/-- No command of the run completed with an error and no write was dropped: the premise that
93_implementation_defined.md §2 recommends for claims about a host program. -/
abbrev NothingLogged (s : State) : Prop := s.errLog = [] ∧ s.ovrLog = []

/-- The core's step is the next move of the agents, and a command awaits it (20_memory.md R51). -/
abbrev CoreNext (s : State) (rest : List Event) : Prop :=
  s.status.busy = true ∧ (s.agenda = .core :: rest ∨ s.agenda = [] ∧ rest = [])

/-! ### Invariants -/

/-- The parameters lie in the ranges of 00_scope.md R5. BASE has none but its alignment, which `Params.base` has by its
form. -/
abbrev ParamsLegal (s : State) : Prop :=
  2 ≤ s.params.primeCheckBits ∧ s.params.primeCheckBits ≤ 256 ∧ 1 ≤ s.params.nonceMaxAttempts
    ∧ s.params.nonceMaxAttempts ≤ 65535

/-- R35, items 1, 2 and 4, with the coordinate bounds of item 3: every reference a register makes is to a
valid slot, and every value is below its modulus. -/
structure RegistersInv (s : State) : Prop where
  /-- A valid slot's modulus is at least 2 (40_control.md R87). -/
  modulus : ∀ f, (s.fieldSlot f).valid = true → 2 ≤ s.modOf f
  /-- R35.1: an FE(f) register has MOD[f] valid and its value below the modulus. -/
  element : ∀ i f, (s.vreg i).tag = .fe f → (s.fieldSlot f).valid = true ∧ (s.vreg i).value.toNat < s.modOf f
  /-- R35.2: a register's point lies on a valid curve slot. -/
  point : ∀ i q, s.preg i = .pt q → (s.curveSlot q.curve).valid = true
  /-- R35.3, the bounds: the coordinates are below the curve's modulus. -/
  coords : ∀ i c x y, s.preg i = .pt (.aff c x y) → x.toNat < (s.curveKey c).m ∧ y.toNat < (s.curveKey c).m
  /-- R35.4: a valid curve slot has a valid field slot and coefficients below its modulus. -/
  curve : ∀ c, (s.curveSlot c).valid = true →
    (s.fieldSlot (s.curveSlot c).f).valid = true ∧ (s.curveKey c).a < (s.curveKey c).m ∧ (s.curveKey c).b < (s.curveKey c).m

/-- Every valid slot's modulus is prime (R15; 40_control.md R83). -/
def FieldsPrime (s : State) : Prop := ∀ f, (s.fieldSlot f).valid = true → (s.modOf f).Prime

/-- The coordinates satisfy the equation of curve slot `c` (42_point.md R120). -/
abbrev SatisfiesCurve (s : State) (c : CIdx) (x y : Nat) : Prop :=
  y ^ 2 % (s.curveKey c).m = (x ^ 3 + (s.curveKey c).a * x + (s.curveKey c).b) % (s.curveKey c).m

/-- R35.3, the equation: every affine point in a register satisfies its curve's equation. -/
def PointsOnCurve (s : State) : Prop :=
  ∀ i c x y, s.preg i = .pt (.aff c x y) → SatisfiesCurve s c x.toNat y.toNat

/-- R35.6 and the STATUS combinations that the rules exclude: ERR = 0 has code 0, the codes are those of
60_exceptions.md R160, and a running command has DONE, ERR and RES clear (20_memory.md R48). -/
structure StatusInv (s : State) : Prop where
  noErrorNoCode : s.status.err = false → s.status.errcode = 0
  codeKnown : s.status.errcode.toNat ≤ 0xC
  errorNoResult : s.status.err = true → s.status.res = false
  busyCleared : s.status.busy = true → s.status.done = false ∧ s.status.err = false ∧ s.status.res = false

/-- The block's state is that of R34. -/
abbrev AtReset (s : State) : Prop :=
  s.v = State.reset.v ∧ s.p = State.reset.p ∧ s.f2 = State.reset.f2 ∧ s.f3 = State.reset.f3 ∧ s.c1 = State.reset.c1
    ∧ s.c2 = State.reset.c2 ∧ s.c3 = State.reset.c3 ∧ s.ie = State.reset.ie ∧ s.status = State.reset.status
    ∧ s.cmd = State.reset.cmd ∧ s.attempts = State.reset.attempts

/-- While the pin is low the block is in reset (70_reset_and_hazards.md R190). -/
def PinInv (s : State) : Prop := s.rstN = false → AtReset s

/-! ### The group law and double-and-add as relations -/

/-- `l` is the slope num / den modulo m: den is not a multiple of m, and l·den ≡ num. -/
abbrev SlopeIs (m : Nat) (num den : Int) (l : Nat) : Prop := ¬ (m : Int) ∣ den ∧ l < m ∧ (m : Int) ∣ l * den - num

/-- x3 = l² − x1 − x2 and y3 = l·(x1 − x3) − y1, both modulo m and in [0, m). -/
abbrev ThirdPointIs (m l : Nat) (x1 y1 x2 x3 y3 : U256) : Prop :=
  x3.toNat < m ∧ y3.toNat < m ∧ (m : Int) ∣ (l : Int) * l - x1.toNat - x2.toNat - x3.toNat
    ∧ (m : Int) ∣ (l : Int) * ((x1.toNat : Int) - x3.toNat) - y1.toNat - y3.toNat

/-- The five cases of `PointAdd` (42_point.md R124), for points of compatible curves. -/
inductive GroupLaw (s : State) : Point → Point → Point → Prop where
  | infLeft (c : CIdx) (B : Point) : GroupLaw s (.inf c) B B
  | infRight (c d : CIdx) (x y : U256) : GroupLaw s (.aff c x y) (.inf d) (.aff c x y)
  | verticalChord (c d : CIdx) (x y1 y2 : U256) : y1 ≠ y2 → GroupLaw s (.aff c x y1) (.aff d x y2) (.inf c)
  | verticalTangent (c d : CIdx) (x : U256) : GroupLaw s (.aff c x 0) (.aff d x 0) (.inf c)
  | tangent (c d : CIdx) (x y x3 y3 : U256) (l : Nat) : y ≠ 0 →
      SlopeIs (s.curveKey c).m (3 * (x.toNat : Int) * x.toNat + (s.curveKey c).a) (2 * (y.toNat : Int)) l →
      ThirdPointIs (s.curveKey c).m l x y x x3 y3 → GroupLaw s (.aff c x y) (.aff d x y) (.aff c x3 y3)
  | secant (c d : CIdx) (x1 y1 x2 y2 x3 y3 : U256) (l : Nat) : x1 ≠ x2 →
      SlopeIs (s.curveKey c).m ((y2.toNat : Int) - y1.toNat) ((x2.toNat : Int) - x1.toNat) l →
      ThirdPointIs (s.curveKey c).m l x1 y1 x2 x3 y3 → GroupLaw s (.aff c x1 y1) (.aff d x2 y2) (.aff c x3 y3)

/-- `PointAdd(A, B)` of R124 gives `q`. -/
abbrev PointAddIs (s : State) (A B q : Point) : Prop := s.CurveCompatible A.curve B.curve ∧ GroupLaw s A B q

/-- Doubling this point raises DivisionByZero: an affine point with y ≠ 0 over GF(2) (R124; 90_conflicts.md C4). -/
def DoublingFails (s : State) : Point → Prop
  | .inf _ => False
  | .aff c _ y => (s.curveKey c).m = 2 ∧ y ≠ 0

/-- The `while` loop of `ScalarMul` (42_point.md R128), started with `k`, `result` and `current`, ends with `q`. -/
inductive DoubleAndAdd (s : State) : Nat → Point → Point → Point → Prop where
  | done (result current : Point) : DoubleAndAdd s 0 result current result
  | odd (k : Nat) (result current result' current' q : Point) :
      0 < k → k % 2 = 1 → PointAddIs s result current result' → PointAddIs s current current current' →
      DoubleAndAdd s (k / 2) result' current' q → DoubleAndAdd s k result current q
  | even (k : Nat) (result current current' q : Point) :
      0 < k → k % 2 = 0 → PointAddIs s current current current' →
      DoubleAndAdd s (k / 2) result current' q → DoubleAndAdd s k result current q

/-- `ScalarMul(pt, k)` of R128 ends with `q`: the scalar is reduced modulo N on C0 only. -/
abbrev ScalarMulIs (s : State) (pt : Point) (k : Nat) (q : Point) : Prop :=
  DoubleAndAdd s (if pt.curve = 0 then k % Config.order.toNat else k) (.inf pt.curve) pt q

/-! ### Nonces and signatures -/

/-- The nonce of the `n`-th further draw (43_ecdsa.md R142, R147), counted from 0. -/
def nonceAt (s : State) (n : Nat) : Nat := (s.rng.skip n).draw.1 % (Config.order.toNat - 1) + 1

/-- The nonce `k` gives r and t for the hash `z` and the key `d` (43_ecdsa.md R147): R = k·G is affine,
r = x(R) mod N, and t is the residue with t·k = z + r·d modulo N. -/
def NonceGives (s : State) (z d k r t : Nat) : Prop :=
  ∃ x y, ScalarMulIs s generator k (.aff 0 x y) ∧ r = x.toNat % Config.order.toNat ∧ t < Config.order.toNat
    ∧ t * k % Config.order.toNat = (z + r * d) % Config.order.toNat

/-- The nonce `k` is degenerate: ProtocolRetry (43_ecdsa.md R146, R147). -/
def NonceDegenerate (s : State) (z d k : Nat) : Prop := ∃ r t, NonceGives s z d k r t ∧ (r = 0 ∨ t = 0)

/-- Steps 3 to 7 of VERIFY (43_ecdsa.md R148) accept: with w·t = 1, u = z·w and v = r·w modulo N, the point
u·G + v·Q is affine and its x coordinate modulo N is r. -/
def VerifyAccepts (s : State) (q : Point) (z r t : Nat) : Prop :=
  ∃ w c x y, ∃ A B : Point, w * t % Config.order.toNat = 1
    ∧ ScalarMulIs s generator (z * w % Config.order.toNat) A ∧ ScalarMulIs s q (r * w % Config.order.toNat) B
    ∧ PointAddIs s A B (.aff c x y) ∧ x.toNat % Config.order.toNat = r

end Sys2Proof.Safety
end

