-- ==== Sys2Proof/Certificates/Slice0/Obligations.lean ====
section
/-! DEFINITION. The statements for the provers, from the numbered rules of spec/. -/

open Sys2Proof Sys2Proof.Machine Sys2Proof.Safety

/-! ### Encoding (30_encoding.md) -/

/-- Decoding the word of a well-formed command gives it back, for every operand of every command (R66, R70, R71). -/
def Obligations.DecodeOfEncode : Prop := ∀ i : Instr, WellFormed i → decode (encode i) = some i

/-- A word that decodes satisfies R67 and is the only word of its command (R64, R66). -/
def Obligations.DecodedWordIsItsEncoding : Prop :=
  ∀ (w : Word32) (i : Instr), decode w = some i → WellFormed i ∧ encode i = w

/-- R70: the decoder is the search of the opcode table by match, mask and constraints. No two rows match the same word,
which the spec derives from R66. -/
def Obligations.DecodeFollowsOpcodeTable : Prop :=
  (∀ w : Word32, decode w = tableDecode w)
    ∧ opcodeTable.Pairwise fun a b => ∀ w : Word32, ¬ (w &&& a.mask = a.code ∧ w &&& b.mask = b.code)

/-- Words of 95_test_vectors.md §0, §3 and §7: three broken down field by field, and words that are illegal by a
reserved bit, a point field with bit 3 set, a hardwired slot and r and s in one register. -/
def Obligations.SampleWordsDecode : Prop :=
  decode 0x00651134 = some (.verify 1 1 5 6) ∧ decode 0x04021315 = some (.fpow 3 1 2 true)
    ∧ decode 0x01043021 = some (.pmk 0 3 4 1) ∧ decode 0x00002501 = some (.mov 5 2)
    ∧ decode 0x00050125 = some (.psmul 1 0 5) ∧ decode 0x02000003 = some (.setmod 2 0)
    ∧ decode 0x00000100 = none ∧ decode 0x00008302 = none ∧ decode 0x01000003 = none ∧ decode 0x00021004 = none
    ∧ decode 0x00521533 = none

/-! ### The command cycle (60_exceptions.md) -/

/-- When the core's step comes next and CMD decodes, the step is `exec` of the command, once the move is taken
from the agenda. There is nothing else around `exec`: the block has no program counter (10_state.md R29). -/
def Obligations.StepRunsDecodedCommand : Prop :=
  ∀ (s : State) (i : Instr) (rest : List Event), CoreNext s rest → decode s.cmd = some i →
    step s = exec i { s with agenda := rest }

/-- R68: a word that does not decode completes with IllegalCommand and changes nothing else. (The ghost log is the
model's own; assumption 7.) -/
def Obligations.IllegalWordCompletes : Prop :=
  ∀ (s : State) (rest : List Event), CoreNext s rest → decode s.cmd = none →
    ∃ t, step s = .next t ∧ Failed t .illegalCommand ∧ t.status.errcode = 0x9 ∧ t.status.ovr = s.status.ovr
      ∧ t = { s with agenda := rest, status := t.status, errLog := t.errLog }

/-- Every step gives a next state, and the core's step always completes the pending command (R162;
70_reset_and_hazards.md R197; every draw is answered, assumption 11). -/
def Obligations.StepAnswersAndCommandsEnd : Prop :=
  (∀ s, ∃ t, step s = .next t)
    ∧ ∀ (s : State) (rest : List Event), CoreNext s rest →
        ∃ t, step s = .next t ∧ t.status.busy = false ∧ t.status.done = true

/-- R162 and 10_state.md R30: every command completes, with success or with one of the errors, and leaves OVR, IE,
CMD and everything outside the block but the draws alone. Which RES a success reports is said of each command by its
own statement, and OnlyComparisonsSetResult says where it is 0. That KEYGEN and SIGN complete rests on every draw being
answered (assumption 11). The ghost log (assumption 7) notes an error and nothing else. -/
def Obligations.EveryCommandCompletes : Prop :=
  ∀ (i : Instr) (s : State), ∃ t, exec i s = .next t
    ∧ ((∃ b, Succeeded t b ∧ t.errLog = s.errLog) ∨ ∃ e, Failed t e ∧ t.errLog = s.errLog ++ [(s.cmd, e)])
    ∧ t.status.ovr = s.status.ovr ∧ t.ie = s.ie ∧ t.cmd = s.cmd ∧ t.params = s.params ∧ t.rstN = s.rstN
    ∧ t.agenda = s.agenda ∧ t.reads = s.reads ∧ t.freeCount = s.freeCount ∧ t.ovrLog = s.ovrLog

/-- R162, "Precise": an erring command leaves V, P, MOD and CRV as they were. -/
def Obligations.FailedCommandCommitsNothing : Prop :=
  ∀ (i : Instr) (s t : State), exec i s = .next t → t.status.err = true →
    t.v = s.v ∧ t.p = s.p ∧ (∀ f, t.fieldSlot f = s.fieldSlot f) ∧ ∀ c, t.curveSlot c = s.curveSlot c

/-- The frame of all 28 commands: a register that the command does not name as a destination keeps its contents, and
so does every slot that it does not load, apart from the invalidation by SETMOD (40_control.md R84) and SETCRV
(R86), which only ever turns a tag or a point to unwritten, and a curve slot to invalid. -/
def Obligations.CommandsWriteOnlyTheirDestinations : Prop :=
  ∀ (i : Instr) (s t : State), exec i s = .next t →
    (∀ j, j ∉ valueDests i → t.vreg j = s.vreg j
        ∨ ∃ f rs1, i = .setmod f rs1 ∧ (s.vreg j).tag = .fe f ∧ t.vreg j = ⟨(s.vreg j).value, .unwritten⟩)
    ∧ (∀ j, j ∉ pointDests i → t.preg j = s.preg j
        ∨ ∃ q, s.preg j = .pt q ∧ t.preg j = .unwritten
            ∧ ((∃ f rs1, i = .setmod f rs1 ∧ (s.curveSlot q.curve).valid = true ∧ (s.curveSlot q.curve).f = f)
              ∨ ∃ rs1 rs2, i = .setcrv q.curve rs1 rs2))
    ∧ (∀ f, (∀ rs1, i ≠ .setmod f rs1) → t.fieldSlot f = s.fieldSlot f)
    ∧ (∀ c, (∀ rs1 rs2, i ≠ .setcrv c rs1 rs2) → t.curveSlot c = s.curveSlot c
        ∨ ∃ f rs1, i = .setmod f rs1 ∧ (s.curveSlot c).valid = true ∧ (s.curveSlot c).f = f
            ∧ t.curveSlot c = { s.curveSlot c with valid := false })

/-- 10_state.md R25, R33 and 43_ecdsa.md R149.6: KEYGEN takes one draw, SIGN takes none or between 1 and
NONCE_MAX_ATTEMPTS and then leaves their number in ATTEMPTS, and every other command takes no draw and leaves
ATTEMPTS alone. -/
def Obligations.DrawsAndAttempts : Prop :=
  ∀ (i : Instr) (s t : State), ParamsLegal s → exec i s = .next t →
    match i with
    | .keygen _ => t.rng = s.rng.skip 1 ∧ t.attempts = s.attempts
    | .sign _ _ _ _ => (t.rng = s.rng ∧ t.attempts = s.attempts ∧ t.status.err = true)
        ∨ ∃ n, 1 ≤ n ∧ n ≤ s.params.nonceMaxAttempts ∧ t.rng = s.rng.skip n ∧ t.attempts.toNat = n
    | _ => t.rng = s.rng ∧ t.attempts = s.attempts

/-- 10_state.md R21: only FEQ, PEQ, PISINF and VERIFY can leave RES = 1, and only without error. -/
def Obligations.OnlyComparisonsSetResult : Prop :=
  ∀ (i : Instr) (s t : State), exec i s = .next t → t.status.res = true →
    t.status.err = false ∧ ((∃ a b, i = .feq a b) ∨ (∃ a b, i = .peq a b) ∨ (∃ a, i = .pisinf a)
      ∨ ∃ q z r u, i = .verify q z r u)

/-! ### Errors (60_exceptions.md R160, R163) -/

/-- R160 and R167: the error of a completed command is one that the table lists for it. So VERIFY raises nothing
past its operand checks, and NotInvertible comes from MINV only. -/
def Obligations.ErrorsAreThoseListed : Prop :=
  ∀ (i : Instr) (s t : State), RegistersInv s → WellFormed i → exec i s = .next t → t.status.err = true →
    ∃ e ∈ listedErrors i, t.status.errcode = e.code

/-- R163, class 2: a command with an unwritten source completes with UnwrittenOperand (0xA), before any other
check. -/
def Obligations.UnwrittenSourceRaises : Prop :=
  ∀ (i : Instr) (s : State), WellFormed i →
    ((∃ j ∈ valueSources i, ¬ Written s j) ∨ ∃ j ∈ pointSources i, s.preg j = .unwritten) →
    ∃ t, exec i s = .next t ∧ Failed t .unwrittenOperand ∧ t.status.errcode = 0xA

/-- R160, code 0xB: FMK, PINF and PMK of a slot with valid = 0, their sources written. -/
def Obligations.UnconfiguredSlotRaises : Prop :=
  (∀ (s : State) (rd rs1 : VIdx) (f : FIdx), Written s rs1 → (s.fieldSlot f).valid = false →
      ∃ t, exec (.fmk rd rs1 f) s = .next t ∧ Failed t .unconfiguredSlot ∧ t.status.errcode = 0xB)
  ∧ (∀ (s : State) (rd : PIdx) (c : CIdx), (s.curveSlot c).valid = false →
      ∃ t, exec (.pinf rd c) s = .next t ∧ Failed t .unconfiguredSlot)
  ∧ ∀ (s : State) (rd : PIdx) (rs1 rs2 : VIdx) (c : CIdx), Written s rs1 → Written s rs2 →
      (s.curveSlot c).valid = false → ∃ t, exec (.pmk rd rs1 rs2 c) s = .next t ∧ Failed t .unconfiguredSlot

/-- R160, code 0x4: a field operand that is an INT, or two of different moduli (41_field.md R100; 40_control.md R85;
42_point.md R122). FPOW checks its base only, and FEQ no moduli. -/
def Obligations.FieldMismatchRaises : Prop :=
  Err.fieldMismatch.code = 0x4
  ∧ (∀ (s : State) (rd rs1 rs2 : VIdx), Written s rs1 → Written s rs2 → ¬ SameField s rs1 rs2 →
      Raises (.fadd rd rs1 rs2) s .fieldMismatch ∧ Raises (.fsub rd rs1 rs2) s .fieldMismatch
        ∧ Raises (.fmul rd rs1 rs2) s .fieldMismatch ∧ Raises (.mmul rd rs1 rs2) s .fieldMismatch
        ∧ Raises (.fdiv rd rs1 rs2) s .fieldMismatch
        ∧ ∀ c : CIdx, c ≠ 0 → Raises (.setcrv c rs1 rs2) s .fieldMismatch)
  ∧ (∀ (s : State) (rd rs1 rs2 : VIdx) (neg : Bool), Written s rs2 → (s.vreg rs1).tag = .int →
      Raises (.fpow rd rs1 rs2 neg) s .fieldMismatch)
  ∧ (∀ (s : State) (rs1 rs2 : VIdx), Written s rs1 → Written s rs2 →
      (s.vreg rs1).tag = .int ∨ (s.vreg rs2).tag = .int → Raises (.feq rs1 rs2) s .fieldMismatch)
  ∧ ∀ (s : State) (rd : PIdx) (rs1 rs2 : VIdx) (c : CIdx), Written s rs1 → Written s rs2 →
      (s.curveSlot c).valid = true →
      ¬ (∃ f g, (s.vreg rs1).tag = .fe f ∧ (s.vreg rs2).tag = .fe g ∧ s.modOf f = (s.curveKey c).m
          ∧ s.modOf g = (s.curveKey c).m) →
      Raises (.pmk rd rs1 rs2 c) s .fieldMismatch

/-- R160, codes 0x2 and 0xC: FMK of a value not below the modulus, PUBKEY and SIGN with a key outside [1, N − 1]
(43_ecdsa.md R144), PGETX and PGETY of a point at infinity. -/
def Obligations.ValidationErrorsRaise : Prop :=
  (∀ (s : State) (rd rs1 : VIdx) (f : FIdx), Written s rs1 → (s.fieldSlot f).valid = true →
      s.modOf f ≤ (s.vreg rs1).value.toNat →
      ∃ t, exec (.fmk rd rs1 f) s = .next t ∧ Failed t .outOfRange ∧ t.status.errcode = 0x2)
  ∧ (∀ (s : State) (rd : PIdx) (rs1 : VIdx), Written s rs1 →
      ((s.vreg rs1).value = 0 ∨ Config.order ≤ (s.vreg rs1).value) → Raises (.pubkey rd rs1) s .outOfRange)
  ∧ (∀ (s : State) (rd rs1 rs2 rs3 : VIdx), rd ≠ rs3 → Written s rs1 → Written s rs2 →
      ((s.vreg rs2).value = 0 ∨ Config.order ≤ (s.vreg rs2).value) → Raises (.sign rd rs1 rs2 rs3) s .outOfRange)
  ∧ ∀ (s : State) (rd : VIdx) (rs1 : PIdx) (c : CIdx), s.preg rs1 = .pt (.inf c) →
      (∃ t, exec (.pgetx rd rs1) s = .next t ∧ Failed t .infinityCoordinate ∧ t.status.errcode = 0xC)
        ∧ Raises (.pgety rd rs1) s .infinityCoordinate

/-- R160, code 0x5: PADD of points on incompatible curves, one or both at infinity included (42_point.md R124), and
VERIFY of a key that is not on a curve with modulus p, a = 0 and b = 7 (43_ecdsa.md R148). -/
def Obligations.CurveMismatchRaises : Prop :=
  (∀ (s : State) (rd rs1 rs2 : PIdx) (A B : Point), s.preg rs1 = .pt A → s.preg rs2 = .pt B →
      ¬ s.CurveCompatible A.curve B.curve →
      ∃ t, exec (.padd rd rs1 rs2) s = .next t ∧ Failed t .curveMismatch ∧ t.status.errcode = 0x5)
  ∧ ∀ (s : State) (rd : PIdx) (rs1 rs2 rs3 : VIdx) (q : Point), s.preg rd = .pt q → Written s rs1 → Written s rs2 →
      Written s rs3 → s.curveKey q.curve ≠ ⟨Config.p.toNat, 0, 7⟩ → Raises (.verify rd rs1 rs2 rs3) s .curveMismatch

/-- 42_point.md R124, R126, R127, R129 and 90_conflicts.md C4: over GF(2), doubling an affine point with y ≠ 0 raises
DivisionByZero (0x7), in PADD of points with equal coordinates on compatible curves, in PDBL, and in PSMUL with any
scalar but 0. -/
def Obligations.DoublingOverTwoRaises : Prop :=
  ∀ (s : State) (rd rs1 : PIdx) (A : Point), s.preg rs1 = .pt A → DoublingFails s A →
    Raises (.pdbl rd rs1) s .divisionByZero
    ∧ (∀ rs2 B, s.preg rs2 = .pt B → s.CurveCompatible A.curve B.curve →
        (∃ c d x y, A = .aff c x y ∧ B = .aff d x y) →
        ∃ t, exec (.padd rd rs1 rs2) s = .next t ∧ Failed t .divisionByZero ∧ t.status.errcode = 0x7)
    ∧ ∀ rs2, Written s rs2 → (s.vreg rs2).value ≠ 0 → Raises (.psmul rd rs1 rs2) s .divisionByZero

/-! ### Control commands (40_control.md) -/

/-- R80, R81, R82: NOP succeeds and changes only STATUS; MOV copies value and tag; PMOV copies a point. -/
def Obligations.CopyResults : Prop :=
  (∀ s, ∃ t, exec .nop s = .next t ∧ Succeeded t false ∧ t = { s with status := t.status })
  ∧ (∀ (s : State) (rd rs1 : VIdx), Written s rs1 →
      ∃ t, exec (.mov rd rs1) s = .next t ∧ Succeeded t false ∧ t.vreg rd = s.vreg rs1)
  ∧ ∀ (s : State) (rd rs1 : PIdx) (q : Point), s.preg rs1 = .pt q →
      ∃ t, exec (.pmov rd rs1) s = .next t ∧ Succeeded t false ∧ t.preg rd = .pt q

/-- R83, R84, R86 and R87: SETMOD accepts the primes below 2^PRIME_CHECK_BITS, and only those. It then loads the
slot, makes every element of the slot's field unwritten with its bits kept, every valid curve over it invalid, and
every point of such a curve unwritten. Anything else is InvalidModulus. What else is kept, the other field slot among
it, EveryCommandCompletes, CommandsWriteOnlyTheirDestinations and DrawsAndAttempts say. -/
def Obligations.SetmodLoadsPrimes : Prop :=
  ∀ (s : State) (slot : FIdx) (rs1 : VIdx), 2 ≤ slot.val → Written s rs1 →
    (((s.vreg rs1).value.toNat < 2 ^ s.params.primeCheckBits ∧ 2 ≤ (s.vreg rs1).value.toNat
        ∧ ∀ d, 2 ≤ d → d < (s.vreg rs1).value.toNat → ¬ d ∣ (s.vreg rs1).value.toNat) →
      ∃ t, exec (.setmod slot rs1) s = .next t ∧ Succeeded t false ∧ t.fieldSlot slot = ⟨true, (s.vreg rs1).value⟩
        ∧ (∀ j, t.vreg j = if (s.vreg j).tag = .fe slot then ⟨(s.vreg j).value, .unwritten⟩ else s.vreg j)
        ∧ (∀ c, t.curveSlot c = if (s.curveSlot c).valid = true ∧ (s.curveSlot c).f = slot
            then { s.curveSlot c with valid := false } else s.curveSlot c)
        ∧ ∀ j, t.preg j = match s.preg j with
            | .unwritten => .unwritten
            | .pt q => if (s.curveSlot q.curve).valid = true ∧ (s.curveSlot q.curve).f = slot then .unwritten else .pt q)
    ∧ (¬ ((s.vreg rs1).value.toNat < 2 ^ s.params.primeCheckBits ∧ 2 ≤ (s.vreg rs1).value.toNat
        ∧ ∀ d, 2 ≤ d → d < (s.vreg rs1).value.toNat → ¬ d ∣ (s.vreg rs1).value.toNat) →
      ∃ t, exec (.setmod slot rs1) s = .next t ∧ Failed t .invalidModulus ∧ t.status.errcode = 0x1)

/-- R85 and R86: SETCRV loads the curve over the field of va, and makes every point of the slot unwritten. -/
def Obligations.SetcrvLoadsCurve : Prop :=
  ∀ (s : State) (slot : CIdx) (rs1 rs2 : VIdx) (f g : FIdx), slot ≠ 0 → (s.vreg rs1).tag = .fe f →
    (s.vreg rs2).tag = .fe g → s.modOf f = s.modOf g →
    ∃ t, exec (.setcrv slot rs1 rs2) s = .next t ∧ Succeeded t false
      ∧ t.curveSlot slot = ⟨true, f, (s.vreg rs1).value, (s.vreg rs2).value⟩
      ∧ ∀ j, t.preg j = match s.preg j with
          | .unwritten => .unwritten
          | .pt q => if q.curve = slot then .unwritten else .pt q

/-! ### Field commands (41_field.md) -/

/-- R101: FMK tags a value that is below the modulus, and never reduces it. -/
def Obligations.FmkTagsValue : Prop :=
  ∀ (s : State) (rd rs1 : VIdx) (slot : FIdx), Written s rs1 → (s.fieldSlot slot).valid = true →
    (s.vreg rs1).value.toNat < s.modOf slot →
    ∃ t, exec (.fmk rd rs1 slot) s = .next t ∧ Succeeded t false ∧ t.vreg rd = ⟨(s.vreg rs1).value, .fe slot⟩

/-- R102 and R103: FADD gives a + b reduced once, FSUB gives the element that b must be added to for a, both in [0, m)
and in the slot of va. -/
def Obligations.AdderResults : Prop :=
  ∀ (s : State) (rd rs1 rs2 : VIdx) (f g : FIdx), RegistersInv s → (s.vreg rs1).tag = .fe f →
    (s.vreg rs2).tag = .fe g → s.modOf f = s.modOf g →
    (∃ t, exec (.fadd rd rs1 rs2) s = .next t ∧ Succeeded t false ∧ (t.vreg rd).tag = .fe f
      ∧ (t.vreg rd).value.toNat = if (s.vreg rs1).value.toNat + (s.vreg rs2).value.toNat < s.modOf f
          then (s.vreg rs1).value.toNat + (s.vreg rs2).value.toNat
          else (s.vreg rs1).value.toNat + (s.vreg rs2).value.toNat - s.modOf f)
    ∧ ∃ t, exec (.fsub rd rs1 rs2) s = .next t ∧ Succeeded t false ∧ (t.vreg rd).tag = .fe f
      ∧ (t.vreg rd).value.toNat < s.modOf f
      ∧ ((t.vreg rd).value.toNat + (s.vreg rs2).value.toNat) % s.modOf f = (s.vreg rs1).value.toNat

/-- R104 and R106: FMUL gives a·b mod m. MMUL, for odd m, gives the residue whose product with 2^256 is a·b modulo m,
and for even m it raises InvalidModulus. -/
def Obligations.MultiplierResults : Prop :=
  ∀ (s : State) (rd rs1 rs2 : VIdx) (f g : FIdx), RegistersInv s → (s.vreg rs1).tag = .fe f →
    (s.vreg rs2).tag = .fe g → s.modOf f = s.modOf g →
    (∃ t, exec (.fmul rd rs1 rs2) s = .next t ∧ Succeeded t false ∧ (t.vreg rd).tag = .fe f
      ∧ (t.vreg rd).value.toNat = (s.vreg rs1).value.toNat * (s.vreg rs2).value.toNat % s.modOf f)
    ∧ (s.modOf f % 2 = 1 → ∃ t, exec (.mmul rd rs1 rs2) s = .next t ∧ Succeeded t false ∧ (t.vreg rd).tag = .fe f
      ∧ (t.vreg rd).value.toNat < s.modOf f
      ∧ (t.vreg rd).value.toNat * 2 ^ 256 % s.modOf f
          = (s.vreg rs1).value.toNat * (s.vreg rs2).value.toNat % s.modOf f)
    ∧ (s.modOf f % 2 = 0 → Raises (.mmul rd rs1 rs2) s .invalidModulus)

/-- R107 and R108: FPOW gives x^(e mod (m − 1)) mod m. FPOW.NEG with e > 0 gives the same power of
x^((m − 2) mod (m − 1)). The exponent is read as an integer under any written tag. -/
def Obligations.FpowResult : Prop :=
  ∀ (s : State) (rd rs1 rs2 : VIdx) (f : FIdx) (neg : Bool), RegistersInv s → (s.vreg rs1).tag = .fe f → Written s rs2 →
    ∃ t, exec (.fpow rd rs1 rs2 neg) s = .next t ∧ Succeeded t false ∧ (t.vreg rd).tag = .fe f
      ∧ (t.vreg rd).value.toNat =
          if neg = true ∧ (s.vreg rs2).value ≠ 0 then
            ((s.vreg rs1).value.toNat ^ ((s.modOf f - 2) % (s.modOf f - 1)))
              ^ ((s.vreg rs2).value.toNat % (s.modOf f - 1)) % s.modOf f
          else (s.vreg rs1).value.toNat ^ ((s.vreg rs2).value.toNat % (s.modOf f - 1)) % s.modOf f

/-- R109: in a prime field FDIV gives the quotient, the residue whose product with b ≠ 0 is a; b = 0 raises
DivisionByZero (0x7; 90_conflicts.md C1). -/
def Obligations.FdivResult : Prop :=
  ∀ (s : State) (rd rs1 rs2 : VIdx) (f g : FIdx), RegistersInv s → FieldsPrime s → (s.vreg rs1).tag = .fe f →
    (s.vreg rs2).tag = .fe g → s.modOf f = s.modOf g →
    if (s.vreg rs2).value = 0 then Raises (.fdiv rd rs1 rs2) s .divisionByZero
    else ∃ t, exec (.fdiv rd rs1 rs2) s = .next t ∧ Succeeded t false ∧ (t.vreg rd).tag = .fe f
      ∧ (t.vreg rd).value.toNat < s.modOf f
      ∧ (t.vreg rd).value.toNat * (s.vreg rs2).value.toNat % s.modOf f = (s.vreg rs1).value.toNat

/-- R110: FEQ compares value and modulus, and never the slot numbers. -/
def Obligations.FeqResult : Prop :=
  ∀ (s : State) (rs1 rs2 : VIdx) (f g : FIdx), (s.vreg rs1).tag = .fe f → (s.vreg rs2).tag = .fe g →
    ∃ t b, exec (.feq rs1 rs2) s = .next t ∧ Succeeded t b
      ∧ (b = true ↔ (s.vreg rs1).value = (s.vreg rs2).value ∧ s.modOf f = s.modOf g)

/-! ### Point commands (42_point.md) -/

/-- R121 and R130: PINF makes the point at infinity of a valid slot, and PGEN the generator on C0, whose digits are
those of 00_scope.md R8 (from general knowledge, 93_implementation_defined.md §4). -/
def Obligations.PinfAndPgenResults : Prop :=
  (∀ (s : State) (rd : PIdx) (c : CIdx), (s.curveSlot c).valid = true →
      ∃ t, exec (.pinf rd c) s = .next t ∧ Succeeded t false ∧ t.preg rd = .pt (.inf c))
  ∧ ∀ (s : State) (rd : PIdx), ∃ t, exec (.pgen rd) s = .next t ∧ Succeeded t false
      ∧ t.preg rd = .pt (.aff 0 0x79BE667EF9DCBBAC55A06295CE870B07029BFCDB2DCE28D959F2815B16F81798
          0x483ADA7726A3C4655DA4FBFC0E1108A8FD17B448A68554199C47D08FFB10D4B8)

/-- R122: PMK makes the affine point if its coordinates satisfy the curve's equation, and otherwise raises
PointNotOnCurve (0x3). -/
def Obligations.PmkResult : Prop :=
  ∀ (s : State) (rd : PIdx) (rs1 rs2 : VIdx) (c : CIdx) (f g : FIdx), RegistersInv s →
    (s.curveSlot c).valid = true → (s.vreg rs1).tag = .fe f → (s.vreg rs2).tag = .fe g → s.modOf f = (s.curveKey c).m →
    s.modOf g = (s.curveKey c).m →
    (SatisfiesCurve s c (s.vreg rs1).value.toNat (s.vreg rs2).value.toNat →
      ∃ t, exec (.pmk rd rs1 rs2 c) s = .next t ∧ Succeeded t false
        ∧ t.preg rd = .pt (.aff c (s.vreg rs1).value (s.vreg rs2).value))
    ∧ (¬ SatisfiesCurve s c (s.vreg rs1).value.toNat (s.vreg rs2).value.toNat →
      ∃ t, exec (.pmk rd rs1 rs2 c) s = .next t ∧ Failed t .pointNotOnCurve ∧ t.status.errcode = 0x3)

/-- R123: two points at infinity are equal on any curves; affine points are equal with the same coordinates on
compatible curves; a point at infinity equals no affine point. -/
def Obligations.PeqResult : Prop :=
  ∀ (s : State) (rs1 rs2 : PIdx) (A B : Point), s.preg rs1 = .pt A → s.preg rs2 = .pt B →
    ∃ t b, exec (.peq rs1 rs2) s = .next t ∧ Succeeded t b
      ∧ (b = true ↔ (∃ c d, A = .inf c ∧ B = .inf d)
          ∨ ∃ c d x y, A = .aff c x y ∧ B = .aff d x y ∧ s.curveKey c = s.curveKey d)

/-- R124 and R126: PADD of points on compatible curves gives their sum by the five cases, with the slot each case
says, unless it is a doubling that fails over GF(2). -/
def Obligations.PaddResult : Prop :=
  ∀ (s : State) (rd rs1 rs2 : PIdx) (A B : Point), RegistersInv s → FieldsPrime s → s.preg rs1 = .pt A →
    s.preg rs2 = .pt B → s.CurveCompatible A.curve B.curve →
    ¬ (DoublingFails s A ∧ ∃ c d x y, A = .aff c x y ∧ B = .aff d x y) →
    ∃ t q, exec (.padd rd rs1 rs2) s = .next t ∧ Succeeded t false ∧ GroupLaw s A B q ∧ t.preg rd = .pt q

/-- R127: PDBL gives the sum of the point with itself, and never a CurveMismatch. -/
def Obligations.PdblResult : Prop :=
  ∀ (s : State) (rd rs1 : PIdx) (A : Point), RegistersInv s → FieldsPrime s → s.preg rs1 = .pt A →
    ¬ DoublingFails s A →
    ∃ t q, exec (.pdbl rd rs1) s = .next t ∧ Succeeded t false ∧ GroupLaw s A A q ∧ t.preg rd = .pt q

/-- The group law is a function: the five cases of R124 give one sum. -/
def Obligations.SumIsUnique : Prop :=
  ∀ (s : State) (A B q q' : Point), FieldsPrime s → (s.fieldSlot (s.curveSlot A.curve).f).valid = true →
    GroupLaw s A B q → GroupLaw s A B q' → q = q'

/-- R128 and R129: PSMUL gives what double-and-add gives, the scalar reduced modulo N on C0 only, unless the point is
one whose doubling fails over GF(2) and the scalar is not 0. -/
def Obligations.PsmulResult : Prop :=
  ∀ (s : State) (rd rs1 : PIdx) (rs2 : VIdx) (A : Point), RegistersInv s → FieldsPrime s → s.preg rs1 = .pt A →
    Written s rs2 → ¬ (DoublingFails s A ∧ (s.vreg rs2).value ≠ 0) →
    ∃ t q, exec (.psmul rd rs1 rs2) s = .next t ∧ Succeeded t false ∧ ScalarMulIs s A (s.vreg rs2).value.toNat q
      ∧ t.preg rd = .pt q

/-- R131, R132 and R133: PGETX and PGETY give a coordinate as an element of the curve's field, and PISINF tells a point
at infinity. -/
def Obligations.AccessorResults : Prop :=
  (∀ (s : State) (rd : VIdx) (rs1 : PIdx) (c : CIdx) (x y : U256), s.preg rs1 = .pt (.aff c x y) →
      (∃ t, exec (.pgetx rd rs1) s = .next t ∧ Succeeded t false ∧ t.vreg rd = ⟨x, .fe (s.curveSlot c).f⟩)
        ∧ ∃ t, exec (.pgety rd rs1) s = .next t ∧ Succeeded t false ∧ t.vreg rd = ⟨y, .fe (s.curveSlot c).f⟩)
  ∧ ∀ (s : State) (rs1 : PIdx) (q : Point), s.preg rs1 = .pt q →
      ∃ t b, exec (.pisinf rs1) s = .next t ∧ Succeeded t b ∧ (b = true ↔ ∃ c, q = .inf c)

/-! ### Inverse, keys and ECDSA (43_ecdsa.md) -/

/-- R140 and R141: MINV gives the inverse of a modulo n in [0, n) if gcd(a, n) = 1 and n > 0, and otherwise raises
NotInvertible (0x6). -/
def Obligations.MinvResult : Prop :=
  ∀ (s : State) (rd rs1 rs2 : VIdx), Written s rs1 → Written s rs2 →
    if (s.vreg rs2).value ≠ 0 ∧ Nat.gcd (s.vreg rs1).value.toNat (s.vreg rs2).value.toNat = 1 then
      ∃ t, exec (.minv rd rs1 rs2) s = .next t ∧ Succeeded t false ∧ (t.vreg rd).tag = .int
        ∧ (t.vreg rd).value < (s.vreg rs2).value
        ∧ (s.vreg rs1).value.toNat * (t.vreg rd).value.toNat % (s.vreg rs2).value.toNat
            = 1 % (s.vreg rs2).value.toNat
    else ∃ t, exec (.minv rd rs1 rs2) s = .next t ∧ Failed t .notInvertible ∧ t.status.errcode = 0x6

/-- R142 and R143: KEYGEN writes (raw mod (N − 1)) + 1 for the next draw, whatever the draw is: a key in [1, N − 1]. The
draw is the answer that the collaborator has ready, read with b[0] as its most significant byte:
raw = Σ b[i]·256^(31 − i) (20_memory.md R55). -/
def Obligations.KeygenResult : Prop :=
  (∀ (s : State) (rd : VIdx), ∃ t, exec (.keygen rd) s = .next t ∧ Succeeded t false ∧ (t.vreg rd).tag = .int
    ∧ (t.vreg rd).value.toNat = s.rng.draw.1 % (Config.order.toNat - 1) + 1 ∧ t.rng.drawn = s.rng.drawn + 1
    ∧ 1 ≤ (t.vreg rd).value.toNat ∧ (t.vreg rd).value.toNat < Config.order.toNat)
  ∧ ∀ (g : Rng) (b : Vector Byte 32) (rest : List (Vector Byte 32)), g.answers = b :: rest →
      g.draw.1 = ((List.finRange 32).map fun i => (b.get i).toNat * 256 ^ (31 - i.val)).sum ∧ g.draw.2 = ⟨rest, g.drawn + 1⟩

/-- R145: PUBKEY of a valid key gives d·G by double-and-add on C0, and G itself for d = 1. -/
def Obligations.PubkeyResult : Prop :=
  ∀ (s : State) (rd : PIdx) (rs1 : VIdx), Written s rs1 → (s.vreg rs1).value ≠ 0 →
    (s.vreg rs1).value < Config.order →
    ∃ t q, exec (.pubkey rd rs1) s = .next t ∧ Succeeded t false
      ∧ ScalarMulIs s (.aff 0 Config.gx Config.gy) (s.vreg rs1).value.toNat q ∧ t.preg rd = .pt q
      ∧ ((s.vreg rs1).value = 1 → q = .aff 0 Config.gx Config.gy)

/-- R149.5: PUBKEY never yields Inf(0), because G has order N, with the digits of N, Gx and Gy that 00_scope.md R8 takes
from general knowledge (assumption 14). -/
def Obligations.PubkeyIsNeverInfinity : Prop :=
  ∀ (s : State) (rd : PIdx) (rs1 : VIdx), Written s rs1 → (s.vreg rs1).value ≠ 0 →
    (s.vreg rs1).value < Config.order →
    ∃ t x y, exec (.pubkey rd rs1) s = .next t ∧ t.preg rd = .pt (.aff 0 x y)

/-- R146 and R147: SIGN tries the nonces of its draws in turn. With the first `n` degenerate and the next giving r ≠ 0
and s ≠ 0, it writes them as integers, takes `n` + 1 draws and leaves `n` + 1 in ATTEMPTS. -/
def Obligations.SignResult : Prop :=
  ∀ (s : State) (rd rs1 rs2 rs3 : VIdx) (n r u : Nat), ParamsLegal s → rd ≠ rs3 → Written s rs1 → Written s rs2 →
    (s.vreg rs2).value ≠ 0 → (s.vreg rs2).value < Config.order → n < s.params.nonceMaxAttempts →
    (∀ j, j < n → NonceDegenerate s (s.vreg rs1).value.toNat (s.vreg rs2).value.toNat (nonceAt s j)) →
    NonceGives s (s.vreg rs1).value.toNat (s.vreg rs2).value.toNat (nonceAt s n) r u → r ≠ 0 → u ≠ 0 →
    ∃ t, exec (.sign rd rs1 rs2 rs3) s = .next t ∧ Succeeded t false
      ∧ (t.vreg rd).tag = .int ∧ (t.vreg rd).value.toNat = r ∧ (t.vreg rs3).tag = .int
      ∧ (t.vreg rs3).value.toNat = u ∧ t.attempts.toNat = n + 1 ∧ t.rng = s.rng.skip (n + 1)

/-- R147: with NONCE_MAX_ATTEMPTS degenerate nonces SIGN ends in NonceExhausted (0x8), takes exactly that many draws,
and leaves their number in ATTEMPTS although the command fails. -/
def Obligations.SignExhaustsNonces : Prop :=
  ∀ (s : State) (rd rs1 rs2 rs3 : VIdx), ParamsLegal s → rd ≠ rs3 → Written s rs1 → Written s rs2 →
    (s.vreg rs2).value ≠ 0 → (s.vreg rs2).value < Config.order →
    (∀ j, j < s.params.nonceMaxAttempts →
      NonceDegenerate s (s.vreg rs1).value.toNat (s.vreg rs2).value.toNat (nonceAt s j)) →
    ∃ t, exec (.sign rd rs1 rs2 rs3) s = .next t ∧ Failed t .nonceExhausted ∧ t.status.errcode = 0x8
      ∧ t.attempts.toNat = s.params.nonceMaxAttempts ∧ t.rng = s.rng.skip s.params.nonceMaxAttempts

/-- R149.3: when SIGN succeeds, 1 ≤ r ≤ N − 1 and 1 ≤ s ≤ N − 1, both as integers. -/
def Obligations.SignatureIsInRange : Prop :=
  ∀ (s t : State) (rd rs1 rs2 rs3 : VIdx), exec (.sign rd rs1 rs2 rs3) s = .next t → t.status.err = false →
    (t.vreg rd).tag = .int ∧ 1 ≤ (t.vreg rd).value.toNat ∧ (t.vreg rd).value.toNat ≤ Config.order.toNat - 1
      ∧ (t.vreg rs3).tag = .int ∧ 1 ≤ (t.vreg rs3).value.toNat ∧ (t.vreg rs3).value.toNat ≤ Config.order.toNat - 1

/-- R148 and R167: past its operand checks VERIFY always completes without error. RES = 1 exactly if r and s are in
[1, N − 1] and x(u·G + v·Q) mod N = r. -/
def Obligations.VerifyResult : Prop :=
  ∀ (s : State) (rd : PIdx) (rs1 rs2 rs3 : VIdx) (q : Point), RegistersInv s → s.preg rd = .pt q → Written s rs1 →
    Written s rs2 → Written s rs3 → s.curveKey q.curve = ⟨Config.p.toNat, 0, 7⟩ →
    ∃ t b, exec (.verify rd rs1 rs2 rs3) s = .next t ∧ Succeeded t b
      ∧ (b = true ↔
          (1 ≤ (s.vreg rs2).value.toNat ∧ (s.vreg rs2).value.toNat ≤ Config.order.toNat - 1)
          ∧ (1 ≤ (s.vreg rs3).value.toNat ∧ (s.vreg rs3).value.toNat ≤ Config.order.toNat - 1)
          ∧ VerifyAccepts s q (s.vreg rs1).value.toNat (s.vreg rs2).value.toNat (s.vreg rs3).value.toNat)

/-- R149.1, the round trip: for every z and every valid d, and for every sequence of draws under which SIGN succeeds,
VERIFY of (z, r, s) against PUBKEY(d) gives RES = 1. The three commands run in a row on registers that do not
overlap. -/
def Obligations.SignVerifyRoundTrip : Prop :=
  ∀ (s t u : State) (pq : PIdx) (vz vd vr vs : VIdx), vz ≠ vr → vz ≠ vs → vd ≠ vr → vd ≠ vs →
    exec (.sign vr vz vd vs) s = .next t → t.status.err = false → exec (.pubkey pq vd) t = .next u →
    ∃ w, exec (.verify pq vz vr vs) u = .next w ∧ Succeeded w true

/-! ### The bus (20_memory.md, 70_reset_and_hazards.md) -/

/-- R47: a host write of word `j` of V[i] replaces that word and sets the tag to INT; while BUSY = 1 it is dropped and
sets OVR. Nothing else changes. (The pin `rst_n` is high: in reset the block takes no write, assumption 5.) -/
def Obligations.ValueWordWrite : Prop :=
  ∀ (s : State) (i : VIdx) (j : Fin 8) (d : Word32) (rest : List Event), s.rstN = true →
    s.agenda = .write 32 (BitVec.ofNat 12 (0x100 + 0x20 * i.val + 4 * j.val)) d :: rest →
    (s.status.busy = true → ∃ t, step s = .next t ∧ t.status = { s.status with ovr := true }
      ∧ t = { s with agenda := rest, status := t.status, ovrLog := t.ovrLog })
    ∧ (s.status.busy = false → ∃ t, step s = .next t ∧ (t.vreg i).tag = .int
      ∧ (∀ k : Fin 8, (t.vreg i).value.extractLsb' (32 * k.val) 32 =
          if k = j then d else (s.vreg i).value.extractLsb' (32 * k.val) 32)
      ∧ (∀ i', i' ≠ i → t.vreg i' = s.vreg i') ∧ t = { s with agenda := rest, v := t.v })

/-- R48: a host write to CMD launches the word whatever it is; while BUSY = 1 it is dropped and sets OVR. -/
def Obligations.CommandWrite : Prop :=
  ∀ (s : State) (w : Word32) (rest : List Event), s.rstN = true → s.agenda = .write 32 0x00C w :: rest →
    (s.status.busy = true → ∃ t, step s = .next t ∧ t.status = { s.status with ovr := true }
      ∧ t = { s with agenda := rest, status := t.status, ovrLog := t.ovrLog })
    ∧ (s.status.busy = false → step s = .next { s with
        agenda := rest
        cmd := w
        status := { busy := true, done := false, err := false, res := false, ovr := s.status.ovr, errcode := 0 } })

/-- R49: a host write to STATUS clears DONE where bit 1 is set and OVR where bit 4 is set, whatever BUSY is, and ignores
every other bit. -/
def Obligations.StatusWrite : Prop :=
  ∀ (s : State) (d : Word32) (rest : List Event), s.rstN = true → s.agenda = .write 32 0x008 d :: rest →
    ∃ t, step s = .next t ∧ t = { s with agenda := rest, status := t.status }
      ∧ t.status.done = (if d.getLsbD 1 = true then false else s.status.done)
      ∧ t.status.ovr = (if d.getLsbD 4 = true then false else s.status.ovr)
      ∧ t.status.busy = s.status.busy ∧ t.status.err = s.status.err ∧ t.status.res = s.status.res
      ∧ t.status.errcode = s.status.errcode

/-- R50 and 70_reset_and_hazards.md R190 to R192: a host write to CTRL sets IE to bit 0; with bit 1 set it resets the
block at once, IE included, and the parameters, the pin, what the host has read and the ghost logs stay. A running
command is abandoned, and the draws it has taken are lost: a free number (assumption 6), at most what the command would
take in all, and 0 with no command running or a word that does not decode. -/
def Obligations.CtrlWrite : Prop :=
  ∀ (s : State) (d : Word32) (rest : List Event), s.rstN = true → s.agenda = .write 32 0x004 d :: rest →
    (d.getLsbD 1 = false → step s = .next { s with agenda := rest, ie := d.getLsbD 0 })
    ∧ (d.getLsbD 1 = true → ∃ t k, step s = .next t ∧ AtReset t ∧ t.params = s.params ∧ t.rstN = true
      ∧ t.agenda = rest ∧ t.reads = s.reads ∧ t.errLog = s.errLog ∧ t.ovrLog = s.ovrLog
      ∧ t.rng = s.rng.skip k ∧ (s.status.busy = false ∨ decode s.cmd = none → k = 0)
      ∧ ∀ i u, decode s.cmd = some i → exec i { s with agenda := rest, ie := d.getLsbD 0 } = .next u →
          s.rng.drawn + k ≤ u.rng.drawn)

/-- R42 and R43: an access of another width, or at an offset that is not a multiple of 4, and an access to a reserved
offset read 0 and change nothing; so does a write to a read-only register. -/
def Obligations.IgnoredAccesses : Prop :=
  (∀ (s : State) (width : Nat) (off : Offset) (rest : List Event), s.agenda = .read width off :: rest →
      (width ≠ 32 ∨ off.toNat % 4 ≠ 0 ∨ (0x028 ≤ off.toNat ∧ off.toNat < 0x100) ∨ 0x300 ≤ off.toNat) →
      step s = .next { s with agenda := rest, reads := s.reads ++ [0] })
  ∧ ∀ (s : State) (width : Nat) (off : Offset) (d : Word32) (rest : List Event), s.agenda = .write width off d :: rest →
      (width ≠ 32 ∨ off.toNat % 4 ≠ 0 ∨ (0x028 ≤ off.toNat ∧ off.toNat < 0x100) ∨ 0x300 ≤ off.toNat
        ∨ off ∈ [0x000, 0x010, 0x014, 0x018, 0x01C, 0x020, 0x024]) →
      step s = .next { s with agenda := rest }

/-- 10_state.md R19 to R22 and R27: reads of ID, CTRL, STATUS, CMD and PARAMS, exact whatever BUSY is (R196), bit by
bit. -/
def Obligations.ControlRegisterReads : Prop :=
  ∀ (s : State) (off : Offset) (rest : List Event), s.agenda = .read 32 off :: rest →
    off ∈ [0x000, 0x004, 0x008, 0x00C, 0x024] →
    ∃ w, step s = .next { s with agenda := rest, reads := s.reads ++ [w] }
      ∧ (off = 0x000 → w = 0x45434331)
      ∧ (off = 0x004 → ∀ k, w.getLsbD k = (decide (k = 0) && s.ie))
      ∧ (off = 0x008 → w.extractLsb' 8 4 = s.status.errcode ∧ w.extractLsb' 12 20 = 0 ∧ w.extractLsb' 5 3 = 0
        ∧ w.getLsbD 0 = s.status.busy ∧ w.getLsbD 1 = s.status.done ∧ w.getLsbD 2 = s.status.err
        ∧ w.getLsbD 3 = s.status.res ∧ w.getLsbD 4 = s.status.ovr)
      ∧ (off = 0x00C → w = s.cmd)
      ∧ (off = 0x024 → ParamsLegal s → s.params.primeCheckBits < 256 →
        (w.extractLsb' 0 16).toNat = s.params.nonceMaxAttempts ∧ (w.extractLsb' 16 8).toNat = s.params.primeCheckBits
          ∧ w.extractLsb' 24 8 = 0)

/-- 10_state.md R11, R23 to R26 and 20_memory.md R44: reads of VTAG_LO, VTAG_HI, PTAG, ATTEMPTS, SLOTS and of the value
registers once BUSY = 0, nibble by nibble, bit by bit and word by word. -/
def Obligations.RegisterReads : Prop :=
  ∀ (s : State) (off : Offset) (rest : List Event), s.agenda = .read 32 off :: rest → s.status.busy = false →
    off.toNat % 4 = 0 → ∃ w, step s = .next { s with agenda := rest, reads := s.reads ++ [w] }
      ∧ (off = 0x010 → ∀ k : Fin 8,
          match (s.vreg (Fin.ofNat 16 k.val)).tag with
          | .unwritten => w.extractLsb' (4 * k.val) 4 = 0
          | .int => w.extractLsb' (4 * k.val) 4 = 1
          | .fe f => (w.extractLsb' (4 * k.val) 4).toNat = 4 + f.val)
      ∧ (off = 0x014 → ∀ k : Fin 8,
          match (s.vreg (Fin.ofNat 16 (k.val + 8))).tag with
          | .unwritten => w.extractLsb' (4 * k.val) 4 = 0
          | .int => w.extractLsb' (4 * k.val) 4 = 1
          | .fe f => (w.extractLsb' (4 * k.val) 4).toNat = 4 + f.val)
      ∧ (off = 0x018 → ∀ k : PIdx,
          match s.preg k with
          | .unwritten => w.extractLsb' (4 * k.val) 4 = 0
          | .pt (.inf c) => w.extractLsb' (4 * k.val) 2 = 1 ∧ (w.extractLsb' (4 * k.val + 2) 2).toNat = c.val
          | .pt (.aff c _ _) => w.extractLsb' (4 * k.val) 2 = 2 ∧ (w.extractLsb' (4 * k.val + 2) 2).toNat = c.val)
      ∧ (off = 0x01C → w.extractLsb' 0 16 = s.attempts ∧ w.extractLsb' 16 16 = 0)
      ∧ (off = 0x020 → w.extractLsb' 8 24 = 0 ∧ (∀ f : FIdx, w.getLsbD f.val = (s.fieldSlot f).valid)
        ∧ ∀ c : CIdx, w.getLsbD (4 + c.val) = (s.curveSlot c).valid)
      ∧ ∀ (i : VIdx) (j : Fin 8), off.toNat = 0x100 + 0x20 * i.val + 4 * j.val →
          w = (s.vreg i).value.extractLsb' (32 * j.val) 32

/-- R45 and 70_reset_and_hazards.md R196: no read changes the block, and while BUSY = 1 a read of a value register
word, VTAG_LO, VTAG_HI, PTAG, ATTEMPTS or SLOTS returns a fresh free value (assumption 4). -/
def Obligations.ReadsHaveNoSideEffects : Prop :=
  (∀ (s : State) (width : Nat) (off : Offset) (rest : List Event), s.agenda = .read width off :: rest →
      ∃ t w, step s = .next t ∧ t.reads = s.reads ++ [w]
        ∧ t = { s with agenda := rest, reads := t.reads, freeCount := t.freeCount })
  ∧ ∀ (s : State) (off : Offset) (rest : List Event), s.agenda = .read 32 off :: rest → s.status.busy = true →
      off.toNat % 4 = 0 → (0x010 ≤ off.toNat ∧ off.toNat < 0x024) ∨ (0x100 ≤ off.toNat ∧ off.toNat < 0x300) →
      step s = .next { s with
        agenda := rest
        reads := s.reads ++ [Config.busyRead s.freeCount]
        freeCount := s.freeCount + 1 }

/-! ### Reset and the interrupt -/

/-- 10_state.md R34: the state after reset, and what the window shows of it. That PARAMS shows the defaults of 00_scope.md
R5 is the model's choice of a build (assumption 2), and the middle digits of N are those that R8 takes from general
knowledge (assumption 14). -/
def Obligations.ResetValues : Prop :=
  (∀ i, State.reset.vreg i = ⟨0, .unwritten⟩) ∧ (∀ i, State.reset.preg i = .unwritten)
    ∧ State.reset.fieldSlot 0 = ⟨true, 0xFFFFFFFFFFFFFFFFFFFFFFFFFFFFFFFFFFFFFFFFFFFFFFFFFFFFFFFEFFFFFC2F⟩
    ∧ State.reset.fieldSlot 1 = ⟨true, 0xFFFFFFFFFFFFFFFFFFFFFFFFFFFFFFFEBAAEDCE6AF48A03BBFD25E8CD0364141⟩
    ∧ State.reset.fieldSlot 2 = ⟨false, 0⟩ ∧ State.reset.fieldSlot 3 = ⟨false, 0⟩
    ∧ State.reset.curveSlot 0 = ⟨true, 0, 0, 7⟩ ∧ (∀ c, c ≠ 0 → State.reset.curveSlot c = ⟨false, 0, 0, 0⟩)
    ∧ State.reset.ie = false ∧ Clean State.reset ∧ State.reset.cmd = 0 ∧ State.reset.attempts = 0
    ∧ State.reset.pending = false ∧ State.reset.irq = false ∧ State.reset.slots = 0x13
    ∧ State.reset.readWord .id = 0x45434331 ∧ State.reset.readWord .params = 0x00200100

/-- 70_reset_and_hazards.md R190 to R193: `rst_n` low resets the block whatever it does. A pending command is
abandoned without completing: the ghost log of errors does not grow, and no more draws are lost than the command
would take in all; with no command pending, or a word that does not decode, none is. The number lost is free (assumption 6). While the pin is low the
block takes no write (assumption 5), and high lets it leave reset. -/
def Obligations.PinResetsBlock : Prop :=
  (∀ (s : State) (rest : List Event), s.agenda = .rstN false :: rest →
    ∃ t k, step s = .next t ∧ AtReset t ∧ t.rstN = false ∧ t.params = s.params ∧ t.agenda = rest ∧ t.reads = s.reads
      ∧ t.errLog = s.errLog ∧ t.ovrLog = s.ovrLog ∧ t.rng = s.rng.skip k
      ∧ (s.status.busy = false ∨ decode s.cmd = none → k = 0)
      ∧ ∀ i u, decode s.cmd = some i → exec i { s with agenda := rest } = .next u → s.rng.drawn + k ≤ u.rng.drawn)
  ∧ (∀ (s : State) (width : Nat) (off : Offset) (d : Word32) (rest : List Event), s.rstN = false →
      s.agenda = .write width off d :: rest → step s = .next { s with agenda := rest })
  ∧ ∀ (s : State) (rest : List Event), s.agenda = .rstN true :: rest →
      step s = .next { s with agenda := rest, rstN := true }

/-- 10_state.md R28 and 60_exceptions.md R168, R169: IRQ is DONE AND IE. Every completion with IE = 1 raises it, an
accepted CMD write and a write of 1 to DONE drop it, and IE = 0 masks it without clearing DONE. -/
def Obligations.InterruptFollowsDone : Prop :=
  (∀ (s t : State) (rest : List Event), CoreNext s rest → step s = .next t → t.irq = s.ie)
  ∧ (∀ (s t : State) (w : Word32) (rest : List Event), s.rstN = true → s.status.busy = false →
      s.agenda = .write 32 0x00C w :: rest → step s = .next t → t.irq = false)
  ∧ (∀ (s t : State) (d : Word32) (rest : List Event), s.rstN = true → s.agenda = .write 32 0x008 d :: rest →
      d.getLsbD 1 = true → step s = .next t → t.irq = false)
  ∧ ∀ (s t : State) (d : Word32) (rest : List Event), s.rstN = true → s.agenda = .write 32 0x004 d :: rest →
      d.getLsbD 1 = false → step s = .next t → t.irq = (s.status.done && d.getLsbD 0) ∧ t.status.done = s.status.done

/-! ### Invariants (10_state.md R35) -/

/-- The invariants hold at reset. -/
def Obligations.InvariantsHoldAtReset : Prop :=
  RegistersInv State.reset ∧ FieldsPrime State.reset ∧ PointsOnCurve State.reset ∧ StatusInv State.reset
    ∧ PinInv State.reset ∧ ParamsLegal State.reset

/-- R35, items 1, 2, 4 and the bounds of item 3, with every valid modulus prime: every step of any agent keeps them. -/
def Obligations.StepKeepsRegistersInv : Prop :=
  ∀ s t : State, RegistersInv s → FieldsPrime s → step s = .next t → RegistersInv t ∧ FieldsPrime t

/-- R35, item 3, and 42_point.md R125: no step makes a point that is off its curve, on singular curves too. -/
def Obligations.StepKeepsPointsOnCurve : Prop :=
  ∀ s t : State, RegistersInv s → FieldsPrime s → PointsOnCurve s → step s = .next t → PointsOnCurve t

/-- R35, item 6, with the other STATUS combinations the rules exclude, and the block held in reset by a low `rst_n`:
every step keeps them. No step changes the parameters of the build (10_state.md R27) or shortens a ghost log. -/
def Obligations.StepKeepsStatusInv : Prop :=
  ∀ s t : State, StatusInv s → PinInv s → step s = .next t →
    StatusInv t ∧ PinInv t ∧ t.params = s.params ∧ s.errLog <+: t.errLog ∧ s.ovrLog <+: t.ovrLog
end

