-- ==== Sys2Proof/Laws/Arith.lean ====
section
/-! SUPPORT. What the arithmetic functions of Machine/Arith.lean compute, once each: powers, inverses, the prime
test and residues. -/

namespace Sys2Proof.Machine

/-! ### Residues (00_scope.md R6) -/

theorem residue_lt (a : Int) {m : Nat} (h : 0 < m) : residue a m < m := by
  have h0 : (0 : Int) < m := by exact_mod_cast h
  have := Int.emod_lt_of_pos a h0
  have := Int.emod_nonneg a h0.ne'
  unfold residue; omega

theorem residue_cast (a : Int) {m : Nat} (h : 0 < m) : (residue a m : Int) = a % m := by
  have h0 : (m : Int) ≠ 0 := by exact_mod_cast h.ne'
  exact Int.toNat_of_nonneg (Int.emod_nonneg a h0)

/-- In ZMod m a residue is the integer itself. -/
theorem residue_zmod (a : Int) {m : Nat} (h : 0 < m) : ((residue a m : Nat) : ZMod m) = (a : ZMod m) := by
  have e : ((residue a m : Nat) : ZMod m) = (((residue a m : Nat) : Int) : ZMod m) := by simp
  rw [e, residue_cast a h]
  simp

/-! ### Binary exponentiation (41_field.md R107) -/

theorem binPowLoop_eq (m : Nat) : ∀ (fuel r b k : Nat), k < 2 ^ fuel → r % m = r →
    binPowLoop m fuel r b k = r * b ^ k % m := by
  intro fuel
  induction fuel with
  | zero =>
    intro r b k hk hr
    have : k = 0 := by simpa using hk
    simp [binPowLoop, this, hr]
  | succ n ih =>
    intro r b k hk hr
    unfold binPowLoop
    by_cases h0 : k = 0
    · simp [h0, hr]
    · have hk' : k / 2 < 2 ^ n := by rw [Nat.pow_succ] at hk; omega
      have hsq : (b * b % m) ^ (k / 2) ≡ b ^ (2 * (k / 2)) [MOD m] := by
        rw [pow_mul, pow_two]; exact (Nat.mod_modEq _ _).pow _
      rw [if_neg h0]
      by_cases h1 : k % 2 = 1
      · rw [if_pos h1, ih _ _ _ hk' (Nat.mod_mod _ _)]
        have e : r * b ^ k = (r * b) * b ^ (2 * (k / 2)) := by
          rw [mul_assoc, ← pow_succ']; congr 2; omega
        rw [e]
        exact (Nat.mod_modEq _ _).mul hsq
      · rw [if_neg h1, ih _ _ _ hk' hr]
        have e : b ^ k = b ^ (2 * (k / 2)) := by congr 1; omega
        rw [e]
        exact (Nat.ModEq.refl r).mul hsq

/-- `BinPow(x, k, m)` is x^k mod m, with x^0 = 1 (R107). -/
theorem binPow_eq (x m : Nat) {k : Nat} (hk : k < 2 ^ 256) : binPow x k m = x ^ k % m := by
  unfold binPow
  rw [binPowLoop_eq m 256 (1 % m) x k hk (Nat.mod_mod _ _), Nat.mod_mul_mod, one_mul]

theorem pred_lt_pow {m : Nat} (hm : m ≤ 2 ^ 256) (a : Nat) (h2 : 2 ≤ m) : a % (m - 1) < 2 ^ 256 :=
  Nat.lt_of_lt_of_le (Nat.mod_lt _ (by omega)) (by omega)

/-- `FieldPow` with a non-negative exponent (R107). -/
theorem fieldPow_nonneg (x e m : Nat) (h2 : 2 ≤ m) (hm : m ≤ 2 ^ 256) :
    fieldPow x e false m = x ^ (e % (m - 1)) % m := by
  simp [fieldPow, binPow_eq x m (pred_lt_pow hm e h2)]

/-- `FieldPow` with a negative exponent (R107). -/
theorem fieldPow_neg (x e m : Nat) (h2 : 2 ≤ m) (hm : m ≤ 2 ^ 256) (he : 0 < e) :
    fieldPow x e true m = (x ^ ((m - 2) % (m - 1)) % m) ^ (e % (m - 1)) % m := by
  simp [fieldPow, he, binPow_eq _ m (pred_lt_pow hm _ h2)]

/-- Modulo a prime, the Fermat power inverts every nonzero residue. -/
theorem fermat_zmod {m : Nat} (hp : m.Prime) (hm : m ≤ 2 ^ 256) {b : Nat} (hb : (b : ZMod m) ≠ 0) :
    ((fieldPow b (m - 2) false m : Nat) : ZMod m) = (b : ZMod m)⁻¹ := by
  have : Fact m.Prime := ⟨hp⟩
  rw [fieldPow_nonneg _ _ _ hp.two_le hm]
  simp only [ZMod.natCast_mod, Nat.cast_pow]
  have hlt : (m - 2) % (m - 1) = m - 2 := Nat.mod_eq_of_lt (by have := hp.two_le; omega)
  rw [hlt]
  have h1 : (b : ZMod m) ^ (m - 1) = 1 := ZMod.pow_card_sub_one_eq_one hb
  have h2 : (b : ZMod m) ^ (m - 2) * b = 1 := by
    rw [← pow_succ, show m - 2 + 1 = m - 1 by have := hp.two_le; omega, h1]
  exact eq_inv_of_mul_eq_one_left h2

/-- The Fermat quotient is the quotient of the prime field. -/
theorem fermatQuotient_zmod {m : Nat} (hp : m.Prime) (hm : m ≤ 2 ^ 256) (a : Nat) {b : Nat} (hb : (b : ZMod m) ≠ 0) :
    ((fermatQuotient a b m : Nat) : ZMod m) = (a : ZMod m) * (b : ZMod m)⁻¹ := by
  rw [fermatQuotient, ZMod.natCast_mod, Nat.cast_mul, fermat_zmod hp hm hb]

/-! ### The extended Euclidean inverse (43_ecdsa.md R140) -/

/-- With turns enough, the Euclid loop ends on the gcd, and the gcd stays `a` times the coefficient modulo n.
The product of the pair at least halves at every turn. -/
theorem euclidLoop_spec (a n : Int) : ∀ (fuel oldR r : Nat) (oldS s : Int),
    (oldR : Int) ≡ a * oldS [ZMOD n] → (r : Int) ≡ a * s [ZMOD n] → r ≤ oldR → oldR * r < 2 ^ fuel →
    (euclidLoop fuel oldR r oldS s).1 = Nat.gcd oldR r ∧
      ((euclidLoop fuel oldR r oldS s).1 : Int) ≡ a * (euclidLoop fuel oldR r oldS s).2 [ZMOD n] := by
  intro fuel
  induction fuel with
  | zero =>
    intro oldR r oldS s h1 _ hle hlt
    have hr : r = 0 := by
      have : oldR * r = 0 := by simpa using hlt
      rcases Nat.mul_eq_zero.mp this with h | h <;> omega
    simp [euclidLoop, hr, h1]
  | succ k ih =>
    intro oldR r oldS s h1 h2 hle hlt
    unfold euclidLoop
    by_cases hr : r = 0
    · simp [hr, h1]
    · rw [if_neg hr]
      have hmod : oldR - oldR / r * r = oldR % r := by
        have := Nat.div_add_mod oldR r; rw [Nat.mul_comm] at this; omega
      rw [hmod]
      have hcast : ((oldR % r : Nat) : Int) ≡ a * (oldS - (oldR / r : Nat) * s) [ZMOD n] := by
        have e : ((oldR % r : Nat) : Int) = oldR - (oldR / r : Nat) * r := by
          have := Nat.div_add_mod oldR r
          have h : ((r * (oldR / r) + oldR % r : Nat) : Int) = oldR := by exact_mod_cast this
          push_cast at h ⊢; linarith
        rw [e]
        have := h1.sub (Int.ModEq.mul_left (oldR / r : Nat) h2)
        convert this using 1; ring
      have hhalf : 2 * (oldR % r) ≤ oldR := by
        have h := Nat.div_add_mod oldR r
        have hq : 1 ≤ oldR / r := Nat.div_pos hle (Nat.pos_of_ne_zero hr)
        have hm := Nat.mod_lt oldR (Nat.pos_of_ne_zero hr)
        have : r ≤ r * (oldR / r) := Nat.le_mul_of_pos_right r hq
        omega
      have hprod : r * (oldR % r) < 2 ^ k := by
        have : 2 * (r * (oldR % r)) < 2 * 2 ^ k := by
          calc 2 * (r * (oldR % r)) = r * (2 * (oldR % r)) := by ring
            _ ≤ r * oldR := Nat.mul_le_mul_left r hhalf
            _ = oldR * r := Nat.mul_comm _ _
            _ < 2 ^ (k + 1) := hlt
            _ = 2 * 2 ^ k := by ring
        omega
      have := ih r (oldR % r) s _ h2 hcast (Nat.mod_lt oldR (Nat.pos_of_ne_zero hr)).le hprod
      have hg : Nat.gcd r (oldR % r) = Nat.gcd oldR r := by
        rw [Nat.gcd_comm r, ← Nat.gcd_rec, Nat.gcd_comm]
      rwa [hg] at this

/-- `ModInverse` for 256-bit operands (R140): NotInvertible unless gcd(a mod n, n) = 1, and otherwise the inverse
in [0, n). -/
theorem modInverse_spec (a n : Nat) (h0 : 0 < n) (hn : n < 2 ^ 256) :
    if Nat.gcd a n = 1 then ∃ x, modInverse a n = some x ∧ x < n ∧ a * x % n = 1 % n
    else modInverse a n = none := by
  have hmodlt : a % n < n := Nat.mod_lt a h0
  have hfirst : euclidLoop euclidFuel (a % n) n 1 0 = euclidLoop 519 n (a % n) 0 1 := by
    have hq : a % n / n = 0 := Nat.div_eq_of_lt hmodlt
    show euclidLoop (519 + 1) (a % n) n 1 0 = _
    rw [euclidLoop, if_neg h0.ne', hq]
    simp
  have hspec := euclidLoop_spec a n 519 n (a % n) 0 1
    (by simp [Int.ModEq]) (by simp [Int.ModEq]) hmodlt.le
    (by
      calc n * (a % n) < 2 ^ 256 * 2 ^ 256 := Nat.mul_lt_mul'' hn (hmodlt.trans hn)
        _ = 2 ^ (256 + 256) := (Nat.pow_add 2 256 256).symm
        _ ≤ 2 ^ 519 := Nat.pow_le_pow_right (by omega) (by omega))
  rw [← hfirst] at hspec
  have hgcd : Nat.gcd n (a % n) = Nat.gcd a n := by rw [Nat.gcd_comm n, ← Nat.gcd_rec, Nat.gcd_comm]
  rw [hgcd] at hspec
  obtain ⟨hg, hc⟩ := hspec
  generalize he : euclidLoop euclidFuel (a % n) n 1 0 = res at hg hc
  obtain ⟨g, t⟩ := res
  simp only at hg hc
  unfold modInverse
  rw [if_neg h0.ne', he]
  by_cases h1 : Nat.gcd a n = 1
  · rw [if_pos h1]
    have hg1 : g = 1 := hg.trans h1
    refine ⟨residue t n, by simp [hg1], residue_lt t h0, ?_⟩
    have h : ((a * residue t n : Nat) : Int) ≡ ((1 : Nat) : Int) [ZMOD n] := by
      have e : ((a * residue t n : Nat) : Int) ≡ a * t [ZMOD n] := by
        rw [Nat.cast_mul, residue_cast t h0]
        exact (Int.mod_modEq t n).mul_left _
      rw [hg1] at hc
      exact e.trans hc.symm
    exact (Int.natCast_modEq_iff.mp h)
  · rw [if_neg h1]
    have : ¬ g = 1 := by rw [hg]; exact h1
    simp [this]

theorem modInverse_zero (a : Nat) : modInverse a 0 = none := rfl

/-- The Montgomery constant of an odd modulus (41_field.md R106). -/
theorem montgomeryRinv_spec {m : Nat} (hodd : m % 2 = 1) (hm : m < 2 ^ 256) :
    montgomeryRinv m < m ∧ 2 ^ 256 * montgomeryRinv m % m = 1 % m := by
  have h0 : 0 < m := by omega
  have hg : Nat.gcd (2 ^ 256) m = 1 :=
    Nat.Coprime.pow_left _ ((Nat.coprime_two_left).mpr (Nat.odd_iff.mpr hodd))
  have h := modInverse_spec (2 ^ 256) m h0 hm
  rw [if_pos hg] at h
  obtain ⟨x, hx, hlt, he⟩ := h
  simp only [montgomeryRinv, hx, Option.getD_some]
  exact ⟨hlt, he⟩

/-! ### The prime test (40_control.md R87) -/

/-- The halved range search finds a divisor exactly if there is one below the square root. -/
theorem noSmallDivisor_iff (m : Nat) : ∀ (depth lo : Nat),
    noSmallDivisor m depth lo = true ↔ ∀ d, lo ≤ d → d < lo + 2 ^ depth → d * d ≤ m → ¬ d ∣ m := by
  intro depth
  induction depth with
  | zero =>
    intro lo
    constructor
    · intro h d h1 h2 hsq hd
      have : d = lo := by omega
      subst this
      simp only [noSmallDivisor, Bool.or_eq_true, decide_eq_true_eq, bne_iff_ne, ne_eq] at h
      rcases h with h | h
      · omega
      · exact h (Nat.mod_eq_zero_of_dvd hd)
    · intro h
      simp only [noSmallDivisor, Bool.or_eq_true, decide_eq_true_eq, bne_iff_ne, ne_eq]
      by_cases hlt : m < lo * lo
      · exact .inl hlt
      · exact .inr fun he => h lo le_rfl (by simp) (by omega) (Nat.dvd_of_mod_eq_zero he)
  | succ k ih =>
    intro lo
    have hp : 2 ^ (k + 1) = 2 ^ k + 2 ^ k := by rw [Nat.pow_succ]; omega
    simp only [noSmallDivisor, Bool.or_eq_true, Bool.and_eq_true, decide_eq_true_eq, ih]
    constructor
    · rintro (h | ⟨h1, h2⟩) d hlo hhi hsq
      · have : lo * lo ≤ d * d := Nat.mul_le_mul hlo hlo
        omega
      · by_cases hd : d < lo + 2 ^ k
        · exact h1 d hlo hd hsq
        · exact h2 d (by omega) (by omega) hsq
    · intro h
      exact .inr ⟨fun d h1 h2 => h d h1 (by omega), fun d h1 h2 => h d (by omega) (by omega)⟩

/-- `PrimeAcceptable(m)` of R87: below the bound, at least 2, and no d with 2 ≤ d < m divides m. -/
theorem primeAcceptable_iff (bits : Nat) {m : Nat} (hm : m < 2 ^ 256) :
    primeAcceptable bits m = true ↔ m < 2 ^ bits ∧ 2 ≤ m ∧ ∀ d, 2 ≤ d → d < m → ¬ d ∣ m := by
  simp only [primeAcceptable, Bool.and_eq_true, decide_eq_true_eq, noSmallDivisor_iff, and_assoc]
  refine and_congr_right fun _ => and_congr_right fun h2 => ⟨fun h d hd hdm hdvd => ?_, fun h d hd _ hsq hdvd => ?_⟩
  · obtain ⟨e, rfl⟩ := hdvd
    have he : 2 ≤ e := by
      rcases Nat.lt_or_ge e 2 with h' | h'
      · interval_cases e <;> omega
      · exact h'
    rcases Nat.le_total d e with hle | hle
    · have hsq : d * d ≤ d * e := Nat.mul_le_mul_left d hle
      have hdlt : d < 2 ^ 128 := by
        by_contra hge
        have : 2 ^ 128 * 2 ^ 128 ≤ d * d := Nat.mul_le_mul (by omega) (by omega)
        have e2 : 2 ^ 128 * 2 ^ 128 = 2 ^ 256 := by norm_num
        omega
      exact h d hd (by omega) hsq (Nat.dvd_mul_right d e)
    · have hsq : e * e ≤ d * e := Nat.mul_le_mul_right e hle
      have helt : e < 2 ^ 128 := by
        by_contra hge
        have : 2 ^ 128 * 2 ^ 128 ≤ e * e := Nat.mul_le_mul (by omega) (by omega)
        have e2 : 2 ^ 128 * 2 ^ 128 = 2 ^ 256 := by norm_num
        omega
      exact h e he (by omega) hsq (Nat.dvd_mul_left e d)
  · have hlt : d < m := by
      rcases Nat.lt_or_ge d m with h' | h'
      · exact h'
      · have : m * 2 ≤ d * d := Nat.mul_le_mul h' hd
        omega
    exact h d hd hlt hdvd

/-- The moduli that SETMOD accepts are prime. -/
theorem primeAcceptable_prime {bits m : Nat} (hm : m < 2 ^ 256) (h : primeAcceptable bits m = true) : m.Prime := by
  obtain ⟨-, h2, hd⟩ := (primeAcceptable_iff bits hm).mp h
  exact Nat.prime_def_lt'.mpr ⟨h2, fun d hd2 hlt => hd d hd2 hlt⟩

/-! ### Scalars of random draws (43_ecdsa.md R142) -/

/-- The scalar of a draw lies in [1, N − 1]. -/
theorem scalarFromRaw_range (raw : Nat) : 1 ≤ scalarFromRaw raw ∧ scalarFromRaw raw ≤ Config.order.toNat - 1 := by
  have h : 0 < Config.order.toNat - 1 := by decide
  have := Nat.mod_lt raw h
  unfold scalarFromRaw
  omega

end Sys2Proof.Machine
end

