-- ==== Sys2Proof/Laws/State.lean ====
section
/-! SUPPORT. One lemma per field of State and per update of Machine/Ops.lean, Machine/Ecdsa.lean and
Machine/Bus.lean: what the update does to the field. -/

namespace Sys2Proof.Machine

/-! ### `setV` -/

@[simp] theorem State.setV_v (s : State) (i : VIdx) (x : VReg) : (s.setV i x).v = s.v.set i.val x i.isLt := rfl
@[simp] theorem State.setV_p (s : State) (i : VIdx) (x : VReg) : (s.setV i x).p = s.p := rfl
@[simp] theorem State.setV_f2 (s : State) (i : VIdx) (x : VReg) : (s.setV i x).f2 = s.f2 := rfl
@[simp] theorem State.setV_f3 (s : State) (i : VIdx) (x : VReg) : (s.setV i x).f3 = s.f3 := rfl
@[simp] theorem State.setV_c1 (s : State) (i : VIdx) (x : VReg) : (s.setV i x).c1 = s.c1 := rfl
@[simp] theorem State.setV_c2 (s : State) (i : VIdx) (x : VReg) : (s.setV i x).c2 = s.c2 := rfl
@[simp] theorem State.setV_c3 (s : State) (i : VIdx) (x : VReg) : (s.setV i x).c3 = s.c3 := rfl
@[simp] theorem State.setV_ie (s : State) (i : VIdx) (x : VReg) : (s.setV i x).ie = s.ie := rfl
@[simp] theorem State.setV_status (s : State) (i : VIdx) (x : VReg) : (s.setV i x).status = s.status := rfl
@[simp] theorem State.setV_cmd (s : State) (i : VIdx) (x : VReg) : (s.setV i x).cmd = s.cmd := rfl
@[simp] theorem State.setV_attempts (s : State) (i : VIdx) (x : VReg) : (s.setV i x).attempts = s.attempts := rfl
@[simp] theorem State.setV_params (s : State) (i : VIdx) (x : VReg) : (s.setV i x).params = s.params := rfl
@[simp] theorem State.setV_rstN (s : State) (i : VIdx) (x : VReg) : (s.setV i x).rstN = s.rstN := rfl
@[simp] theorem State.setV_rng (s : State) (i : VIdx) (x : VReg) : (s.setV i x).rng = s.rng := rfl
@[simp] theorem State.setV_agenda (s : State) (i : VIdx) (x : VReg) : (s.setV i x).agenda = s.agenda := rfl
@[simp] theorem State.setV_reads (s : State) (i : VIdx) (x : VReg) : (s.setV i x).reads = s.reads := rfl
@[simp] theorem State.setV_freeCount (s : State) (i : VIdx) (x : VReg) : (s.setV i x).freeCount = s.freeCount := rfl
@[simp] theorem State.setV_errLog (s : State) (i : VIdx) (x : VReg) : (s.setV i x).errLog = s.errLog := rfl
@[simp] theorem State.setV_ovrLog (s : State) (i : VIdx) (x : VReg) : (s.setV i x).ovrLog = s.ovrLog := rfl

/-! ### `setP` -/

@[simp] theorem State.setP_v (s : State) (i : PIdx) (q : Point) : (s.setP i q).v = s.v := rfl
@[simp] theorem State.setP_p (s : State) (i : PIdx) (q : Point) : (s.setP i q).p = s.p.set i.val (.pt q) i.isLt := rfl
@[simp] theorem State.setP_f2 (s : State) (i : PIdx) (q : Point) : (s.setP i q).f2 = s.f2 := rfl
@[simp] theorem State.setP_f3 (s : State) (i : PIdx) (q : Point) : (s.setP i q).f3 = s.f3 := rfl
@[simp] theorem State.setP_c1 (s : State) (i : PIdx) (q : Point) : (s.setP i q).c1 = s.c1 := rfl
@[simp] theorem State.setP_c2 (s : State) (i : PIdx) (q : Point) : (s.setP i q).c2 = s.c2 := rfl
@[simp] theorem State.setP_c3 (s : State) (i : PIdx) (q : Point) : (s.setP i q).c3 = s.c3 := rfl
@[simp] theorem State.setP_ie (s : State) (i : PIdx) (q : Point) : (s.setP i q).ie = s.ie := rfl
@[simp] theorem State.setP_status (s : State) (i : PIdx) (q : Point) : (s.setP i q).status = s.status := rfl
@[simp] theorem State.setP_cmd (s : State) (i : PIdx) (q : Point) : (s.setP i q).cmd = s.cmd := rfl
@[simp] theorem State.setP_attempts (s : State) (i : PIdx) (q : Point) : (s.setP i q).attempts = s.attempts := rfl
@[simp] theorem State.setP_params (s : State) (i : PIdx) (q : Point) : (s.setP i q).params = s.params := rfl
@[simp] theorem State.setP_rstN (s : State) (i : PIdx) (q : Point) : (s.setP i q).rstN = s.rstN := rfl
@[simp] theorem State.setP_rng (s : State) (i : PIdx) (q : Point) : (s.setP i q).rng = s.rng := rfl
@[simp] theorem State.setP_agenda (s : State) (i : PIdx) (q : Point) : (s.setP i q).agenda = s.agenda := rfl
@[simp] theorem State.setP_reads (s : State) (i : PIdx) (q : Point) : (s.setP i q).reads = s.reads := rfl
@[simp] theorem State.setP_freeCount (s : State) (i : PIdx) (q : Point) : (s.setP i q).freeCount = s.freeCount := rfl
@[simp] theorem State.setP_errLog (s : State) (i : PIdx) (q : Point) : (s.setP i q).errLog = s.errLog := rfl
@[simp] theorem State.setP_ovrLog (s : State) (i : PIdx) (q : Point) : (s.setP i q).ovrLog = s.ovrLog := rfl

/-! ### `completeOk` -/

@[simp] theorem State.completeOk_v (s : State) (res : Bool) : (s.completeOk res).v = s.v := rfl
@[simp] theorem State.completeOk_p (s : State) (res : Bool) : (s.completeOk res).p = s.p := rfl
@[simp] theorem State.completeOk_f2 (s : State) (res : Bool) : (s.completeOk res).f2 = s.f2 := rfl
@[simp] theorem State.completeOk_f3 (s : State) (res : Bool) : (s.completeOk res).f3 = s.f3 := rfl
@[simp] theorem State.completeOk_c1 (s : State) (res : Bool) : (s.completeOk res).c1 = s.c1 := rfl
@[simp] theorem State.completeOk_c2 (s : State) (res : Bool) : (s.completeOk res).c2 = s.c2 := rfl
@[simp] theorem State.completeOk_c3 (s : State) (res : Bool) : (s.completeOk res).c3 = s.c3 := rfl
@[simp] theorem State.completeOk_ie (s : State) (res : Bool) : (s.completeOk res).ie = s.ie := rfl
@[simp] theorem State.completeOk_status (s : State) (res : Bool) : (s.completeOk res).status = { s.status with busy := false, done := true, err := false, res := res, errcode := 0 } := rfl
@[simp] theorem State.completeOk_cmd (s : State) (res : Bool) : (s.completeOk res).cmd = s.cmd := rfl
@[simp] theorem State.completeOk_attempts (s : State) (res : Bool) : (s.completeOk res).attempts = s.attempts := rfl
@[simp] theorem State.completeOk_params (s : State) (res : Bool) : (s.completeOk res).params = s.params := rfl
@[simp] theorem State.completeOk_rstN (s : State) (res : Bool) : (s.completeOk res).rstN = s.rstN := rfl
@[simp] theorem State.completeOk_rng (s : State) (res : Bool) : (s.completeOk res).rng = s.rng := rfl
@[simp] theorem State.completeOk_agenda (s : State) (res : Bool) : (s.completeOk res).agenda = s.agenda := rfl
@[simp] theorem State.completeOk_reads (s : State) (res : Bool) : (s.completeOk res).reads = s.reads := rfl
@[simp] theorem State.completeOk_freeCount (s : State) (res : Bool) : (s.completeOk res).freeCount = s.freeCount := rfl
@[simp] theorem State.completeOk_errLog (s : State) (res : Bool) : (s.completeOk res).errLog = s.errLog := rfl
@[simp] theorem State.completeOk_ovrLog (s : State) (res : Bool) : (s.completeOk res).ovrLog = s.ovrLog := rfl

/-! ### `completeErr` -/

@[simp] theorem State.completeErr_v (s : State) (e : Err) : (s.completeErr e).v = s.v := rfl
@[simp] theorem State.completeErr_p (s : State) (e : Err) : (s.completeErr e).p = s.p := rfl
@[simp] theorem State.completeErr_f2 (s : State) (e : Err) : (s.completeErr e).f2 = s.f2 := rfl
@[simp] theorem State.completeErr_f3 (s : State) (e : Err) : (s.completeErr e).f3 = s.f3 := rfl
@[simp] theorem State.completeErr_c1 (s : State) (e : Err) : (s.completeErr e).c1 = s.c1 := rfl
@[simp] theorem State.completeErr_c2 (s : State) (e : Err) : (s.completeErr e).c2 = s.c2 := rfl
@[simp] theorem State.completeErr_c3 (s : State) (e : Err) : (s.completeErr e).c3 = s.c3 := rfl
@[simp] theorem State.completeErr_ie (s : State) (e : Err) : (s.completeErr e).ie = s.ie := rfl
@[simp] theorem State.completeErr_status (s : State) (e : Err) : (s.completeErr e).status = { s.status with busy := false, done := true, err := true, res := false, errcode := e.code } := rfl
@[simp] theorem State.completeErr_cmd (s : State) (e : Err) : (s.completeErr e).cmd = s.cmd := rfl
@[simp] theorem State.completeErr_attempts (s : State) (e : Err) : (s.completeErr e).attempts = s.attempts := rfl
@[simp] theorem State.completeErr_params (s : State) (e : Err) : (s.completeErr e).params = s.params := rfl
@[simp] theorem State.completeErr_rstN (s : State) (e : Err) : (s.completeErr e).rstN = s.rstN := rfl
@[simp] theorem State.completeErr_rng (s : State) (e : Err) : (s.completeErr e).rng = s.rng := rfl
@[simp] theorem State.completeErr_agenda (s : State) (e : Err) : (s.completeErr e).agenda = s.agenda := rfl
@[simp] theorem State.completeErr_reads (s : State) (e : Err) : (s.completeErr e).reads = s.reads := rfl
@[simp] theorem State.completeErr_freeCount (s : State) (e : Err) : (s.completeErr e).freeCount = s.freeCount := rfl
@[simp] theorem State.completeErr_errLog (s : State) (e : Err) : (s.completeErr e).errLog = s.errLog ++ [(s.cmd, e)] := rfl
@[simp] theorem State.completeErr_ovrLog (s : State) (e : Err) : (s.completeErr e).ovrLog = s.ovrLog := rfl

/-! ### `afterNonces` -/

@[simp] theorem State.afterNonces_v (s : State) (r : SignResult) : (s.afterNonces r).v = s.v := rfl
@[simp] theorem State.afterNonces_p (s : State) (r : SignResult) : (s.afterNonces r).p = s.p := rfl
@[simp] theorem State.afterNonces_f2 (s : State) (r : SignResult) : (s.afterNonces r).f2 = s.f2 := rfl
@[simp] theorem State.afterNonces_f3 (s : State) (r : SignResult) : (s.afterNonces r).f3 = s.f3 := rfl
@[simp] theorem State.afterNonces_c1 (s : State) (r : SignResult) : (s.afterNonces r).c1 = s.c1 := rfl
@[simp] theorem State.afterNonces_c2 (s : State) (r : SignResult) : (s.afterNonces r).c2 = s.c2 := rfl
@[simp] theorem State.afterNonces_c3 (s : State) (r : SignResult) : (s.afterNonces r).c3 = s.c3 := rfl
@[simp] theorem State.afterNonces_ie (s : State) (r : SignResult) : (s.afterNonces r).ie = s.ie := rfl
@[simp] theorem State.afterNonces_status (s : State) (r : SignResult) : (s.afterNonces r).status = s.status := rfl
@[simp] theorem State.afterNonces_cmd (s : State) (r : SignResult) : (s.afterNonces r).cmd = s.cmd := rfl
@[simp] theorem State.afterNonces_attempts (s : State) (r : SignResult) : (s.afterNonces r).attempts = BitVec.ofNat 16 r.attempts := rfl
@[simp] theorem State.afterNonces_params (s : State) (r : SignResult) : (s.afterNonces r).params = s.params := rfl
@[simp] theorem State.afterNonces_rstN (s : State) (r : SignResult) : (s.afterNonces r).rstN = s.rstN := rfl
@[simp] theorem State.afterNonces_rng (s : State) (r : SignResult) : (s.afterNonces r).rng = r.rng := rfl
@[simp] theorem State.afterNonces_agenda (s : State) (r : SignResult) : (s.afterNonces r).agenda = s.agenda := rfl
@[simp] theorem State.afterNonces_reads (s : State) (r : SignResult) : (s.afterNonces r).reads = s.reads := rfl
@[simp] theorem State.afterNonces_freeCount (s : State) (r : SignResult) : (s.afterNonces r).freeCount = s.freeCount := rfl
@[simp] theorem State.afterNonces_errLog (s : State) (r : SignResult) : (s.afterNonces r).errLog = s.errLog := rfl
@[simp] theorem State.afterNonces_ovrLog (s : State) (r : SignResult) : (s.afterNonces r).ovrLog = s.ovrLog := rfl

/-! ### `acceptCmd` -/

@[simp] theorem State.acceptCmd_v (s : State) (w : Word32) : (s.acceptCmd w).v = s.v := rfl
@[simp] theorem State.acceptCmd_p (s : State) (w : Word32) : (s.acceptCmd w).p = s.p := rfl
@[simp] theorem State.acceptCmd_f2 (s : State) (w : Word32) : (s.acceptCmd w).f2 = s.f2 := rfl
@[simp] theorem State.acceptCmd_f3 (s : State) (w : Word32) : (s.acceptCmd w).f3 = s.f3 := rfl
@[simp] theorem State.acceptCmd_c1 (s : State) (w : Word32) : (s.acceptCmd w).c1 = s.c1 := rfl
@[simp] theorem State.acceptCmd_c2 (s : State) (w : Word32) : (s.acceptCmd w).c2 = s.c2 := rfl
@[simp] theorem State.acceptCmd_c3 (s : State) (w : Word32) : (s.acceptCmd w).c3 = s.c3 := rfl
@[simp] theorem State.acceptCmd_ie (s : State) (w : Word32) : (s.acceptCmd w).ie = s.ie := rfl
@[simp] theorem State.acceptCmd_status (s : State) (w : Word32) : (s.acceptCmd w).status = { s.status with busy := true, done := false, err := false, res := false, errcode := 0 } := rfl
@[simp] theorem State.acceptCmd_cmd (s : State) (w : Word32) : (s.acceptCmd w).cmd = w := rfl
@[simp] theorem State.acceptCmd_attempts (s : State) (w : Word32) : (s.acceptCmd w).attempts = s.attempts := rfl
@[simp] theorem State.acceptCmd_params (s : State) (w : Word32) : (s.acceptCmd w).params = s.params := rfl
@[simp] theorem State.acceptCmd_rstN (s : State) (w : Word32) : (s.acceptCmd w).rstN = s.rstN := rfl
@[simp] theorem State.acceptCmd_rng (s : State) (w : Word32) : (s.acceptCmd w).rng = s.rng := rfl
@[simp] theorem State.acceptCmd_agenda (s : State) (w : Word32) : (s.acceptCmd w).agenda = s.agenda := rfl
@[simp] theorem State.acceptCmd_reads (s : State) (w : Word32) : (s.acceptCmd w).reads = s.reads := rfl
@[simp] theorem State.acceptCmd_freeCount (s : State) (w : Word32) : (s.acceptCmd w).freeCount = s.freeCount := rfl
@[simp] theorem State.acceptCmd_errLog (s : State) (w : Word32) : (s.acceptCmd w).errLog = s.errLog := rfl
@[simp] theorem State.acceptCmd_ovrLog (s : State) (w : Word32) : (s.acceptCmd w).ovrLog = s.ovrLog := rfl

/-! ### `overrun` -/

@[simp] theorem State.overrun_v (s : State) (off : Offset) (d : Word32) : (s.overrun off d).v = s.v := rfl
@[simp] theorem State.overrun_p (s : State) (off : Offset) (d : Word32) : (s.overrun off d).p = s.p := rfl
@[simp] theorem State.overrun_f2 (s : State) (off : Offset) (d : Word32) : (s.overrun off d).f2 = s.f2 := rfl
@[simp] theorem State.overrun_f3 (s : State) (off : Offset) (d : Word32) : (s.overrun off d).f3 = s.f3 := rfl
@[simp] theorem State.overrun_c1 (s : State) (off : Offset) (d : Word32) : (s.overrun off d).c1 = s.c1 := rfl
@[simp] theorem State.overrun_c2 (s : State) (off : Offset) (d : Word32) : (s.overrun off d).c2 = s.c2 := rfl
@[simp] theorem State.overrun_c3 (s : State) (off : Offset) (d : Word32) : (s.overrun off d).c3 = s.c3 := rfl
@[simp] theorem State.overrun_ie (s : State) (off : Offset) (d : Word32) : (s.overrun off d).ie = s.ie := rfl
@[simp] theorem State.overrun_status (s : State) (off : Offset) (d : Word32) : (s.overrun off d).status = { s.status with ovr := true } := rfl
@[simp] theorem State.overrun_cmd (s : State) (off : Offset) (d : Word32) : (s.overrun off d).cmd = s.cmd := rfl
@[simp] theorem State.overrun_attempts (s : State) (off : Offset) (d : Word32) : (s.overrun off d).attempts = s.attempts := rfl
@[simp] theorem State.overrun_params (s : State) (off : Offset) (d : Word32) : (s.overrun off d).params = s.params := rfl
@[simp] theorem State.overrun_rstN (s : State) (off : Offset) (d : Word32) : (s.overrun off d).rstN = s.rstN := rfl
@[simp] theorem State.overrun_rng (s : State) (off : Offset) (d : Word32) : (s.overrun off d).rng = s.rng := rfl
@[simp] theorem State.overrun_agenda (s : State) (off : Offset) (d : Word32) : (s.overrun off d).agenda = s.agenda := rfl
@[simp] theorem State.overrun_reads (s : State) (off : Offset) (d : Word32) : (s.overrun off d).reads = s.reads := rfl
@[simp] theorem State.overrun_freeCount (s : State) (off : Offset) (d : Word32) : (s.overrun off d).freeCount = s.freeCount := rfl
@[simp] theorem State.overrun_errLog (s : State) (off : Offset) (d : Word32) : (s.overrun off d).errLog = s.errLog := rfl
@[simp] theorem State.overrun_ovrLog (s : State) (off : Offset) (d : Word32) : (s.overrun off d).ovrLog = s.ovrLog ++ [(off, d)] := rfl

/-! ### `noteRead` -/

@[simp] theorem State.noteRead_v (s : State) (w : Word32) : (s.noteRead w).v = s.v := rfl
@[simp] theorem State.noteRead_p (s : State) (w : Word32) : (s.noteRead w).p = s.p := rfl
@[simp] theorem State.noteRead_f2 (s : State) (w : Word32) : (s.noteRead w).f2 = s.f2 := rfl
@[simp] theorem State.noteRead_f3 (s : State) (w : Word32) : (s.noteRead w).f3 = s.f3 := rfl
@[simp] theorem State.noteRead_c1 (s : State) (w : Word32) : (s.noteRead w).c1 = s.c1 := rfl
@[simp] theorem State.noteRead_c2 (s : State) (w : Word32) : (s.noteRead w).c2 = s.c2 := rfl
@[simp] theorem State.noteRead_c3 (s : State) (w : Word32) : (s.noteRead w).c3 = s.c3 := rfl
@[simp] theorem State.noteRead_ie (s : State) (w : Word32) : (s.noteRead w).ie = s.ie := rfl
@[simp] theorem State.noteRead_status (s : State) (w : Word32) : (s.noteRead w).status = s.status := rfl
@[simp] theorem State.noteRead_cmd (s : State) (w : Word32) : (s.noteRead w).cmd = s.cmd := rfl
@[simp] theorem State.noteRead_attempts (s : State) (w : Word32) : (s.noteRead w).attempts = s.attempts := rfl
@[simp] theorem State.noteRead_params (s : State) (w : Word32) : (s.noteRead w).params = s.params := rfl
@[simp] theorem State.noteRead_rstN (s : State) (w : Word32) : (s.noteRead w).rstN = s.rstN := rfl
@[simp] theorem State.noteRead_rng (s : State) (w : Word32) : (s.noteRead w).rng = s.rng := rfl
@[simp] theorem State.noteRead_agenda (s : State) (w : Word32) : (s.noteRead w).agenda = s.agenda := rfl
@[simp] theorem State.noteRead_reads (s : State) (w : Word32) : (s.noteRead w).reads = s.reads ++ [w] := rfl
@[simp] theorem State.noteRead_freeCount (s : State) (w : Word32) : (s.noteRead w).freeCount = s.freeCount := rfl
@[simp] theorem State.noteRead_errLog (s : State) (w : Word32) : (s.noteRead w).errLog = s.errLog := rfl
@[simp] theorem State.noteRead_ovrLog (s : State) (w : Word32) : (s.noteRead w).ovrLog = s.ovrLog := rfl

/-! ### `writeStatus` -/

@[simp] theorem State.writeStatus_v (s : State) (d : Word32) : (s.writeStatus d).v = s.v := rfl
@[simp] theorem State.writeStatus_p (s : State) (d : Word32) : (s.writeStatus d).p = s.p := rfl
@[simp] theorem State.writeStatus_f2 (s : State) (d : Word32) : (s.writeStatus d).f2 = s.f2 := rfl
@[simp] theorem State.writeStatus_f3 (s : State) (d : Word32) : (s.writeStatus d).f3 = s.f3 := rfl
@[simp] theorem State.writeStatus_c1 (s : State) (d : Word32) : (s.writeStatus d).c1 = s.c1 := rfl
@[simp] theorem State.writeStatus_c2 (s : State) (d : Word32) : (s.writeStatus d).c2 = s.c2 := rfl
@[simp] theorem State.writeStatus_c3 (s : State) (d : Word32) : (s.writeStatus d).c3 = s.c3 := rfl
@[simp] theorem State.writeStatus_ie (s : State) (d : Word32) : (s.writeStatus d).ie = s.ie := rfl
@[simp] theorem State.writeStatus_status (s : State) (d : Word32) : (s.writeStatus d).status = { s.status with done := s.status.done && !d.getLsbD 1, ovr := s.status.ovr && !d.getLsbD 4 } := rfl
@[simp] theorem State.writeStatus_cmd (s : State) (d : Word32) : (s.writeStatus d).cmd = s.cmd := rfl
@[simp] theorem State.writeStatus_attempts (s : State) (d : Word32) : (s.writeStatus d).attempts = s.attempts := rfl
@[simp] theorem State.writeStatus_params (s : State) (d : Word32) : (s.writeStatus d).params = s.params := rfl
@[simp] theorem State.writeStatus_rstN (s : State) (d : Word32) : (s.writeStatus d).rstN = s.rstN := rfl
@[simp] theorem State.writeStatus_rng (s : State) (d : Word32) : (s.writeStatus d).rng = s.rng := rfl
@[simp] theorem State.writeStatus_agenda (s : State) (d : Word32) : (s.writeStatus d).agenda = s.agenda := rfl
@[simp] theorem State.writeStatus_reads (s : State) (d : Word32) : (s.writeStatus d).reads = s.reads := rfl
@[simp] theorem State.writeStatus_freeCount (s : State) (d : Word32) : (s.writeStatus d).freeCount = s.freeCount := rfl
@[simp] theorem State.writeStatus_errLog (s : State) (d : Word32) : (s.writeStatus d).errLog = s.errLog := rfl
@[simp] theorem State.writeStatus_ovrLog (s : State) (d : Word32) : (s.writeStatus d).ovrLog = s.ovrLog := rfl

/-! ### `resetBlock` -/

@[simp] theorem State.resetBlock_v (s : State) : (s.resetBlock).v = State.reset.v := rfl
@[simp] theorem State.resetBlock_p (s : State) : (s.resetBlock).p = State.reset.p := rfl
@[simp] theorem State.resetBlock_f2 (s : State) : (s.resetBlock).f2 = State.reset.f2 := rfl
@[simp] theorem State.resetBlock_f3 (s : State) : (s.resetBlock).f3 = State.reset.f3 := rfl
@[simp] theorem State.resetBlock_c1 (s : State) : (s.resetBlock).c1 = State.reset.c1 := rfl
@[simp] theorem State.resetBlock_c2 (s : State) : (s.resetBlock).c2 = State.reset.c2 := rfl
@[simp] theorem State.resetBlock_c3 (s : State) : (s.resetBlock).c3 = State.reset.c3 := rfl
@[simp] theorem State.resetBlock_ie (s : State) : (s.resetBlock).ie = State.reset.ie := rfl
@[simp] theorem State.resetBlock_status (s : State) : (s.resetBlock).status = State.reset.status := rfl
@[simp] theorem State.resetBlock_cmd (s : State) : (s.resetBlock).cmd = State.reset.cmd := rfl
@[simp] theorem State.resetBlock_attempts (s : State) : (s.resetBlock).attempts = State.reset.attempts := rfl
@[simp] theorem State.resetBlock_params (s : State) : (s.resetBlock).params = s.params := rfl
@[simp] theorem State.resetBlock_rstN (s : State) : (s.resetBlock).rstN = s.rstN := rfl
@[simp] theorem State.resetBlock_rng (s : State) : (s.resetBlock).rng = s.rng.skip s.abandonedDraws := rfl
@[simp] theorem State.resetBlock_agenda (s : State) : (s.resetBlock).agenda = s.agenda := rfl
@[simp] theorem State.resetBlock_reads (s : State) : (s.resetBlock).reads = s.reads := rfl
@[simp] theorem State.resetBlock_freeCount (s : State) : (s.resetBlock).freeCount = if s.pending then s.freeCount + 1 else s.freeCount := rfl
@[simp] theorem State.resetBlock_errLog (s : State) : (s.resetBlock).errLog = s.errLog := rfl
@[simp] theorem State.resetBlock_ovrLog (s : State) : (s.resetBlock).ovrLog = s.ovrLog := rfl

/-! ### `invalidateCurve` -/

@[simp] theorem State.invalidateCurve_v (s : State) (c : CIdx) : (s.invalidateCurve c).v = s.v := rfl
@[simp] theorem State.invalidateCurve_p (s : State) (c : CIdx) : (s.invalidateCurve c).p = mapFile (PointReg.dropCurve c) s.p := rfl
@[simp] theorem State.invalidateCurve_f2 (s : State) (c : CIdx) : (s.invalidateCurve c).f2 = s.f2 := rfl
@[simp] theorem State.invalidateCurve_f3 (s : State) (c : CIdx) : (s.invalidateCurve c).f3 = s.f3 := rfl
@[simp] theorem State.invalidateCurve_c1 (s : State) (c : CIdx) : (s.invalidateCurve c).c1 = s.c1 := rfl
@[simp] theorem State.invalidateCurve_c2 (s : State) (c : CIdx) : (s.invalidateCurve c).c2 = s.c2 := rfl
@[simp] theorem State.invalidateCurve_c3 (s : State) (c : CIdx) : (s.invalidateCurve c).c3 = s.c3 := rfl
@[simp] theorem State.invalidateCurve_ie (s : State) (c : CIdx) : (s.invalidateCurve c).ie = s.ie := rfl
@[simp] theorem State.invalidateCurve_status (s : State) (c : CIdx) : (s.invalidateCurve c).status = s.status := rfl
@[simp] theorem State.invalidateCurve_cmd (s : State) (c : CIdx) : (s.invalidateCurve c).cmd = s.cmd := rfl
@[simp] theorem State.invalidateCurve_attempts (s : State) (c : CIdx) : (s.invalidateCurve c).attempts = s.attempts := rfl
@[simp] theorem State.invalidateCurve_params (s : State) (c : CIdx) : (s.invalidateCurve c).params = s.params := rfl
@[simp] theorem State.invalidateCurve_rstN (s : State) (c : CIdx) : (s.invalidateCurve c).rstN = s.rstN := rfl
@[simp] theorem State.invalidateCurve_rng (s : State) (c : CIdx) : (s.invalidateCurve c).rng = s.rng := rfl
@[simp] theorem State.invalidateCurve_agenda (s : State) (c : CIdx) : (s.invalidateCurve c).agenda = s.agenda := rfl
@[simp] theorem State.invalidateCurve_reads (s : State) (c : CIdx) : (s.invalidateCurve c).reads = s.reads := rfl
@[simp] theorem State.invalidateCurve_freeCount (s : State) (c : CIdx) : (s.invalidateCurve c).freeCount = s.freeCount := rfl
@[simp] theorem State.invalidateCurve_errLog (s : State) (c : CIdx) : (s.invalidateCurve c).errLog = s.errLog := rfl
@[simp] theorem State.invalidateCurve_ovrLog (s : State) (c : CIdx) : (s.invalidateCurve c).ovrLog = s.ovrLog := rfl

/-! ### `setField` -/

@[simp] theorem State.setField_v (s : State) (f : FIdx) (x : FieldSlot) : (s.setField f x).v = s.v := by unfold State.setField; split <;> rfl
@[simp] theorem State.setField_p (s : State) (f : FIdx) (x : FieldSlot) : (s.setField f x).p = s.p := by unfold State.setField; split <;> rfl
@[simp] theorem State.setField_c1 (s : State) (f : FIdx) (x : FieldSlot) : (s.setField f x).c1 = s.c1 := by unfold State.setField; split <;> rfl
@[simp] theorem State.setField_c2 (s : State) (f : FIdx) (x : FieldSlot) : (s.setField f x).c2 = s.c2 := by unfold State.setField; split <;> rfl
@[simp] theorem State.setField_c3 (s : State) (f : FIdx) (x : FieldSlot) : (s.setField f x).c3 = s.c3 := by unfold State.setField; split <;> rfl
@[simp] theorem State.setField_ie (s : State) (f : FIdx) (x : FieldSlot) : (s.setField f x).ie = s.ie := by unfold State.setField; split <;> rfl
@[simp] theorem State.setField_status (s : State) (f : FIdx) (x : FieldSlot) : (s.setField f x).status = s.status := by unfold State.setField; split <;> rfl
@[simp] theorem State.setField_cmd (s : State) (f : FIdx) (x : FieldSlot) : (s.setField f x).cmd = s.cmd := by unfold State.setField; split <;> rfl
@[simp] theorem State.setField_attempts (s : State) (f : FIdx) (x : FieldSlot) : (s.setField f x).attempts = s.attempts := by unfold State.setField; split <;> rfl
@[simp] theorem State.setField_params (s : State) (f : FIdx) (x : FieldSlot) : (s.setField f x).params = s.params := by unfold State.setField; split <;> rfl
@[simp] theorem State.setField_rstN (s : State) (f : FIdx) (x : FieldSlot) : (s.setField f x).rstN = s.rstN := by unfold State.setField; split <;> rfl
@[simp] theorem State.setField_rng (s : State) (f : FIdx) (x : FieldSlot) : (s.setField f x).rng = s.rng := by unfold State.setField; split <;> rfl
@[simp] theorem State.setField_agenda (s : State) (f : FIdx) (x : FieldSlot) : (s.setField f x).agenda = s.agenda := by unfold State.setField; split <;> rfl
@[simp] theorem State.setField_reads (s : State) (f : FIdx) (x : FieldSlot) : (s.setField f x).reads = s.reads := by unfold State.setField; split <;> rfl
@[simp] theorem State.setField_freeCount (s : State) (f : FIdx) (x : FieldSlot) : (s.setField f x).freeCount = s.freeCount := by unfold State.setField; split <;> rfl
@[simp] theorem State.setField_errLog (s : State) (f : FIdx) (x : FieldSlot) : (s.setField f x).errLog = s.errLog := by unfold State.setField; split <;> rfl
@[simp] theorem State.setField_ovrLog (s : State) (f : FIdx) (x : FieldSlot) : (s.setField f x).ovrLog = s.ovrLog := by unfold State.setField; split <;> rfl

/-! ### `setCurve` -/

@[simp] theorem State.setCurve_v (s : State) (c : CIdx) (x : CurveSlot) : (s.setCurve c x).v = s.v := by unfold State.setCurve; split <;> rfl
@[simp] theorem State.setCurve_p (s : State) (c : CIdx) (x : CurveSlot) : (s.setCurve c x).p = s.p := by unfold State.setCurve; split <;> rfl
@[simp] theorem State.setCurve_f2 (s : State) (c : CIdx) (x : CurveSlot) : (s.setCurve c x).f2 = s.f2 := by unfold State.setCurve; split <;> rfl
@[simp] theorem State.setCurve_f3 (s : State) (c : CIdx) (x : CurveSlot) : (s.setCurve c x).f3 = s.f3 := by unfold State.setCurve; split <;> rfl
@[simp] theorem State.setCurve_ie (s : State) (c : CIdx) (x : CurveSlot) : (s.setCurve c x).ie = s.ie := by unfold State.setCurve; split <;> rfl
@[simp] theorem State.setCurve_status (s : State) (c : CIdx) (x : CurveSlot) : (s.setCurve c x).status = s.status := by unfold State.setCurve; split <;> rfl
@[simp] theorem State.setCurve_cmd (s : State) (c : CIdx) (x : CurveSlot) : (s.setCurve c x).cmd = s.cmd := by unfold State.setCurve; split <;> rfl
@[simp] theorem State.setCurve_attempts (s : State) (c : CIdx) (x : CurveSlot) : (s.setCurve c x).attempts = s.attempts := by unfold State.setCurve; split <;> rfl
@[simp] theorem State.setCurve_params (s : State) (c : CIdx) (x : CurveSlot) : (s.setCurve c x).params = s.params := by unfold State.setCurve; split <;> rfl
@[simp] theorem State.setCurve_rstN (s : State) (c : CIdx) (x : CurveSlot) : (s.setCurve c x).rstN = s.rstN := by unfold State.setCurve; split <;> rfl
@[simp] theorem State.setCurve_rng (s : State) (c : CIdx) (x : CurveSlot) : (s.setCurve c x).rng = s.rng := by unfold State.setCurve; split <;> rfl
@[simp] theorem State.setCurve_agenda (s : State) (c : CIdx) (x : CurveSlot) : (s.setCurve c x).agenda = s.agenda := by unfold State.setCurve; split <;> rfl
@[simp] theorem State.setCurve_reads (s : State) (c : CIdx) (x : CurveSlot) : (s.setCurve c x).reads = s.reads := by unfold State.setCurve; split <;> rfl
@[simp] theorem State.setCurve_freeCount (s : State) (c : CIdx) (x : CurveSlot) : (s.setCurve c x).freeCount = s.freeCount := by unfold State.setCurve; split <;> rfl
@[simp] theorem State.setCurve_errLog (s : State) (c : CIdx) (x : CurveSlot) : (s.setCurve c x).errLog = s.errLog := by unfold State.setCurve; split <;> rfl
@[simp] theorem State.setCurve_ovrLog (s : State) (c : CIdx) (x : CurveSlot) : (s.setCurve c x).ovrLog = s.ovrLog := by unfold State.setCurve; split <;> rfl

/-! ### `invalidateCurveOver` -/

@[simp] theorem State.invalidateCurveOver_v (s : State) (f : FIdx) (c : CIdx) : (s.invalidateCurveOver f c).v = s.v := by unfold State.invalidateCurveOver; split <;> simp
@[simp] theorem State.invalidateCurveOver_f2 (s : State) (f : FIdx) (c : CIdx) : (s.invalidateCurveOver f c).f2 = s.f2 := by unfold State.invalidateCurveOver; split <;> simp
@[simp] theorem State.invalidateCurveOver_f3 (s : State) (f : FIdx) (c : CIdx) : (s.invalidateCurveOver f c).f3 = s.f3 := by unfold State.invalidateCurveOver; split <;> simp
@[simp] theorem State.invalidateCurveOver_ie (s : State) (f : FIdx) (c : CIdx) : (s.invalidateCurveOver f c).ie = s.ie := by unfold State.invalidateCurveOver; split <;> simp
@[simp] theorem State.invalidateCurveOver_status (s : State) (f : FIdx) (c : CIdx) : (s.invalidateCurveOver f c).status = s.status := by unfold State.invalidateCurveOver; split <;> simp
@[simp] theorem State.invalidateCurveOver_cmd (s : State) (f : FIdx) (c : CIdx) : (s.invalidateCurveOver f c).cmd = s.cmd := by unfold State.invalidateCurveOver; split <;> simp
@[simp] theorem State.invalidateCurveOver_attempts (s : State) (f : FIdx) (c : CIdx) : (s.invalidateCurveOver f c).attempts = s.attempts := by unfold State.invalidateCurveOver; split <;> simp
@[simp] theorem State.invalidateCurveOver_params (s : State) (f : FIdx) (c : CIdx) : (s.invalidateCurveOver f c).params = s.params := by unfold State.invalidateCurveOver; split <;> simp
@[simp] theorem State.invalidateCurveOver_rstN (s : State) (f : FIdx) (c : CIdx) : (s.invalidateCurveOver f c).rstN = s.rstN := by unfold State.invalidateCurveOver; split <;> simp
@[simp] theorem State.invalidateCurveOver_rng (s : State) (f : FIdx) (c : CIdx) : (s.invalidateCurveOver f c).rng = s.rng := by unfold State.invalidateCurveOver; split <;> simp
@[simp] theorem State.invalidateCurveOver_agenda (s : State) (f : FIdx) (c : CIdx) : (s.invalidateCurveOver f c).agenda = s.agenda := by unfold State.invalidateCurveOver; split <;> simp
@[simp] theorem State.invalidateCurveOver_reads (s : State) (f : FIdx) (c : CIdx) : (s.invalidateCurveOver f c).reads = s.reads := by unfold State.invalidateCurveOver; split <;> simp
@[simp] theorem State.invalidateCurveOver_freeCount (s : State) (f : FIdx) (c : CIdx) : (s.invalidateCurveOver f c).freeCount = s.freeCount := by unfold State.invalidateCurveOver; split <;> simp
@[simp] theorem State.invalidateCurveOver_errLog (s : State) (f : FIdx) (c : CIdx) : (s.invalidateCurveOver f c).errLog = s.errLog := by unfold State.invalidateCurveOver; split <;> simp
@[simp] theorem State.invalidateCurveOver_ovrLog (s : State) (f : FIdx) (c : CIdx) : (s.invalidateCurveOver f c).ovrLog = s.ovrLog := by unfold State.invalidateCurveOver; split <;> simp

/-! ### `invalidateField` -/

@[simp] theorem State.invalidateField_v (s : State) (f : FIdx) : (s.invalidateField f).v = mapFile (VReg.dropField f) s.v := by simp [State.invalidateField]
@[simp] theorem State.invalidateField_f2 (s : State) (f : FIdx) : (s.invalidateField f).f2 = s.f2 := by simp [State.invalidateField]
@[simp] theorem State.invalidateField_f3 (s : State) (f : FIdx) : (s.invalidateField f).f3 = s.f3 := by simp [State.invalidateField]
@[simp] theorem State.invalidateField_ie (s : State) (f : FIdx) : (s.invalidateField f).ie = s.ie := by simp [State.invalidateField]
@[simp] theorem State.invalidateField_status (s : State) (f : FIdx) : (s.invalidateField f).status = s.status := by simp [State.invalidateField]
@[simp] theorem State.invalidateField_cmd (s : State) (f : FIdx) : (s.invalidateField f).cmd = s.cmd := by simp [State.invalidateField]
@[simp] theorem State.invalidateField_attempts (s : State) (f : FIdx) : (s.invalidateField f).attempts = s.attempts := by simp [State.invalidateField]
@[simp] theorem State.invalidateField_params (s : State) (f : FIdx) : (s.invalidateField f).params = s.params := by simp [State.invalidateField]
@[simp] theorem State.invalidateField_rstN (s : State) (f : FIdx) : (s.invalidateField f).rstN = s.rstN := by simp [State.invalidateField]
@[simp] theorem State.invalidateField_rng (s : State) (f : FIdx) : (s.invalidateField f).rng = s.rng := by simp [State.invalidateField]
@[simp] theorem State.invalidateField_agenda (s : State) (f : FIdx) : (s.invalidateField f).agenda = s.agenda := by simp [State.invalidateField]
@[simp] theorem State.invalidateField_reads (s : State) (f : FIdx) : (s.invalidateField f).reads = s.reads := by simp [State.invalidateField]
@[simp] theorem State.invalidateField_freeCount (s : State) (f : FIdx) : (s.invalidateField f).freeCount = s.freeCount := by simp [State.invalidateField]
@[simp] theorem State.invalidateField_errLog (s : State) (f : FIdx) : (s.invalidateField f).errLog = s.errLog := by simp [State.invalidateField]
@[simp] theorem State.invalidateField_ovrLog (s : State) (f : FIdx) : (s.invalidateField f).ovrLog = s.ovrLog := by simp [State.invalidateField]

end Sys2Proof.Machine
end

