-- ==== Sys2Proof/Laws/Ops.lean ====
section
/-! SUPPORT. What the shared operations can do, said once: the register files, the slots, invalidation, the
random draws, the operand reads, and the commit of a command. -/

namespace Sys2Proof.Machine

/-! ### Accessors are unchanged by the updates that do not concern them -/

@[simp] theorem State.preg_setV (s : State) (i : VIdx) (x : VReg) (j : PIdx) : (s.setV i x).preg j = s.preg j := rfl
@[simp] theorem State.fieldSlot_setV (s : State) (i : VIdx) (x : VReg) (g : FIdx) : (s.setV i x).fieldSlot g = s.fieldSlot g := rfl
@[simp] theorem State.modOf_setV (s : State) (i : VIdx) (x : VReg) (g : FIdx) : (s.setV i x).modOf g = s.modOf g := rfl
@[simp] theorem State.curveSlot_setV (s : State) (i : VIdx) (x : VReg) (d : CIdx) : (s.setV i x).curveSlot d = s.curveSlot d := rfl
@[simp] theorem State.curveKey_setV (s : State) (i : VIdx) (x : VReg) (d : CIdx) : (s.setV i x).curveKey d = s.curveKey d := rfl
@[simp] theorem State.vreg_setP (s : State) (i : PIdx) (q : Point) (j : VIdx) : (s.setP i q).vreg j = s.vreg j := rfl
@[simp] theorem State.fieldSlot_setP (s : State) (i : PIdx) (q : Point) (g : FIdx) : (s.setP i q).fieldSlot g = s.fieldSlot g := rfl
@[simp] theorem State.modOf_setP (s : State) (i : PIdx) (q : Point) (g : FIdx) : (s.setP i q).modOf g = s.modOf g := rfl
@[simp] theorem State.curveSlot_setP (s : State) (i : PIdx) (q : Point) (d : CIdx) : (s.setP i q).curveSlot d = s.curveSlot d := rfl
@[simp] theorem State.curveKey_setP (s : State) (i : PIdx) (q : Point) (d : CIdx) : (s.setP i q).curveKey d = s.curveKey d := rfl
@[simp] theorem State.vreg_completeOk (s : State) (res : Bool) (j : VIdx) : (s.completeOk res).vreg j = s.vreg j := rfl
@[simp] theorem State.preg_completeOk (s : State) (res : Bool) (j : PIdx) : (s.completeOk res).preg j = s.preg j := rfl
@[simp] theorem State.fieldSlot_completeOk (s : State) (res : Bool) (g : FIdx) : (s.completeOk res).fieldSlot g = s.fieldSlot g := rfl
@[simp] theorem State.modOf_completeOk (s : State) (res : Bool) (g : FIdx) : (s.completeOk res).modOf g = s.modOf g := rfl
@[simp] theorem State.curveSlot_completeOk (s : State) (res : Bool) (d : CIdx) : (s.completeOk res).curveSlot d = s.curveSlot d := rfl
@[simp] theorem State.curveKey_completeOk (s : State) (res : Bool) (d : CIdx) : (s.completeOk res).curveKey d = s.curveKey d := rfl
@[simp] theorem State.vreg_completeErr (s : State) (e : Err) (j : VIdx) : (s.completeErr e).vreg j = s.vreg j := rfl
@[simp] theorem State.preg_completeErr (s : State) (e : Err) (j : PIdx) : (s.completeErr e).preg j = s.preg j := rfl
@[simp] theorem State.fieldSlot_completeErr (s : State) (e : Err) (g : FIdx) : (s.completeErr e).fieldSlot g = s.fieldSlot g := rfl
@[simp] theorem State.modOf_completeErr (s : State) (e : Err) (g : FIdx) : (s.completeErr e).modOf g = s.modOf g := rfl
@[simp] theorem State.curveSlot_completeErr (s : State) (e : Err) (d : CIdx) : (s.completeErr e).curveSlot d = s.curveSlot d := rfl
@[simp] theorem State.curveKey_completeErr (s : State) (e : Err) (d : CIdx) : (s.completeErr e).curveKey d = s.curveKey d := rfl
@[simp] theorem State.vreg_afterNonces (s : State) (r : SignResult) (j : VIdx) : (s.afterNonces r).vreg j = s.vreg j := rfl
@[simp] theorem State.preg_afterNonces (s : State) (r : SignResult) (j : PIdx) : (s.afterNonces r).preg j = s.preg j := rfl
@[simp] theorem State.fieldSlot_afterNonces (s : State) (r : SignResult) (g : FIdx) : (s.afterNonces r).fieldSlot g = s.fieldSlot g := rfl
@[simp] theorem State.modOf_afterNonces (s : State) (r : SignResult) (g : FIdx) : (s.afterNonces r).modOf g = s.modOf g := rfl
@[simp] theorem State.curveSlot_afterNonces (s : State) (r : SignResult) (d : CIdx) : (s.afterNonces r).curveSlot d = s.curveSlot d := rfl
@[simp] theorem State.curveKey_afterNonces (s : State) (r : SignResult) (d : CIdx) : (s.afterNonces r).curveKey d = s.curveKey d := rfl
@[simp] theorem State.vreg_acceptCmd (s : State) (w : Word32) (j : VIdx) : (s.acceptCmd w).vreg j = s.vreg j := rfl
@[simp] theorem State.preg_acceptCmd (s : State) (w : Word32) (j : PIdx) : (s.acceptCmd w).preg j = s.preg j := rfl
@[simp] theorem State.fieldSlot_acceptCmd (s : State) (w : Word32) (g : FIdx) : (s.acceptCmd w).fieldSlot g = s.fieldSlot g := rfl
@[simp] theorem State.modOf_acceptCmd (s : State) (w : Word32) (g : FIdx) : (s.acceptCmd w).modOf g = s.modOf g := rfl
@[simp] theorem State.curveSlot_acceptCmd (s : State) (w : Word32) (d : CIdx) : (s.acceptCmd w).curveSlot d = s.curveSlot d := rfl
@[simp] theorem State.curveKey_acceptCmd (s : State) (w : Word32) (d : CIdx) : (s.acceptCmd w).curveKey d = s.curveKey d := rfl
@[simp] theorem State.vreg_overrun (s : State) (off : Offset) (w : Word32) (j : VIdx) : (s.overrun off w).vreg j = s.vreg j := rfl
@[simp] theorem State.preg_overrun (s : State) (off : Offset) (w : Word32) (j : PIdx) : (s.overrun off w).preg j = s.preg j := rfl
@[simp] theorem State.fieldSlot_overrun (s : State) (off : Offset) (w : Word32) (g : FIdx) : (s.overrun off w).fieldSlot g = s.fieldSlot g := rfl
@[simp] theorem State.modOf_overrun (s : State) (off : Offset) (w : Word32) (g : FIdx) : (s.overrun off w).modOf g = s.modOf g := rfl
@[simp] theorem State.curveSlot_overrun (s : State) (off : Offset) (w : Word32) (d : CIdx) : (s.overrun off w).curveSlot d = s.curveSlot d := rfl
@[simp] theorem State.curveKey_overrun (s : State) (off : Offset) (w : Word32) (d : CIdx) : (s.overrun off w).curveKey d = s.curveKey d := rfl
@[simp] theorem State.vreg_noteRead (s : State) (w : Word32) (j : VIdx) : (s.noteRead w).vreg j = s.vreg j := rfl
@[simp] theorem State.preg_noteRead (s : State) (w : Word32) (j : PIdx) : (s.noteRead w).preg j = s.preg j := rfl
@[simp] theorem State.fieldSlot_noteRead (s : State) (w : Word32) (g : FIdx) : (s.noteRead w).fieldSlot g = s.fieldSlot g := rfl
@[simp] theorem State.modOf_noteRead (s : State) (w : Word32) (g : FIdx) : (s.noteRead w).modOf g = s.modOf g := rfl
@[simp] theorem State.curveSlot_noteRead (s : State) (w : Word32) (d : CIdx) : (s.noteRead w).curveSlot d = s.curveSlot d := rfl
@[simp] theorem State.curveKey_noteRead (s : State) (w : Word32) (d : CIdx) : (s.noteRead w).curveKey d = s.curveKey d := rfl
@[simp] theorem State.vreg_writeStatus (s : State) (w : Word32) (j : VIdx) : (s.writeStatus w).vreg j = s.vreg j := rfl
@[simp] theorem State.preg_writeStatus (s : State) (w : Word32) (j : PIdx) : (s.writeStatus w).preg j = s.preg j := rfl
@[simp] theorem State.fieldSlot_writeStatus (s : State) (w : Word32) (g : FIdx) : (s.writeStatus w).fieldSlot g = s.fieldSlot g := rfl
@[simp] theorem State.modOf_writeStatus (s : State) (w : Word32) (g : FIdx) : (s.writeStatus w).modOf g = s.modOf g := rfl
@[simp] theorem State.curveSlot_writeStatus (s : State) (w : Word32) (d : CIdx) : (s.writeStatus w).curveSlot d = s.curveSlot d := rfl
@[simp] theorem State.curveKey_writeStatus (s : State) (w : Word32) (d : CIdx) : (s.writeStatus w).curveKey d = s.curveKey d := rfl
@[simp] theorem State.vreg_invalidateCurve (s : State) (c : CIdx) (j : VIdx) : (s.invalidateCurve c).vreg j = s.vreg j := rfl
@[simp] theorem State.fieldSlot_invalidateCurve (s : State) (c : CIdx) (g : FIdx) : (s.invalidateCurve c).fieldSlot g = s.fieldSlot g := rfl
@[simp] theorem State.modOf_invalidateCurve (s : State) (c : CIdx) (g : FIdx) : (s.invalidateCurve c).modOf g = s.modOf g := rfl
@[simp] theorem State.curveSlot_invalidateCurve (s : State) (c : CIdx) (d : CIdx) : (s.invalidateCurve c).curveSlot d = s.curveSlot d := rfl
@[simp] theorem State.curveKey_invalidateCurve (s : State) (c : CIdx) (d : CIdx) : (s.invalidateCurve c).curveKey d = s.curveKey d := rfl
@[simp] theorem State.vreg_setField (s : State) (f : FIdx) (x : FieldSlot) (j : VIdx) : (s.setField f x).vreg j = s.vreg j := by simp [State.vreg]
@[simp] theorem State.preg_setField (s : State) (f : FIdx) (x : FieldSlot) (j : PIdx) : (s.setField f x).preg j = s.preg j := by simp [State.preg]
@[simp] theorem State.curveSlot_setField (s : State) (f : FIdx) (x : FieldSlot) (d : CIdx) : (s.setField f x).curveSlot d = s.curveSlot d := by simp [State.curveSlot]
@[simp] theorem State.vreg_setCurve (s : State) (c : CIdx) (x : CurveSlot) (j : VIdx) : (s.setCurve c x).vreg j = s.vreg j := by simp [State.vreg]
@[simp] theorem State.preg_setCurve (s : State) (c : CIdx) (x : CurveSlot) (j : PIdx) : (s.setCurve c x).preg j = s.preg j := by simp [State.preg]
@[simp] theorem State.fieldSlot_setCurve (s : State) (c : CIdx) (x : CurveSlot) (g : FIdx) : (s.setCurve c x).fieldSlot g = s.fieldSlot g := by simp [State.fieldSlot]
@[simp] theorem State.modOf_setCurve (s : State) (c : CIdx) (x : CurveSlot) (g : FIdx) : (s.setCurve c x).modOf g = s.modOf g := by simp [State.modOf]

/-! ### Register files -/

@[simp] theorem mapFile_get {α β : Type} {n : Nat} (f : α → β) (file : Vector α n) (i : Fin n) :
    (mapFile f file).get i = f (file.get i) := by
  simp [mapFile, Vector.get]
  rfl

theorem State.vreg_setV (s : State) (i j : VIdx) (x : VReg) :
    (s.setV i x).vreg j = if i = j then x else s.vreg j := by
  simp [State.vreg, State.setV, Vector.get_eq_getElem, Vector.getElem_set, Fin.ext_iff]

theorem State.preg_setP (s : State) (i j : PIdx) (q : Point) :
    (s.setP i q).preg j = if i = j then .pt q else s.preg j := by
  simp [State.preg, State.setP, Vector.get_eq_getElem, Vector.getElem_set, Fin.ext_iff]

@[simp] theorem State.vreg_setV_self (s : State) (i : VIdx) (x : VReg) : (s.setV i x).vreg i = x := by
  simp [State.vreg_setV]

@[simp] theorem State.preg_setP_self (s : State) (i : PIdx) (q : Point) : (s.setP i q).preg i = .pt q := by
  simp [State.preg_setP]

theorem State.vreg_setV_of_ne (s : State) {i j : VIdx} (x : VReg) (h : j ≠ i) : (s.setV i x).vreg j = s.vreg j := by
  simp [State.vreg_setV, h.symm]

theorem State.preg_setP_of_ne (s : State) {i j : PIdx} (q : Point) (h : j ≠ i) : (s.setP i q).preg j = s.preg j := by
  simp [State.preg_setP, h.symm]

/-- Two register files that read the same at every index are the same. -/
theorem vector_ext_get {α : Type} {n : Nat} {a b : Vector α n} (h : ∀ i, a.get i = b.get i) : a = b := by
  ext i hi
  simpa [Vector.get_eq_getElem] using h ⟨i, hi⟩

/-! ### Slots -/

/-- Only a generic field slot can be written (R15). -/
theorem State.fieldSlot_setField (s : State) (f g : FIdx) (x : FieldSlot) :
    (s.setField f x).fieldSlot g = if f = g ∧ 2 ≤ f.val then x else s.fieldSlot g := by
  fin_cases f <;> fin_cases g <;> rfl

/-- Only a generic curve slot can be written (R16). -/
theorem State.curveSlot_setCurve (s : State) (c d : CIdx) (x : CurveSlot) :
    (s.setCurve c x).curveSlot d = if c = d ∧ c ≠ 0 then x else s.curveSlot d := by
  fin_cases c <;> fin_cases d <;> rfl

/-! ### Invalidation (40_control.md R84, R86) -/

@[simp] theorem State.preg_invalidateCurve (s : State) (c : CIdx) (i : PIdx) :
    (s.invalidateCurve c).preg i = (s.preg i).dropCurve c := by
  simp [State.preg]

@[simp] theorem State.vreg_invalidateField (s : State) (f : FIdx) (i : VIdx) :
    (s.invalidateField f).vreg i = (s.vreg i).dropField f := by
  simp [State.vreg]

@[simp] theorem State.fieldSlot_invalidateField (s : State) (f g : FIdx) :
    (s.invalidateField f).fieldSlot g = s.fieldSlot g := by
  simp [State.fieldSlot]

theorem State.curveSlot_invalidateCurveOver (s : State) (f : FIdx) (c d : CIdx) :
    (s.invalidateCurveOver f c).curveSlot d
      = if c = d ∧ c ≠ 0 ∧ (s.curveSlot d).valid = true ∧ (s.curveSlot d).f = f then
          { s.curveSlot d with valid := false } else s.curveSlot d := by
  unfold State.invalidateCurveOver
  by_cases hcd : c = d
  · subst hcd
    by_cases h : (s.curveSlot c).valid = true ∧ (s.curveSlot c).f = f <;>
      simp [h, State.curveSlot_setCurve]
  · split <;> simp [hcd, State.curveSlot_setCurve]

theorem State.preg_invalidateCurveOver (s : State) (f : FIdx) (c : CIdx) (i : PIdx) :
    (s.invalidateCurveOver f c).preg i
      = if (s.curveSlot c).valid = true ∧ (s.curveSlot c).f = f then (s.preg i).dropCurve c else s.preg i := by
  unfold State.invalidateCurveOver
  split <;> simp [*]

/-- A generic curve slot after R84's second loop: invalid, with its other fields kept, if it was valid and over
field f. -/
theorem State.curveSlot_invalidateField (s : State) (f : FIdx) (d : CIdx) :
    (s.invalidateField f).curveSlot d
      = if d ≠ 0 ∧ (s.curveSlot d).valid = true ∧ (s.curveSlot d).f = f then
          { s.curveSlot d with valid := false } else s.curveSlot d := by
  unfold State.invalidateField
  rw [State.curveSlot_invalidateCurveOver, State.curveSlot_invalidateCurveOver, State.curveSlot_invalidateCurveOver]
  have hv : ∀ v c, ({ s with v := v } : State).curveSlot c = s.curveSlot c := fun _ _ => rfl
  fin_cases d <;> simp [hv]


/-- The three turns of R84's second loop on one point: it is dropped in the turn of its own slot, if that turn
drops at all. -/
theorem PointReg.drop_turns (q : Point) (P : CIdx → Prop) [DecidablePred P] :
    (if P 3 then (if P 2 then (if P 1 then (PointReg.pt q).dropCurve 1 else .pt q).dropCurve 2
          else if P 1 then (PointReg.pt q).dropCurve 1 else .pt q).dropCurve 3
        else if P 2 then (if P 1 then (PointReg.pt q).dropCurve 1 else .pt q).dropCurve 2
          else if P 1 then (PointReg.pt q).dropCurve 1 else .pt q)
      = if q.curve ≠ 0 ∧ P q.curve then .unwritten else .pt q := by
  obtain hc | hc | hc | hc : q.curve = 0 ∨ q.curve = 1 ∨ q.curve = 2 ∨ q.curve = 3 := by
    generalize q.curve = c; revert c; decide
  all_goals
    by_cases h1 : P 1 <;> by_cases h2 : P 2 <;> by_cases h3 : P 3 <;> simp [PointReg.dropCurve, hc, h1, h2, h3]

/-- A point register after R84: its point is dropped if its generic curve slot was valid and over field f. -/
theorem State.preg_invalidateField (s : State) (f : FIdx) (i : PIdx) :
    (s.invalidateField f).preg i
      = match s.preg i with
        | .unwritten => .unwritten
        | .pt q =>
          if q.curve ≠ 0 ∧ (s.curveSlot q.curve).valid = true ∧ (s.curveSlot q.curve).f = f then .unwritten
          else .pt q := by
  unfold State.invalidateField
  simp only [State.preg_invalidateCurveOver, State.curveSlot_invalidateCurveOver]
  have hv : ∀ v c, ({ s with v := v } : State).curveSlot c = s.curveSlot c := fun _ _ => rfl
  have hp : ∀ v, ({ s with v := v } : State).preg i = s.preg i := fun _ => rfl
  simp only [hv, hp]
  cases s.preg i with
  | unwritten => simp [PointReg.dropCurve]
  | pt q => simpa using PointReg.drop_turns q (fun c => (s.curveSlot c).valid = true ∧ (s.curveSlot c).f = f)

/-! ### The slots by their numbers -/

@[simp] theorem State.fieldSlot_zero (s : State) : s.fieldSlot 0 = ⟨true, Config.p⟩ := rfl
@[simp] theorem State.fieldSlot_one (s : State) : s.fieldSlot 1 = ⟨true, Config.order⟩ := rfl
@[simp] theorem State.fieldSlot_two (s : State) : s.fieldSlot 2 = s.f2 := rfl
@[simp] theorem State.fieldSlot_three (s : State) : s.fieldSlot 3 = s.f3 := rfl
@[simp] theorem State.curveSlot_zero (s : State) : s.curveSlot 0 = ⟨true, 0, 0, 7⟩ := rfl
@[simp] theorem State.curveSlot_one (s : State) : s.curveSlot 1 = s.c1 := rfl
@[simp] theorem State.curveSlot_two (s : State) : s.curveSlot 2 = s.c2 := rfl
@[simp] theorem State.curveSlot_three (s : State) : s.curveSlot 3 = s.c3 := rfl

/-- The key of the hardwired slot is secp256k1's (R16). -/
theorem State.curveKey_zero (s : State) : s.curveKey 0 = ⟨Config.p.toNat, 0, 7⟩ := rfl

end Sys2Proof.Machine
end

