-- ==== Sys2Proof/Laws/Commit.lean ====
section
/-! SUPPORT. The commit of a command and its operand reads, as facts to cite: what `finish` answers, and when a
read or a check succeeds. -/

namespace Sys2Proof.Machine

/-! ### The commit (60_exceptions.md R162) -/

@[simp] theorem finish_ok (s : State) (r : Staged) : finish s (.ok r) = .next (r.st.completeOk r.res) := rfl

@[simp] theorem finish_error (s : State) (e : Err) : finish s (.error e) = .next (s.completeErr e) := rfl

/-- Everything a commit can answer: the staged writes on success, and the untouched state on an error. -/
theorem finish_cases (s : State) (body : Except Err Staged) :
    (∃ r, body = .ok r ∧ finish s body = .next (r.st.completeOk r.res)) ∨
      (∃ e, body = .error e ∧ finish s body = .next (s.completeErr e)) := by
  cases body with
  | ok r => exact .inl ⟨r, rfl, rfl⟩
  | error e => exact .inr ⟨e, rfl, rfl⟩

/-- The state a commit answers comes from one of the two arms. -/
theorem finish_next {s t : State} {body : Except Err Staged} (h : finish s body = .next t) :
    (∃ r, body = .ok r ∧ t = r.st.completeOk r.res) ∨ (∃ e, body = .error e ∧ t = s.completeErr e) := by
  rcases finish_cases s body with ⟨r, hb, hf⟩ | ⟨e, hb, hf⟩ <;> rw [h] at hf
  · exact .inl ⟨r, hb, by injection hf⟩
  · exact .inr ⟨e, hb, by injection hf⟩

/-! ### Sequencing: the first raise ends a command (00_scope.md R7) -/

@[simp] theorem bind_ok_left {α β : Type} (a : α) (k : α → Except Err β) : ((.ok a : Except Err α) >>= k) = k a := rfl

@[simp] theorem bind_error_left {α β : Type} (e : Err) (k : α → Except Err β) :
    ((.error e : Except Err α) >>= k) = .error e := rfl

theorem bind_eq_ok {α β : Type} {x : Except Err α} {k : α → Except Err β} {b : β} :
    (x >>= k) = .ok b ↔ ∃ a, x = .ok a ∧ k a = .ok b := by
  cases x <;> simp

theorem bind_eq_error {α β : Type} {x : Except Err α} {k : α → Except Err β} {e : Err} :
    (x >>= k) = .error e ↔ x = .error e ∨ ∃ a, x = .ok a ∧ k a = .error e := by
  cases x <;> simp

/-! ### Checks and reads -/

theorem require_of {c : Prop} [Decidable c] (e : Err) (h : c) : require c e = .ok () := by simp [require, h]

theorem require_of_not {c : Prop} [Decidable c] (e : Err) (h : ¬c) : require c e = .error e := by simp [require, h]

theorem require_eq_ok {c : Prop} [Decidable c] {e : Err} {u : Unit} : require c e = .ok u ↔ c := by
  by_cases h : c <;> simp [require, h]

theorem require_eq_error {c : Prop} [Decidable c] {e e' : Err} : require c e = .error e' ↔ ¬c ∧ e = e' := by
  by_cases h : c <;> simp [require, h]

theorem State.readV_of_written {s : State} {i : VIdx} (h : (s.vreg i).tag ≠ .unwritten) : s.readV i = .ok (s.vreg i) := by
  simp [State.readV, h]

theorem State.readV_of_unwritten {s : State} {i : VIdx} (h : (s.vreg i).tag = .unwritten) :
    s.readV i = .error .unwrittenOperand := by
  simp [State.readV, h]

theorem State.readV_eq_ok {s : State} {i : VIdx} {x : VReg} :
    s.readV i = .ok x ↔ (s.vreg i).tag ≠ .unwritten ∧ s.vreg i = x := by
  by_cases h : (s.vreg i).tag = .unwritten <;> simp [State.readV, h]

theorem State.readV_eq_error {s : State} {i : VIdx} {e : Err} :
    s.readV i = .error e ↔ (s.vreg i).tag = .unwritten ∧ e = .unwrittenOperand := by
  by_cases h : (s.vreg i).tag = .unwritten <;> simp [State.readV, h, eq_comm]

theorem State.readP_of_pt {s : State} {i : PIdx} {q : Point} (h : s.preg i = .pt q) : s.readP i = .ok q := by
  simp [State.readP, h]

theorem State.readP_of_unwritten {s : State} {i : PIdx} (h : s.preg i = .unwritten) :
    s.readP i = .error .unwrittenOperand := by
  simp [State.readP, h]

theorem State.readP_eq_ok {s : State} {i : PIdx} {q : Point} : s.readP i = .ok q ↔ s.preg i = .pt q := by
  cases h : s.preg i <;> simp [State.readP, h]

theorem State.readP_eq_error {s : State} {i : PIdx} {e : Err} :
    s.readP i = .error e ↔ s.preg i = .unwritten ∧ e = .unwrittenOperand := by
  cases h : s.preg i <;> simp [State.readP, h, eq_comm]

@[simp] theorem fieldOfTag_fe (f : FIdx) : fieldOfTag (.fe f) = .ok f := rfl
@[simp] theorem fieldOfTag_int : fieldOfTag .int = .error .fieldMismatch := rfl
@[simp] theorem fieldOfTag_unwritten : fieldOfTag .unwritten = .error .fieldMismatch := rfl

theorem fieldOfTag_eq_ok {t : Tag} {f : FIdx} : fieldOfTag t = .ok f ↔ t = .fe f := by
  cases t <;> simp [fieldOfTag]

theorem fieldOfTag_eq_error {t : Tag} {e : Err} : fieldOfTag t = .error e ↔ (∀ f, t ≠ .fe f) ∧ e = .fieldMismatch := by
  cases t <;> simp [fieldOfTag, eq_comm]

/-- The operand head of the binary field commands on two compatible field elements (41_field.md R100). -/
theorem State.readFieldPair_of {s : State} {i j : VIdx} {f g : FIdx} (hi : (s.vreg i).tag = .fe f)
    (hj : (s.vreg j).tag = .fe g) (hm : s.modOf f = s.modOf g) :
    s.readFieldPair i j = .ok ⟨(s.vreg i).value.toNat, (s.vreg j).value.toNat, f, s.modOf f⟩ := by
  simp [State.readFieldPair, State.readV, hi, hj, require_of _ hm]

theorem State.readFieldPair_eq_ok {s : State} {i j : VIdx} {o : FieldPair} :
    s.readFieldPair i j = .ok o ↔
      ∃ f g, (s.vreg i).tag = .fe f ∧ (s.vreg j).tag = .fe g ∧ s.modOf f = s.modOf g ∧
        o = ⟨(s.vreg i).value.toNat, (s.vreg j).value.toNat, f, s.modOf f⟩ := by
  constructor
  · intro h
    simp only [State.readFieldPair, bind_eq_ok, State.readV_eq_ok, fieldOfTag_eq_ok, require_eq_ok] at h
    obtain ⟨a, ⟨-, rfl⟩, b, ⟨-, rfl⟩, f, hf, g, hg, -, hm, h⟩ := h
    exact ⟨f, g, hf, hg, hm, by injection h with h; exact h.symm⟩
  · rintro ⟨f, g, hi, hj, hm, rfl⟩
    exact State.readFieldPair_of hi hj hm

/-- The errors of the operand head: UnwrittenOperand before FieldMismatch (60_exceptions.md R163). -/
theorem State.readFieldPair_eq_error {s : State} {i j : VIdx} {e : Err} (h : s.readFieldPair i j = .error e) :
    e = .unwrittenOperand ∨ e = .fieldMismatch := by
  simp only [State.readFieldPair, bind_eq_error, State.readV_eq_error, fieldOfTag_eq_error, require_eq_error] at h
  rcases h with ⟨-, h⟩ | ⟨_, -, ⟨-, h⟩ | ⟨_, -, ⟨-, h⟩ | ⟨_, -, ⟨-, h⟩ | ⟨_, -, ⟨-, h⟩ | ⟨_, -, h⟩⟩⟩⟩⟩ <;> simp_all

/-! ### Random draws (20_memory.md R55) -/

@[simp] theorem Rng.skip_zero (g : Rng) : g.skip 0 = g := rfl

theorem Rng.draw_snd (g : Rng) : g.draw.2 = g.skip 1 := by
  unfold Rng.draw Rng.skip
  split <;> simp_all

theorem Rng.skip_skip (g : Rng) (m n : Nat) : (g.skip m).skip n = g.skip (m + n) := by
  simp only [Rng.skip, List.drop_drop, Nat.add_assoc]

@[simp] theorem Rng.skip_drawn (g : Rng) (n : Nat) : (g.skip n).drawn = g.drawn + n := rfl

@[simp] theorem Rng.draw_drawn (g : Rng) : g.draw.2.drawn = g.drawn + 1 := by simp [Rng.draw_snd]

/-- A draw is a 256-bit value (R55). -/
theorem rawOfBytes_lt (b : Vector Byte 32) : rawOfBytes b < 2 ^ 256 := by
  have key : ∀ (l : List Byte) (acc : Nat), l.foldl (fun acc x => acc * 256 + x.toNat) acc < (acc + 1) * 256 ^ l.length := by
    intro l
    induction l with
    | nil => intro acc; simp
    | cons x l ih =>
      intro acc
      have hx : x.toNat < 256 := x.isLt
      refine Nat.lt_of_lt_of_le (ih _) ?_
      rw [List.length_cons, Nat.pow_succ]
      calc (acc * 256 + x.toNat + 1) * 256 ^ l.length ≤ ((acc + 1) * 256) * 256 ^ l.length :=
            Nat.mul_le_mul_right _ (by omega)
        _ = (acc + 1) * (256 ^ l.length * 256) := by ring
  have h := key b.toList 0
  simp only [Vector.length_toList] at h
  simpa [rawOfBytes] using h

end Sys2Proof.Machine
end

