-- ==== Sys2Proof/Laws/Curve.lean ====
section
/-! SUPPORT. The group law and double-and-add (42_point.md R124, R128): what the functions of Machine/Curve.lean
answer, in the relations of Safety.lean. -/

namespace Sys2Proof.Machine

open Sys2Proof.Safety

/-! ### Slopes and third points -/

theorem curveKey_m_lt (s : State) (c : CIdx) : (s.curveKey c).m < 2 ^ 256 := (s.fieldSlot (s.curveSlot c).f).m.isLt

/-- Naturals below m with the same residue class are equal. -/
theorem eq_of_zmod_eq {m a b : Nat} (ha : a < m) (hb : b < m) (h : (a : ZMod m) = b) : a = b := by
  have := (ZMod.natCast_eq_natCast_iff' a b m).mp h
  rwa [Nat.mod_eq_of_lt ha, Nat.mod_eq_of_lt hb] at this

/-- A natural in (0, m) is not zero modulo m. -/
theorem zmod_ne_zero {m a : Nat} (h0 : a ≠ 0) (hlt : a < m) : (a : ZMod m) ≠ 0 := by
  rw [Ne, ZMod.natCast_eq_zero_iff]
  exact fun h => absurd (Nat.le_of_dvd (Nat.pos_of_ne_zero h0) h) (by omega)

theorem slopeIs_iff {m l : Nat} {num den : Int} :
    SlopeIs m num den l ↔ (den : ZMod m) ≠ 0 ∧ l < m ∧ (l : ZMod m) * den = num := by
  simp only [SlopeIs, ← ZMod.intCast_zmod_eq_zero_iff_dvd, Int.cast_sub, Int.cast_mul, Int.cast_natCast, sub_eq_zero, ne_eq]

theorem thirdPointIs_iff {m l : Nat} {x1 y1 x2 x3 y3 : U256} :
    ThirdPointIs m l x1 y1 x2 x3 y3 ↔ x3.toNat < m ∧ y3.toNat < m
      ∧ (x3.toNat : ZMod m) = (l : ZMod m) ^ 2 - x1.toNat - x2.toNat
      ∧ (y3.toNat : ZMod m) = (l : ZMod m) * (x1.toNat - x3.toNat) - y1.toNat := by
  simp only [ThirdPointIs, ← ZMod.intCast_zmod_eq_zero_iff_dvd, Int.cast_sub, Int.cast_mul, Int.cast_natCast, sub_eq_zero,
    pow_two]
  refine and_congr_right fun _ => and_congr_right fun _ => and_congr eq_comm eq_comm

/-- A slope with a divisor in (0, m) is the quotient modulo the prime m. -/
theorem slope_spec {m : Nat} (hp : m.Prime) (hm : m ≤ 2 ^ 256) (num : Nat) {den : Nat} (h0 : den ≠ 0) (hlt : den < m) :
    ∃ l, slope num den m = .ok l ∧ l < m ∧ (l : ZMod m) * den = num := by
  refine ⟨fermatQuotient num den m, by simp [slope, h0], Nat.mod_lt _ hp.pos, ?_⟩
  have : Fact m.Prime := ⟨hp⟩
  have hz := zmod_ne_zero h0 hlt
  rw [fermatQuotient_zmod hp hm num hz, mul_assoc, inv_mul_cancel₀ hz, mul_one]

/-- The point that `chordPoint` makes has the two coordinates of R124, both below m. -/
theorem chordPoint_spec (c : CIdx) {m : Nat} (h0 : 0 < m) (hm : m ≤ 2 ^ 256) (l : Nat) (x1 y1 x2 : U256) :
    ∃ x3 y3, chordPoint c m l x1.toNat y1.toNat x2.toNat = .aff c x3 y3 ∧ ThirdPointIs m l x1 y1 x2 x3 y3 := by
  have ex : ∀ n, n < m → (BitVec.ofNat 256 n).toNat = n := fun n hn => by
    rw [BitVec.toNat_ofNat]; exact Nat.mod_eq_of_lt (by omega)
  have hx := residue_lt ((l * l : Int) - x1.toNat - x2.toNat) h0
  have hy := residue_lt ((l : Int) * ((x1.toNat : Int) - residue ((l * l : Int) - x1.toNat - x2.toNat) m) - y1.toNat) h0
  refine ⟨_, _, rfl, thirdPointIs_iff.mpr ?_⟩
  rw [ex _ hx, ex _ hy]
  refine ⟨hx, hy, ?_, ?_⟩
  · rw [residue_zmod _ h0]; push_cast; ring
  · rw [residue_zmod _ h0]; push_cast; ring

/-! ### The group law -/

/-- The coordinates of a point are below its curve's modulus. -/
def PointBelow (s : State) : Point → Prop
  | .inf _ => True
  | .aff c x y => x.toNat < (s.curveKey c).m ∧ y.toNat < (s.curveKey c).m

theorem groupLaw_below {s : State} {A B q : Point} (h : GroupLaw s A B q) (hA : PointBelow s A) (hB : PointBelow s B) :
    PointBelow s q := by
  cases h with
  | infLeft => exact hB
  | infRight => exact hA
  | verticalChord => trivial
  | verticalTangent => trivial
  | tangent _ _ _ _ _ _ _ _ _ h => exact ⟨h.1, h.2.1⟩
  | secant _ _ _ _ _ _ _ _ _ _ _ h => exact ⟨h.1, h.2.1⟩

/-- A sum lies on the slot of one of its terms, and on the first's unless that is at infinity. -/
theorem groupLaw_curve {s : State} {A B q : Point} (h : GroupLaw s A B q) : q.curve = A.curve ∨ q.curve = B.curve := by
  cases h <;> simp [Point.curve]

/-- One third point (R124). -/
theorem thirdPoint_unique {m : Nat} (hp : m.Prime) {num den : Int} {l l' : Nat} {x1 y1 x2 x3 y3 x3' y3' : U256}
    (hl : SlopeIs m num den l) (hl' : SlopeIs m num den l') (h : ThirdPointIs m l x1 y1 x2 x3 y3)
    (h' : ThirdPointIs m l' x1 y1 x2 x3' y3') : x3 = x3' ∧ y3 = y3' := by
  have : Fact m.Prime := ⟨hp⟩
  rw [slopeIs_iff] at hl hl'
  rw [thirdPointIs_iff] at h h'
  have e : l = l' := eq_of_zmod_eq hl.2.1 hl'.2.1 (mul_right_cancel₀ hl.1 (hl.2.2.trans hl'.2.2.symm))
  subst e
  have ex : x3.toNat = x3'.toNat := eq_of_zmod_eq h.1 h'.1 (h.2.2.1.trans h'.2.2.1.symm)
  have ey : y3.toNat = y3'.toNat := eq_of_zmod_eq h.2.1 h'.2.1 (by rw [h.2.2.2, h'.2.2.2, ex])
  exact ⟨BitVec.eq_of_toNat_eq ex, BitVec.eq_of_toNat_eq ey⟩

/-- The five cases of R124 give one sum on a curve with a prime modulus. -/
theorem groupLaw_unique {s : State} {A B q q' : Point} (hp : (s.curveKey A.curve).m.Prime) (h : GroupLaw s A B q)
    (h' : GroupLaw s A B q') : q = q' := by
  cases h with
  | infLeft => cases h'; rfl
  | infRight => cases h'; rfl
  | verticalChord => cases h' <;> first | rfl | contradiction
  | verticalTangent => cases h' <;> first | rfl | contradiction
  | tangent _ _ _ _ _ _ _ _ hl ht =>
    cases h' with
    | tangent _ _ _ _ _ _ _ _ hl' ht' => obtain ⟨rfl, rfl⟩ := thirdPoint_unique hp hl hl' ht ht'; rfl
    | verticalChord => contradiction
    | verticalTangent => contradiction
    | secant => contradiction
  | secant _ _ _ _ _ _ _ _ _ _ hl ht =>
    cases h' with
    | secant _ _ _ _ _ _ _ _ _ _ hl' ht' => obtain ⟨rfl, rfl⟩ := thirdPoint_unique hp hl hl' ht ht'; rfl
    | verticalChord => contradiction
    | verticalTangent => contradiction
    | tangent => contradiction

/-- What `PointAdd` of two points below a prime modulus answers (R124; 90_conflicts.md C4): DivisionByZero for a
doubling that fails over GF(2), and otherwise the sum. -/
theorem pointAdd_spec {s : State} {A B : Point} (hp : (s.curveKey A.curve).m.Prime)
    (hc : s.CurveCompatible A.curve B.curve) (hA : PointBelow s A) (hB : PointBelow s B) :
    (DoublingFails s A ∧ (∃ c d x y, A = .aff c x y ∧ B = .aff d x y) ∧ s.pointAdd A B = .error .divisionByZero) ∨
      ∃ q, s.pointAdd A B = .ok q ∧ GroupLaw s A B q := by
  unfold State.pointAdd
  rw [if_neg (not_not.mpr hc)]
  cases A with
  | inf c => exact .inr ⟨B, rfl, .infLeft c B⟩
  | aff c x1 y1 =>
    cases B with
    | inf d => exact .inr ⟨_, rfl, .infRight c d x1 y1⟩
    | aff d x2 y2 =>
      have hm := (curveKey_m_lt s c).le
      have hkey : s.curveKey c = s.curveKey d := hc
      have hA' : x1.toNat < (s.curveKey c).m ∧ y1.toNat < (s.curveKey c).m := hA
      have hB' : x2.toNat < (s.curveKey c).m ∧ y2.toNat < (s.curveKey c).m := hkey ▸ hB
      have hp' : (s.curveKey c).m.Prime := hp
      have : Fact (s.curveKey c).m.Prime := ⟨hp'⟩
      simp only
      by_cases hx : x1 = x2
      · subst hx
        rw [if_pos rfl]
        by_cases hy : y1 = y2
        · subst hy
          rw [if_pos rfl]
          unfold State.doubleAffine
          by_cases h0 : y1 = 0
          · subst h0; exact .inr ⟨_, rfl, .verticalTangent c d x1⟩
          · have h0' : y1.toNat ≠ 0 := fun h => h0 (BitVec.eq_of_toNat_eq (by simpa using h))
            rw [if_neg h0']
            simp only
            by_cases hden : 2 * y1.toNat % (s.curveKey c).m = 0
            · left
              have hdvd : (s.curveKey c).m ∣ 2 * y1.toNat := Nat.dvd_of_mod_eq_zero hden
              have hm2 : (s.curveKey c).m = 2 := by
                rcases hp'.dvd_mul.mp hdvd with h | h
                · exact (Nat.prime_dvd_prime_iff_eq hp' Nat.prime_two).mp h
                · exact absurd (Nat.le_of_dvd (Nat.pos_of_ne_zero h0') h) (by omega)
              exact ⟨⟨hm2, h0⟩, ⟨c, d, x1, y1, rfl, rfl⟩, by simp [slope, hden]⟩
            · right
              obtain ⟨l, hl, hlt, he⟩ := slope_spec hp' hm ((3 * x1.toNat * x1.toNat + (s.curveKey c).a) % (s.curveKey c).m)
                hden (Nat.mod_lt _ hp'.pos)
              obtain ⟨x3, y3, hch, ht⟩ := chordPoint_spec c hp'.pos hm l x1 y1 x1
              refine ⟨.aff c x3 y3, by rw [hl]; exact congrArg _ hch, .tangent c d x1 y1 x3 y3 l h0 (slopeIs_iff.mpr ⟨?_, hlt, ?_⟩) ht⟩
              · have := zmod_ne_zero hden (Nat.mod_lt _ hp'.pos)
                rw [ZMod.natCast_mod] at this
                push_cast at this ⊢
                exact this
              · rw [ZMod.natCast_mod, ZMod.natCast_mod] at he
                push_cast at he ⊢
                exact he
        · rw [if_neg hy]
          exact .inr ⟨_, rfl, .verticalChord c d x1 y1 y2 hy⟩
      · rw [if_neg hx]
        right
        unfold State.addSecant
        have hden : residue ((x2.toNat : Int) - x1.toNat) (s.curveKey c).m ≠ 0 := by
          intro h
          have hz := residue_zmod ((x2.toNat : Int) - x1.toNat) hp'.pos
          rw [h] at hz
          push_cast at hz
          exact hx (BitVec.eq_of_toNat_eq (eq_of_zmod_eq hA'.1 hB'.1 (sub_eq_zero.mp hz.symm).symm))
        obtain ⟨l, hl, hlt, he⟩ := slope_spec hp' hm (residue ((y2.toNat : Int) - y1.toNat) (s.curveKey c).m)
          hden (residue_lt _ hp'.pos)
        obtain ⟨x3, y3, hch, ht⟩ := chordPoint_spec c hp'.pos hm l x1 y1 x2
        refine ⟨.aff c x3 y3, by simp only; rw [hl]; exact congrArg _ hch,
          .secant c d x1 y1 x2 y2 x3 y3 l hx (slopeIs_iff.mpr ⟨?_, hlt, ?_⟩) ht⟩
        · have := zmod_ne_zero hden (residue_lt _ hp'.pos)
          rwa [residue_zmod _ hp'.pos] at this
        · rwa [residue_zmod _ hp'.pos, residue_zmod _ hp'.pos] at he

/-- The sum of the relation is what `PointAdd` computes. -/
theorem pointAdd_of_groupLaw {s : State} {A B q : Point} (hp : (s.curveKey A.curve).m.Prime)
    (hc : s.CurveCompatible A.curve B.curve) (hA : PointBelow s A) (hB : PointBelow s B) (h : GroupLaw s A B q) :
    s.pointAdd A B = .ok q := by
  rcases pointAdd_spec hp hc hA hB with ⟨hf, ⟨c, d, x, y, rfl, rfl⟩, -⟩ | ⟨q', hq, hl⟩
  · exfalso
    obtain ⟨hm, hy⟩ : (s.curveKey c).m = 2 ∧ y ≠ 0 := hf
    cases h with
    | verticalChord => contradiction
    | verticalTangent => contradiction
    | tangent _ _ _ _ _ _ _ _ hl => rw [hm] at hl; exact hl.1 (Dvd.intro _ rfl)
    | secant => contradiction
  · rw [hq, groupLaw_unique hp hl h]

/-! ### Double-and-add -/

/-- The sum of a point that doubles with itself doubles again. -/
theorem doubling_goes_on {s : State} {A q : Point} (h : ¬ DoublingFails s A) (hl : GroupLaw s A A q) :
    ¬ DoublingFails s q := by
  intro hq
  cases hl with
  | infLeft => exact h hq
  | verticalChord => exact hq
  | verticalTangent => exact hq
  | tangent _ _ _ _ _ _ _ hy => exact h ⟨hq.1, hy⟩
  | secant => contradiction

/-- The loop of `ScalarMul` with turns enough, from points of one curve slot below its prime modulus: it ends as
the relation says, unless the doubling of `current` fails and the scalar is not 0. -/
theorem scalarLoop_spec {s : State} {c : CIdx} (hp : (s.curveKey c).m.Prime) : ∀ (fuel k : Nat) (result current : Point),
    k < 2 ^ fuel → result.curve = c → current.curve = c → PointBelow s result → PointBelow s current →
    ¬ DoublingFails s current →
    ∃ q, s.scalarLoop fuel k result current = .ok q ∧ DoubleAndAdd s k result current q ∧ q.curve = c ∧ PointBelow s q := by
  intro fuel
  induction fuel with
  | zero =>
    intro k result current hk hr _ hbr _ _
    have : k = 0 := by simpa using hk
    subst this
    exact ⟨result, rfl, .done _ _, hr, hbr⟩
  | succ n ih =>
    intro k result current hk hr hcur hbr hbc hd
    unfold State.scalarLoop
    by_cases h0 : k = 0
    · subst h0
      exact ⟨result, by simp, .done _ _, hr, hbr⟩
    rw [if_neg h0]
    have hk' : k / 2 < 2 ^ n := by rw [Nat.pow_succ] at hk; omega
    have hpc : (s.curveKey current.curve).m.Prime := hcur ▸ hp
    obtain ⟨cur', hc', hlc⟩ : ∃ q, s.pointAdd current current = .ok q ∧ GroupLaw s current current q := by
      rcases pointAdd_spec hpc rfl hbc hbc with h | h
      · exact absurd h.1 hd
      · exact h
    have hcc : cur'.curve = c := by rcases groupLaw_curve hlc with h | h <;> rw [h, hcur]
    have hbc' := groupLaw_below hlc hbc hbc
    have hd' := doubling_goes_on hd hlc
    by_cases h1 : k % 2 = 1
    · have hcomp : s.CurveCompatible result.curve current.curve := by rw [hr, hcur]
      obtain ⟨res', hr', hlr⟩ : ∃ q, s.pointAdd result current = .ok q ∧ GroupLaw s result current q := by
        rcases pointAdd_spec (hr ▸ hp) hcomp hbr hbc with ⟨hf, ⟨c1, d1, x, y, rfl, rfl⟩, -⟩ | h
        · exfalso
          simp only [Point.curve] at hr hcur
          subst hr; subst hcur
          exact hd hf
        · exact h
      have hrc : res'.curve = c := by rcases groupLaw_curve hlr with h | h <;> rw [h] <;> assumption
      obtain ⟨q, hq, hda, hqc, hqb⟩ := ih (k / 2) res' cur' hk' hrc hcc (groupLaw_below hlr hbr hbc) hbc' hd'
      exact ⟨q, by simp [h1, hr', hc', hq], .odd k _ _ _ _ _ (by omega) h1 ⟨hcomp, hlr⟩ ⟨rfl, hlc⟩ hda, hqc, hqb⟩
    · obtain ⟨q, hq, hda, hqc, hqb⟩ := ih (k / 2) result cur' hk' hr hcc hbr hbc' hd'
      exact ⟨q, by simp [h1, hc', hq], .even k _ _ _ _ (by omega) (by omega) ⟨rfl, hlc⟩ hda, hqc, hqb⟩

/-- The sum of two affine points with equal coordinates, on compatible curves, raises DivisionByZero where the first
does not double (R124, case 4). -/
theorem pointAdd_fails {s : State} {c d : CIdx} {x y : U256} (hf : DoublingFails s (.aff c x y)) (hc : s.CurveCompatible c d) :
    s.pointAdd (.aff c x y) (.aff d x y) = .error .divisionByZero := by
  obtain ⟨hm, hy⟩ : (s.curveKey c).m = 2 ∧ y ≠ 0 := hf
  have hy' : y.toNat ≠ 0 := fun h => hy (BitVec.eq_of_toNat_eq (by simpa using h))
  simp [State.pointAdd, State.doubleAffine, Point.curve, hy', hm, slope, ← show s.curveKey c = s.curveKey d from hc]

/-- A nonzero scalar of a point whose doubling fails raises DivisionByZero in the first turn (R128). -/
theorem scalarLoop_fails {s : State} {c : CIdx} {x y : U256} {fuel k : Nat} (hf : DoublingFails s (.aff c x y))
    (hk : k ≠ 0) : s.scalarLoop (fuel + 1) k (.inf c) (.aff c x y) = .error .divisionByZero := by
  have hd := pointAdd_fails hf (d := c) rfl
  have hi : s.pointAdd (.inf c) (.aff c x y) = .ok (.aff c x y) := by simp [State.pointAdd, Point.curve]
  unfold State.scalarLoop
  by_cases h1 : k % 2 = 1 <;> simp [hk, h1, hd, hi]

/-- Double-and-add ends in one point, on a curve with a prime modulus. -/
theorem doubleAndAdd_unique {s : State} {c : CIdx} (hp : (s.curveKey c).m.Prime) {k : Nat} {result current q : Point}
    (h : DoubleAndAdd s k result current q) :
    ∀ q', result.curve = c → current.curve = c → DoubleAndAdd s k result current q' → q = q' := by
  induction h with
  | done => intro q' _ _ h'; cases h' <;> first | rfl | omega
  | odd k result current res' cur' q h0 h1 ha hd _ ih =>
    intro q' hr hc h'
    cases h' with
    | done => omega
    | odd _ _ _ res'' cur'' _ _ _ ha' hd' h' =>
      have e1 := groupLaw_unique (hr ▸ hp) ha.2 ha'.2
      have e2 := groupLaw_unique (hc ▸ hp) hd.2 hd'.2
      subst e1; subst e2
      refine ih q' ?_ ?_ h'
      · rcases groupLaw_curve ha.2 with h | h <;> rw [h] <;> assumption
      · rcases groupLaw_curve hd.2 with h | h <;> rw [h] <;> assumption
    | even => omega
  | even k result current cur' q h0 h1 hd _ ih =>
    intro q' hr hc h'
    cases h' with
    | done => omega
    | odd => omega
    | even _ _ _ cur'' _ _ _ hd' h' =>
      have e2 := groupLaw_unique (hc ▸ hp) hd.2 hd'.2
      subst e2
      refine ih q' hr ?_ h'
      rcases groupLaw_curve hd.2 with h | h <;> rw [h] <;> assumption

theorem loopScalar_lt {c : CIdx} {k : Nat} (hk : k < 2 ^ 256) : loopScalar c k < 2 ^ 256 := by
  unfold loopScalar
  split
  · exact Nat.lt_of_le_of_lt (Nat.mod_le _ _) hk
  · exact hk

theorem loopScalar_eq (c : CIdx) (k : Nat) : loopScalar c k = if c = 0 then k % Config.order.toNat else k := by
  simp [loopScalar, hasOrder]

/-- `ScalarMul` of a point below its prime modulus whose doubling does not fail (R128). -/
theorem scalarMul_spec {s : State} {pt : Point} {k : Nat} (hp : (s.curveKey pt.curve).m.Prime) (hb : PointBelow s pt)
    (hd : ¬ DoublingFails s pt) (hk : k < 2 ^ 256) :
    ∃ q, s.scalarMul pt k = .ok q ∧ ScalarMulIs s pt k q ∧ q.curve = pt.curve ∧ PointBelow s q := by
  obtain ⟨q, hq, hda, hc, hbq⟩ :=
    scalarLoop_spec hp 256 (loopScalar pt.curve k) (.inf pt.curve) pt (loopScalar_lt hk) rfl rfl trivial hb hd
  rw [loopScalar_eq] at hda
  exact ⟨q, hq, hda, hc, hbq⟩

/-- `ScalarMul` by 0 is the point at infinity, whatever the point. -/
theorem scalarMul_zero (s : State) (pt : Point) : s.scalarMul pt 0 = .ok (.inf pt.curve) ∧ ScalarMulIs s pt 0 (.inf pt.curve) := by
  constructor
  · simp [State.scalarMul, loopScalar, State.scalarLoop]
  · simp only [ScalarMulIs, Nat.zero_mod, ite_self]
    exact .done _ _

/-- The relation of `ScalarMul` has one end. -/
theorem scalarMulIs_unique {s : State} {pt q q' : Point} {k : Nat} (hp : (s.curveKey pt.curve).m.Prime)
    (h : ScalarMulIs s pt k q) (h' : ScalarMulIs s pt k q') : q = q' :=
  doubleAndAdd_unique hp h q' rfl rfl h'

/-! ### Errors of the group law -/

theorem slope_error {n d m : Nat} {e : Err} (h : slope n d m = .error e) : e = .divisionByZero := by
  unfold slope at h; split at h <;> cases h; rfl

/-- `PointAdd` on one slot stays on it, or raises DivisionByZero; no modulus need be prime. -/
theorem pointAdd_same {s : State} {A B : Point} (hc : A.curve = B.curve) :
    s.pointAdd A B = .error .divisionByZero ∨ ∃ q, s.pointAdd A B = .ok q ∧ q.curve = A.curve := by
  unfold State.pointAdd
  rw [if_neg (by simp [hc])]
  cases A with
  | inf c => exact .inr ⟨B, rfl, hc.symm⟩
  | aff c x y =>
    cases B with
    | inf d => exact .inr ⟨_, rfl, rfl⟩
    | aff d x' y' =>
      dsimp only
      split
      · split
        · unfold State.doubleAffine
          split
          · exact .inr ⟨_, rfl, rfl⟩
          · cases h : slope ((3 * x.toNat * x.toNat + (s.curveKey c).a) % (s.curveKey c).m) (2 * y.toNat % (s.curveKey c).m) (s.curveKey c).m with
            | error e => left; rw [slope_error h] at h; simp [h]
            | ok l => right; exact ⟨chordPoint c (s.curveKey c).m l x.toNat y.toNat x'.toNat, by simp_all, rfl⟩
        · exact .inr ⟨_, rfl, rfl⟩
      · unfold State.addSecant
        cases h : slope (residue ((y'.toNat : Int) - y.toNat) (s.curveKey c).m) (residue ((x'.toNat : Int) - x.toNat) (s.curveKey c).m) (s.curveKey c).m with
        | error e => left; rw [slope_error h] at h; simp [h]
        | ok l => right; exact ⟨chordPoint c (s.curveKey c).m l x.toNat y.toNat x'.toNat, by simp_all, rfl⟩

/-- The errors of `PointAdd` (R124). -/
theorem pointAdd_error {s : State} {A B : Point} {e : Err} (h : s.pointAdd A B = .error e) : e = .curveMismatch ∨ e = .divisionByZero := by
  unfold State.pointAdd at h
  split at h
  · cases h; exact .inl rfl
  · right
    split at h
    · cases h
    · cases h
    · split at h
      · split at h
        · unfold State.doubleAffine at h
          split at h
          · cases h
          · simp only [bind_eq_error] at h
            rcases h with h | ⟨_, _, h⟩
            · exact slope_error h
            · cases h
        · cases h
      · unfold State.addSecant at h
        simp only [bind_eq_error] at h
        rcases h with h | ⟨_, _, h⟩
        · exact slope_error h
        · cases h

/-- The error of `ScalarMul` (R129). -/
theorem scalarLoop_error {s : State} {e : Err} : ∀ (fuel k : Nat) (R C : Point), R.curve = C.curve →
    s.scalarLoop fuel k R C = .error e → e = .divisionByZero := by
  intro fuel
  induction fuel with
  | zero => intro k R C _ h; cases h
  | succ fuel ih =>
    intro k R C hc h
    unfold State.scalarLoop at h
    split at h
    · cases h
    · rcases pointAdd_same (s := s) (A := C) (B := C) rfl with h2 | ⟨C', h2, hC⟩ <;>
      rcases pointAdd_same (s := s) hc with h1 | ⟨R', h1, hR⟩ <;> by_cases ho : k % 2 = 1 <;> simp only [ho, if_true, if_false, h1, h2, bind_ok_left, bind_error_left] at h <;>
      first | (cases h; rfl) | exact ih _ _ _ (by simp [*]) h

/-! ### Points on their curve (R120, R125) -/

/-- `OnCurve` of R120 is the curve's equation. -/
theorem onCurve_iff {s : State} {c : CIdx} {x y : Nat} (h : 0 < (s.curveKey c).m) : s.OnCurve c x y ↔ SatisfiesCurve s c x y := by
  unfold State.OnCurve SatisfiesCurve
  rw [← Int.natCast_inj, residue_cast _ h]
  zify
  rw [Int.emod_eq_emod_iff_emod_sub_eq_zero]
  constructor <;> intro h <;> rw [← h] <;> congr 1 <;> ring

/-- A point satisfies its curve's equation. -/
def OnItsCurve (s : State) : Point → Prop
  | .inf _ => True
  | .aff c x y => SatisfiesCurve s c x.toNat y.toNat

theorem satisfiesCurve_iff {s : State} {c : CIdx} {x y : U256} : SatisfiesCurve s c x.toNat y.toNat ↔
    ((y.toNat : ZMod (s.curveKey c).m) ^ 2 = (x.toNat : ZMod (s.curveKey c).m) ^ 3 + (s.curveKey c).a * x.toNat + (s.curveKey c).b) := by
  rw [SatisfiesCurve, ← ZMod.natCast_eq_natCast_iff']; push_cast; rfl

theorem satisfiesCurve_congr {s : State} {c d : CIdx} {x y : U256} (h : s.curveKey c = s.curveKey d) : SatisfiesCurve s c x.toNat y.toNat ↔ SatisfiesCurve s d x.toNat y.toNat := by
  rw [SatisfiesCurve, SatisfiesCurve, h]

/-- A sum is on its curve, on singular curves too (R125). -/
theorem groupLaw_onCurve {s : State} {A B q : Point} (hp : (s.curveKey A.curve).m.Prime) (hc : s.CurveCompatible A.curve B.curve)
    (h : GroupLaw s A B q) (hA : OnItsCurve s A) (hB : OnItsCurve s B) : OnItsCurve s q := by
  cases h with
  | infLeft => exact hB
  | infRight => exact hA
  | verticalChord => trivial
  | verticalTangent => trivial
  | tangent c d x y x3 y3 l hy hl ht =>
    have : Fact (s.curveKey c).m.Prime := ⟨hp⟩
    simp only [OnItsCurve, satisfiesCurve_iff] at *
    rw [slopeIs_iff] at hl
    rw [thirdPointIs_iff] at ht
    obtain ⟨h1, -, h2⟩ := hl
    obtain ⟨-, -, h3, h4⟩ := ht
    push_cast at h1 h2
    rw [h4, h3]
    linear_combination hA + ((l : ZMod (s.curveKey c).m) ^ 2 - 3 * x.toNat) * h2
  | secant c d x1 y1 x2 y2 x3 y3 l hx hl ht =>
    have : Fact (s.curveKey c).m.Prime := ⟨hp⟩
    simp only [OnItsCurve] at *
    rw [satisfiesCurve_congr (show s.curveKey d = s.curveKey c from hc.symm)] at hB
    rw [satisfiesCurve_iff] at *
    rw [slopeIs_iff] at hl
    rw [thirdPointIs_iff] at ht
    obtain ⟨h1, -, h2⟩ := hl
    obtain ⟨-, -, h3, h4⟩ := ht
    push_cast at h1 h2
    rw [h4, h3]
    have e : (y2.toNat : ZMod (s.curveKey c).m) = y1.toNat + l * (x2.toNat - x1.toNat) := by linear_combination -h2
    rw [e] at hB
    apply mul_left_cancel₀ h1
    linear_combination ((x2.toNat : ZMod (s.curveKey c).m) - x1.toNat) * hA + ((l : ZMod (s.curveKey c).m) ^ 2 - 2 * x1.toNat - x2.toNat) * (hB - hA)

theorem doubleAndAdd_onCurve {s : State} {c : CIdx} {k : Nat} {R C q : Point} (hp : (s.curveKey c).m.Prime) (h : DoubleAndAdd s k R C q) :
    R.curve = c → C.curve = c → OnItsCurve s R → OnItsCurve s C → OnItsCurve s q := by
  induction h with
  | done => intro _ _ h _; exact h
  | odd k R C R' C' q h0 h1 ha hd _ ih =>
    intro hr hc h3 h4
    refine ih ?_ ?_ (groupLaw_onCurve (hr ▸ hp) ha.1 ha.2 h3 h4) (groupLaw_onCurve (hc ▸ hp) hd.1 hd.2 h4 h4)
    · rcases groupLaw_curve ha.2 with e | e <;> simp [e, hr, hc]
    · rcases groupLaw_curve hd.2 with e | e <;> simp [e, hc]
  | even k R C C' q h0 h1 hd _ ih =>
    intro hr hc h3 h4
    refine ih hr ?_ h3 (groupLaw_onCurve (hc ▸ hp) hd.1 hd.2 h4 h4)
    rcases groupLaw_curve hd.2 with e | e <;> simp [e, hc]


/-- Everything `ScalarMul` can answer with, for a point below a prime modulus. -/
theorem scalarMul_ok {s : State} {A q : Point} {k : Nat} (hp : (s.curveKey A.curve).m.Prime) (hb : PointBelow s A) (hk : k < 2^256)
    (h : s.scalarMul A k = .ok q) : q.curve = A.curve ∧ PointBelow s q ∧ (OnItsCurve s A → OnItsCurve s q) := by
  by_cases hd : DoublingFails s A
  · cases A with
    | inf c => exact hd.elim
    | aff c x y =>
      by_cases h0 : loopScalar c k = 0
      · have : s.scalarMul (.aff c x y) k = .ok (.inf c) := by simp [State.scalarMul, Point.curve, h0, State.scalarLoop]
        rw [this] at h; cases h; exact ⟨rfl, trivial, fun _ => trivial⟩
      · have : s.scalarMul (.aff c x y) k = .error .divisionByZero := scalarLoop_fails hd h0
        rw [this] at h; cases h
  · obtain ⟨q', h1, h2, h3, h4⟩ := scalarMul_spec hp hb hd hk
    rw [h1] at h; cases h
    exact ⟨h3, h4, fun ho => doubleAndAdd_onCurve hp h2 rfl rfl trivial ho⟩

end Sys2Proof.Machine
end

