-- ==== Sys2Proof/Laws/Decode.lean ====
section
/-! SUPPORT. The fields of a command word: packing and unpacking undo each other. -/

namespace Sys2Proof

/-- The word with given fields has these fields (30_encoding.md R60). -/
theorem fieldsOf_packFields (f : Fields) : fieldsOf (packFields f) = f := by
  obtain ⟨⟨op, h0⟩, ⟨rd, h1⟩, ⟨rs1, h2⟩, ⟨rs2, h3⟩, ⟨rs3, h4⟩, ⟨slot, h5⟩, ⟨neg, h6⟩, ⟨rsv, h7⟩⟩ := f
  simp only [fieldsOf, packFields, bitsAt, BitVec.toNat_ofNat, Fields.mk.injEq, Fin.mk.injEq]
  refine ⟨?_, ?_, ?_, ?_, ?_, ?_, ?_, ?_⟩ <;> omega

/-- A word is the word with its fields (R60). -/
theorem packFields_fieldsOf (w : Word32) : packFields (fieldsOf w) = w := by
  apply BitVec.eq_of_toNat_eq
  have := w.isLt
  simp only [fieldsOf, packFields, bitsAt, BitVec.toNat_ofNat]
  omega

theorem fieldOfPoint_pointField {x : Fin 16} (h : x.val < 8) : fieldOfPoint (pointField x) = x := by
  apply Fin.ext
  simp only [fieldOfPoint, pointField]
  omega

theorem pointField_fieldOfPoint (x : PIdx) : pointField (fieldOfPoint x) = x := by
  apply Fin.ext
  simp only [fieldOfPoint, pointField]
  omega

/-- What `allow` answers, it was given, with the roles and R67 met. -/
theorem allow_eq_some {r : Roles} {f : Fields} {i j : Instr} :
    allow r f i = some j ↔ r.allows f = true ∧ wellFormedB i = true ∧ i = j := by
  simp only [allow, Bool.and_eq_true, Option.ite_none_right_eq_some, Option.some.injEq, and_assoc]

end Sys2Proof
end

