-- ==== Sys2Proof/Laws/Primes.lean ====
section
/-! SUPPORT. The two hardwired moduli p and N (00_scope.md R8) are prime: Lucas certificates, checked by
the model's own binary exponentiation. -/

namespace Sys2Proof.Machine

/-- Lucas's test with a full factorisation of n − 1, the powers as `binPow` computes them. -/
theorem prime_of_lucas {n : Nat} (a : Nat) (factors : List Nat) (hn : 1 < n ∧ n < 2 ^ 256)
    (hprod : factors.prod = n - 1) (hprime : ∀ q ∈ factors, Nat.Prime q) (hone : binPow a (n - 1) n = 1)
    (hne : ∀ q ∈ factors, binPow a ((n - 1) / q) n ≠ 1) : Nat.Prime n := by
  have hpow : ∀ k, k < 2 ^ 256 → ((a : ZMod n) ^ k = 1 ↔ binPow a k n = 1) := by
    intro k hk
    rw [binPow_eq a n hk]
    have h1 : ((1 : Nat) : ZMod n) = 1 := by simp
    rw [← h1, ← Nat.cast_pow, ZMod.natCast_eq_natCast_iff, Nat.ModEq, Nat.mod_eq_of_lt hn.1]
  refine lucas_primality n (a : ZMod n) ((hpow _ (by omega)).mpr hone) fun q hq hdvd => ?_
  have hmem : q ∈ factors := by
    rw [← hprod] at hdvd
    obtain ⟨r, hr, hqr⟩ := (Nat.Prime.prime hq).dvd_prod_iff.mp hdvd
    rwa [(Nat.prime_dvd_prime_iff_eq hq (hprime r hr)).mp hqr]
  intro h
  refine hne q hmem ((hpow _ ?_).mp h)
  exact Nat.lt_of_le_of_lt (Nat.div_le_self _ _) (by omega)

/-- A certificate: a number, a primitive root of it, and the prime factors of the number minus one, with
repeats. -/
abbrev LucasRow := Nat × Nat × List Nat

/-- A row is right if its factors are earlier numbers or small primes and the powers are as Lucas's test asks. -/
def lucasRowOk (known : List Nat) (row : LucasRow) : Bool :=
  decide (1 < row.1) && decide (row.1 < 2 ^ 256) && row.2.2.prod == row.1 - 1
    && row.2.2.all (fun q => known.contains q || primeAcceptable 32 q)
    && binPow row.2.1 (row.1 - 1) row.1 == 1
    && row.2.2.all (fun q => binPow row.2.1 ((row.1 - 1) / q) row.1 != 1)

/-- Every row is right, with the numbers of the rows before it known to be prime. -/
def lucasRowsOk (known : List Nat) : List LucasRow → Bool
  | [] => true
  | row :: rows => lucasRowOk known row && lucasRowsOk (row.1 :: known) rows

theorem prime_of_lucasRowOk {known : List Nat} {row : LucasRow} (hk : ∀ q ∈ known, Nat.Prime q)
    (h : lucasRowOk known row = true) : Nat.Prime row.1 := by
  simp only [lucasRowOk, Bool.and_eq_true, decide_eq_true_eq, beq_iff_eq, List.all_eq_true, Bool.or_eq_true,
    List.contains_iff_mem, bne_iff_ne] at h
  obtain ⟨⟨⟨⟨⟨h1, h2⟩, h3⟩, h4⟩, h5⟩, h6⟩ := h
  refine prime_of_lucas row.2.1 row.2.2 ⟨h1, h2⟩ h3 (fun q hq => ?_) h5 h6
  rcases h4 q hq with h | h
  · exact hk q h
  · refine primeAcceptable_prime ?_ h
    simp only [primeAcceptable, Bool.and_eq_true, decide_eq_true_eq] at h
    exact Nat.lt_trans h.1.1 (by norm_num)

theorem prime_of_lucasRowsOk : ∀ (rows : List LucasRow) {known : List Nat}, (∀ q ∈ known, Nat.Prime q) →
    lucasRowsOk known rows = true → ∀ row ∈ rows, Nat.Prime row.1
  | [], _, _, _ => by simp
  | row :: rows, known, hk, h => by
    simp only [lucasRowsOk, Bool.and_eq_true] at h
    have h1 := prime_of_lucasRowOk hk h.1
    have := prime_of_lucasRowsOk rows (known := row.1 :: known) (by simpa using ⟨h1, hk⟩) h.2
    exact List.forall_mem_cons.mpr ⟨h1, this⟩

/-- The certificates behind N. -/
def orderRows : List LucasRow := [
  (4681609, 23, [2, 2, 2, 3, 97, 2011]),
  (107361793816595537, 3, [2, 2, 2, 2, 16699, 85831, 4681609]),
  (44706919, 6, [2, 3, 797, 9349]),
  (174723607534414371449, 3, [2, 2, 2, 17, 59, 4051, 120233, 44706919]),
  (545358713, 5, [2, 2, 2, 41, 59, 28181]),
  (1627771, 3, [2, 3, 5, 29, 1871]),
  (297159362677, 2, [2, 2, 3, 3, 11, 461, 1627771]),
  (29047611873442575647497758179, 2, [2, 293, 305873, 545358713, 297159362677]),
  (341948486974166000522343609283189, 2, [2, 2, 3, 3, 3, 109, 29047611873442575647497758179]),
  (115792089237316195423570985008687907852837564279074904382605163141518161494337, 7, [2, 2, 2, 2, 2, 2, 3, 149, 631, 107361793816595537, 174723607534414371449, 341948486974166000522343609283189])]

/-- The certificates behind p. -/
def pRows : List LucasRow := [
  (13331831, 13, [2, 5, 971, 1373]),
  (173378833005251801, 6, [2, 2, 2, 5, 5, 2621, 24809, 13331831]),
  (22149492674086928081353, 5, [2, 2, 2, 3, 5323, 173378833005251801]),
  (132896956044521568488119, 6, [2, 3, 22149492674086928081353]),
  (1206781, 10, [2, 2, 3, 5, 20113]),
  (7240687, 3, [2, 3, 1206781]),
  (107590001, 3, [2, 2, 2, 2, 5, 5, 5, 5, 7, 29, 53]),
  (255515944373312847190720520512484175977, 3, [2, 2, 2, 7, 7, 11, 1627, 2657, 4423, 41201, 96557, 7240687, 107590001]),
  (205115282021455665897114700593932402728804164701536103180137503955397371, 10, [2, 3, 5, 29, 29, 31, 7723, 132896956044521568488119, 255515944373312847190720520512484175977]),
  (115792089237316195423570985008687907853269984665640564039457584007908834671663, 3, [2, 3, 7, 13441, 205115282021455665897114700593932402728804164701536103180137503955397371])]

theorem prime_order : Nat.Prime Config.order.toNat := by
  have h := prime_of_lucasRowsOk orderRows (known := []) (by simp) (by decide +kernel)
  exact h (orderRows.getLast (by simp [orderRows])) (List.getLast_mem _)

theorem prime_p : Nat.Prime Config.p.toNat := by
  have h := prime_of_lucasRowsOk pRows (known := []) (by simp) (by decide +kernel)
  exact h (pRows.getLast (by simp [pRows])) (List.getLast_mem _)

end Sys2Proof.Machine
end

