-- ==== Sys2Proof/Laws/Ecdsa.lean ====
section
/-! SUPPORT. The nonce loop of SIGN and the verdict of VERIFY (43_ecdsa.md R147, R148): what they answer, in the
relations of Safety.lean. -/

namespace Sys2Proof.Machine

open Sys2Proof.Safety

/-! ### The generator on C0 -/

theorem prime_curveKey_zero (s : State) : (s.curveKey 0).m.Prime := prime_p

/-- A point on a curve with secp256k1's key doubles without error: p is not 2. -/
theorem not_doublingFails_of_key {s : State} {q : Point} (h : s.curveKey q.curve = ⟨Config.p.toNat, 0, 7⟩) :
    ¬ DoublingFails s q := by
  cases q with
  | inf c => exact id
  | aff c x y =>
    have hk : s.curveKey c = ⟨Config.p.toNat, 0, 7⟩ := h
    rintro ⟨hm, -⟩
    rw [hk] at hm
    exact absurd hm (by decide)

theorem generator_below (s : State) : PointBelow s generator := by
  change Config.gx.toNat < Config.p.toNat ∧ Config.gy.toNat < Config.p.toNat
  decide

theorem generator_doubles (s : State) : ¬ DoublingFails s generator := not_doublingFails_of_key rfl

/-- `ScalarMul` of the generator never raises (43_ecdsa.md R147, R148). -/
theorem generator_scalarMul (s : State) {k : Nat} (hk : k < 2 ^ 256) :
    ∃ q, s.scalarMul generator k = .ok q ∧ ScalarMulIs s generator k q ∧ q.curve = 0 ∧ PointBelow s q :=
  scalarMul_spec (pt := generator) (prime_curveKey_zero s) (generator_below s) (generator_doubles s) hk

/-! ### Inverses modulo N -/

/-- Modulo the prime N every number in [1, N − 1] has an inverse. -/
theorem modInverse_order {a : Nat} (h0 : a ≠ 0) (h : a < Config.order.toNat) :
    ∃ x, modInverse a Config.order.toNat = some x ∧ x < Config.order.toNat ∧ a * x % Config.order.toNat = 1 := by
  have hg : Nat.gcd a Config.order.toNat = 1 :=
    (Nat.coprime_of_lt_prime h0 h prime_order).symm
  have hs := modInverse_spec a Config.order.toNat prime_order.pos Config.order.isLt
  rw [if_pos hg] at hs
  obtain ⟨x, hx, hlt, he⟩ := hs
  exact ⟨x, hx, hlt, he.trans (by decide)⟩

/-! ### One nonce -/

/-- What one turn of SIGN's loop answers for a nonce whose relation is known. -/
theorem signAttempt_of_gives {s : State} {z d k r t : Nat} (h0 : k ≠ 0) (hk : k < Config.order.toNat)
    (h : NonceGives s z d k r t) : s.signAttempt z d k = .ok (if r = 0 ∨ t = 0 then none else some (r, t)) := by
  obtain ⟨x, y, hR, hr, ht, he⟩ := h
  have hk2 : k < 2 ^ 256 := Nat.lt_trans hk Config.order.isLt
  obtain ⟨q, hq, hq', -, -⟩ := generator_scalarMul s hk2
  have e := scalarMulIs_unique (pt := generator) (prime_curveKey_zero s) hq' hR
  subst e
  have hx : xModOrder (.aff 0 x y) = r := hr.symm
  simp only [State.signAttempt, hq, bind_ok_left, hx]
  by_cases hr0 : r = 0
  · simp [hr0]
  obtain ⟨w, hw, hwlt, hkw⟩ := modInverse_order h0 hk
  rw [if_neg hr0, invertOrRaise, hw]
  simp only [bind_ok_left]
  have hN : 0 < Config.order.toNat := prime_order.pos
  have e : w * (z + r * d) % Config.order.toNat = t := by
    have h1 : w * (t * k) ≡ w * (z + r * d) [MOD Config.order.toNat] := Nat.ModEq.mul_left w he
    have h2 : w * (t * k) ≡ t [MOD Config.order.toNat] := by
      have h3 : k * w ≡ 1 [MOD Config.order.toNat] := by
        rw [Nat.ModEq, hkw]; decide
      calc w * (t * k) = t * (k * w) := by ring
        _ ≡ t * 1 [MOD Config.order.toNat] := h3.mul_left t
        _ = t := by ring
    have h4 : w * (z + r * d) ≡ t [MOD Config.order.toNat] := h1.symm.trans h2
    rw [Nat.ModEq] at h4
    rw [h4, Nat.mod_eq_of_lt ht]
  rw [e]
  by_cases ht0 : t = 0 <;> simp [hr0, ht0]

/-- One turn of SIGN's loop never raises; if it gives a signature, this is the nonce's own. -/
theorem signAttempt_cases {s : State} {z d k : Nat} (h0 : k ≠ 0) (hk : k < Config.order.toNat) :
    s.signAttempt z d k = .ok none ∨
      ∃ r t, s.signAttempt z d k = .ok (some (r, t)) ∧ NonceGives s z d k r t ∧ r ≠ 0 ∧ t ≠ 0 := by
  have hk2 : k < 2 ^ 256 := Nat.lt_trans hk Config.order.isLt
  obtain ⟨q, hq, hq', hc, -⟩ := generator_scalarMul s hk2
  obtain ⟨w, hw, -, hkw⟩ := modInverse_order h0 hk
  cases q with
  | inf c => left; simp [State.signAttempt, hq, xModOrder]
  | aff c x y =>
    have hc0 : c = 0 := hc
    subst hc0
    have hg : NonceGives s z d k (x.toNat % Config.order.toNat)
        (w * (z + x.toNat % Config.order.toNat * d) % Config.order.toNat) := by
      refine ⟨x, y, hq', rfl, Nat.mod_lt _ prime_order.pos, ?_⟩
      have h3 : k * w ≡ 1 [MOD Config.order.toNat] := by rw [Nat.ModEq, hkw]; decide
      have : w * (z + x.toNat % Config.order.toNat * d) % Config.order.toNat * k
          ≡ z + x.toNat % Config.order.toNat * d [MOD Config.order.toNat] := by
        calc w * (z + x.toNat % Config.order.toNat * d) % Config.order.toNat * k
            ≡ w * (z + x.toNat % Config.order.toNat * d) * k [MOD Config.order.toNat] := (Nat.mod_modEq _ _).mul_right k
          _ = (k * w) * (z + x.toNat % Config.order.toNat * d) := by ring
          _ ≡ 1 * (z + x.toNat % Config.order.toNat * d) [MOD Config.order.toNat] := h3.mul_right _
          _ = z + x.toNat % Config.order.toNat * d := by ring
      exact this
    rw [signAttempt_of_gives h0 hk hg]
    by_cases h : x.toNat % Config.order.toNat = 0 ∨ w * (z + x.toNat % Config.order.toNat * d) % Config.order.toNat = 0
    · left; rw [if_pos h]
    · right
      rw [if_neg h]
      exact ⟨_, _, rfl, hg, fun e => h (.inl e), fun e => h (.inr e)⟩

/-! ### The nonce loop -/

theorem nonce_range (raw : Nat) : scalarFromRaw raw ≠ 0 ∧ scalarFromRaw raw < Config.order.toNat := by
  have h := scalarFromRaw_range raw
  have : 0 < Config.order.toNat := prime_order.pos
  omega

/-- SIGN's loop tries `n` degenerate nonces, and then it has no attempt left or finds a signature. -/
theorem signLoop_cases (s : State) (z d : Nat) : ∀ (left done : Nat) (g : Rng), ∃ n, n ≤ left
    ∧ (∀ j, j < n → s.signAttempt z d (scalarFromRaw (g.skip j).draw.1) = .ok none)
    ∧ ((n = left ∧ s.signLoop z d left done g = ⟨g.skip left, done + left, .error .nonceExhausted⟩)
      ∨ (n < left ∧ ∃ p, s.signAttempt z d (scalarFromRaw (g.skip n).draw.1) = .ok (some p)
          ∧ s.signLoop z d left done g = ⟨g.skip (n + 1), done + (n + 1), .ok p⟩)) := by
  intro left
  induction left with
  | zero => exact fun done g => ⟨0, le_rfl, by simp, .inl ⟨rfl, rfl⟩⟩
  | succ left ih =>
    intro done g
    have hn := nonce_range g.draw.1
    rcases signAttempt_cases (s := s) (z := z) (d := d) hn.1 hn.2 with h | ⟨r, t, h, -⟩
    · obtain ⟨n, hle, hall, hend⟩ := ih (done + 1) g.draw.2
      refine ⟨n + 1, by omega, ?_, ?_⟩
      · intro j hj
        cases j with
        | zero => exact h
        | succ j => rw [Nat.add_comm j 1, ← Rng.skip_skip, ← Rng.draw_snd]; exact hall j (by omega)
      · have hl : s.signLoop z d (left + 1) done g = s.signLoop z d left (done + 1) g.draw.2 := by
          simp only [State.signLoop, h]
        rw [hl]
        rcases hend with ⟨rfl, he⟩ | ⟨hlt, p, hp, he⟩
        · exact .inl ⟨rfl, by rw [he, Rng.draw_snd, Rng.skip_skip, Nat.add_comm 1, Nat.add_assoc, Nat.add_comm 1]⟩
        · refine .inr ⟨by omega, p, ?_, ?_⟩
          · rw [Nat.add_comm n 1, ← Rng.skip_skip, ← Rng.draw_snd]; exact hp
          · rw [he, Rng.draw_snd, Rng.skip_skip, Nat.add_comm 1, Nat.add_assoc done 1, Nat.add_comm 1]
    · refine ⟨0, by omega, by simp, .inr ⟨by omega, (r, t), h, ?_⟩⟩
      simp only [State.signLoop, h, Nat.zero_add, Rng.draw_snd]

/-! ### The verdict -/

/-- Past the curve check VERIFY gives a verdict and raises nothing (R148, R167): the relation of Safety.lean. -/
theorem verdict_spec {s : State} {q : Point} {z r t : Nat} (hq : s.curveKey q.curve = ⟨Config.p.toNat, 0, 7⟩)
    (hb : PointBelow s q) :
    ∃ v, s.verdict q z r t = .ok v ∧ (v = true ↔ SignatureInRange r t ∧ VerifyAccepts s q z r t) := by
  unfold State.verdict
  by_cases hr : SignatureInRange r t
  · rw [if_neg (not_not.mpr hr)]
    have hN := prime_order.pos
    obtain ⟨⟨hr1, hr2⟩, ht1, ht2⟩ := hr
    have ht0 : t ≠ 0 := Nat.pos_iff_ne_zero.mp ht1
    have htN : t < Config.order.toNat := Nat.lt_of_le_of_lt ht2 (Nat.sub_lt hN Nat.one_pos)
    obtain ⟨w, hw, hwlt, htw⟩ := modInverse_order ht0 htN
    have hpq : (s.curveKey q.curve).m.Prime := by rw [hq]; exact prime_p
    have hmod : ∀ n, n % Config.order.toNat < 2 ^ 256 := fun n => Nat.lt_trans (Nat.mod_lt _ hN) Config.order.isLt
    obtain ⟨A, hA, hA', hAc, hAb⟩ := generator_scalarMul s (hmod (z * w))
    obtain ⟨B, hB, hB', hBc, hBb⟩ := scalarMul_spec hpq hb (not_doublingFails_of_key hq) (hmod (r * w))
    have hcomp : s.CurveCompatible A.curve B.curve := by
      change s.curveKey A.curve = s.curveKey B.curve
      rw [hAc, hBc, hq]; rfl
    have hAp : (s.curveKey A.curve).m.Prime := by rw [hAc]; exact prime_p
    have hAd : ¬ DoublingFails s A := not_doublingFails_of_key (by rw [hAc]; rfl)
    obtain ⟨R, hR, hR'⟩ : ∃ R, s.pointAdd A B = .ok R ∧ GroupLaw s A B R := by
      rcases pointAdd_spec hAp hcomp hAb hBb with h | h
      · exact absurd h.1 hAd
      · exact h
    have huniq : VerifyAccepts s q z r t → ∃ c x y, R = .aff c x y ∧ x.toNat % Config.order.toNat = r := by
      rintro ⟨w', c, x, y, A', B', hw', hA'', hB'', ⟨-, hsum⟩, hx⟩
      have hww : w' % Config.order.toNat = w % Config.order.toNat := by
        have h1 : w' * t ≡ w * t [MOD Config.order.toNat] := by
          rw [Nat.ModEq, hw', Nat.mul_comm w t, htw]
        have hco : Nat.Coprime Config.order.toNat t :=
          Nat.coprime_of_lt_prime ht0 htN prime_order
        exact Nat.ModEq.cancel_right_of_coprime hco h1
      have hz : z * w' % Config.order.toNat = z * w % Config.order.toNat := by
        rw [Nat.mul_mod, hww, ← Nat.mul_mod]
      have hrw : r * w' % Config.order.toNat = r * w % Config.order.toNat := by
        rw [Nat.mul_mod, hww, ← Nat.mul_mod]
      rw [hz] at hA''; rw [hrw] at hB''
      have e1 := scalarMulIs_unique (pt := generator) (prime_curveKey_zero s) hA' hA''
      have e2 := scalarMulIs_unique hpq hB' hB''
      subst e1; subst e2
      exact ⟨c, x, y, groupLaw_unique hAp hR' hsum, hx⟩
    have hrun : ∀ v, (match R with
        | .inf _ => .ok false
        | .aff _ x _ => .ok (decide (x.toNat % Config.order.toNat = r)) : Except Err Bool) = .ok v →
        (invertOrRaise t Config.order.toNat >>= fun w => s.scalarMul generator (z * w % Config.order.toNat) >>= fun a =>
          s.scalarMul q (r * w % Config.order.toNat) >>= fun b => s.pointAdd a b >>= fun sum =>
          match sum with
          | .inf _ => .ok false
          | .aff _ x _ => .ok (decide (x.toNat % Config.order.toNat = r))) = .ok v := fun v hv =>
      bind_eq_ok.mpr ⟨w, by rw [invertOrRaise, hw], bind_eq_ok.mpr ⟨A, hA, bind_eq_ok.mpr ⟨B, hB, bind_eq_ok.mpr ⟨R, hR, hv⟩⟩⟩⟩
    cases R with
    | inf c =>
      refine ⟨false, hrun _ rfl, by simp, ?_⟩
      rintro ⟨-, h⟩
      obtain ⟨_, _, _, h, -⟩ := huniq h
      cases h
    | aff c x y =>
      refine ⟨_, hrun _ rfl, ?_⟩
      rw [decide_eq_true_iff]
      constructor
      · intro hx
        exact ⟨⟨⟨hr1, hr2⟩, ht1, ht2⟩, w, c, x, y, A, B, by rw [Nat.mul_comm, htw], hA', hB', ⟨hcomp, hR'⟩, hx⟩
      · rintro ⟨-, h⟩
        obtain ⟨c', x', y', he, hx⟩ := huniq h
        injection he with _ he _
        rw [he]; exact hx
  · rw [if_pos hr]
    exact ⟨false, rfl, by simp [hr]⟩

end Sys2Proof.Machine
end

