-- ==== Sys2Proof/Laws/Exec.lean ====
section
/-! SUPPORT. Everything a command can do, said once: it completes with an error on the state it found, or SIGN
completes with an error after its nonces, or it succeeds with the effect of its rule. -/

namespace Sys2Proof.Machine

open Sys2Proof.Safety

/-- The staged state `st` and result `b` of a command that succeeds in `s`, with what its checks have found. -/
def Effect (i : Instr) (s st : State) (b : Bool) : Prop :=
  match i with
  | .nop => st = s ∧ b = false
  | .mov rd rs1 => Written s rs1 ∧ st = s.setV rd (s.vreg rs1) ∧ b = false
  | .pmov rd rs1 => ∃ q, s.preg rs1 = .pt q ∧ st = s.setP rd q ∧ b = false
  | .setmod slot rs1 => 2 ≤ slot.val ∧ Written s rs1 ∧ primeAcceptable s.params.primeCheckBits (s.vreg rs1).value.toNat = true
      ∧ st = (s.invalidateField slot).setField slot ⟨true, (s.vreg rs1).value⟩ ∧ b = false
  | .setcrv slot rs1 rs2 => slot ≠ 0 ∧ ∃ f g, (s.vreg rs1).tag = .fe f ∧ (s.vreg rs2).tag = .fe g ∧ s.modOf f = s.modOf g
      ∧ st = (s.invalidateCurve slot).setCurve slot ⟨true, f, (s.vreg rs1).value, (s.vreg rs2).value⟩ ∧ b = false
  | .fmk rd rs1 slot => Written s rs1 ∧ (s.fieldSlot slot).valid = true ∧ (s.vreg rs1).value.toNat < s.modOf slot
      ∧ st = s.setV rd ⟨(s.vreg rs1).value, .fe slot⟩ ∧ b = false
  | .fadd rd rs1 rs2 => ∃ o, s.readFieldPair rs1 rs2 = .ok o ∧ st = s.setV rd (feReg ((o.a + o.b) % o.m) o.f) ∧ b = false
  | .fsub rd rs1 rs2 => ∃ o, s.readFieldPair rs1 rs2 = .ok o
      ∧ st = s.setV rd (feReg (residue ((o.a : Int) - o.b) o.m) o.f) ∧ b = false
  | .fmul rd rs1 rs2 => ∃ o, s.readFieldPair rs1 rs2 = .ok o ∧ st = s.setV rd (feReg (o.a * o.b % o.m) o.f) ∧ b = false
  | .mmul rd rs1 rs2 => ∃ o, s.readFieldPair rs1 rs2 = .ok o ∧ o.m % 2 ≠ 0
      ∧ st = s.setV rd (feReg (o.a * o.b * montgomeryRinv o.m % o.m) o.f) ∧ b = false
  | .fpow rd rs1 rs2 neg => ∃ f, (s.vreg rs1).tag = .fe f ∧ Written s rs2
      ∧ st = s.setV rd (feReg (fieldPow (s.vreg rs1).value.toNat (s.vreg rs2).value.toNat neg (s.modOf f)) f) ∧ b = false
  | .fdiv rd rs1 rs2 => ∃ o, s.readFieldPair rs1 rs2 = .ok o ∧ o.b ≠ 0
      ∧ st = s.setV rd (feReg (fermatQuotient o.a o.b o.m) o.f) ∧ b = false
  | .feq rs1 rs2 => ∃ f g, (s.vreg rs1).tag = .fe f ∧ (s.vreg rs2).tag = .fe g ∧ st = s
      ∧ b = (decide ((s.vreg rs1).value = (s.vreg rs2).value) && decide (s.modOf f = s.modOf g))
  | .pinf rd slot => (s.curveSlot slot).valid = true ∧ st = s.setP rd (.inf slot) ∧ b = false
  | .pmk rd rs1 rs2 slot => (s.curveSlot slot).valid = true ∧ (∃ f g, (s.vreg rs1).tag = .fe f ∧ (s.vreg rs2).tag = .fe g
      ∧ s.modOf f = (s.curveKey slot).m ∧ s.modOf g = (s.curveKey slot).m)
      ∧ s.OnCurve slot (s.vreg rs1).value.toNat (s.vreg rs2).value.toNat
      ∧ st = s.setP rd (.aff slot (s.vreg rs1).value (s.vreg rs2).value) ∧ b = false
  | .peq rs1 rs2 => ∃ A B, s.preg rs1 = .pt A ∧ s.preg rs2 = .pt B ∧ st = s ∧ b = s.pointEq A B
  | .padd rd rs1 rs2 => ∃ A B q, s.preg rs1 = .pt A ∧ s.preg rs2 = .pt B ∧ s.pointAdd A B = .ok q ∧ st = s.setP rd q ∧ b = false
  | .pdbl rd rs1 => ∃ A q, s.preg rs1 = .pt A ∧ s.pointAdd A A = .ok q ∧ st = s.setP rd q ∧ b = false
  | .psmul rd rs1 rs2 => ∃ A q, s.preg rs1 = .pt A ∧ Written s rs2 ∧ s.scalarMul A (s.vreg rs2).value.toNat = .ok q
      ∧ st = s.setP rd q ∧ b = false
  | .pgen rd => st = s.setP rd generator ∧ b = false
  | .pgetx rd rs1 => ∃ c x y, s.preg rs1 = .pt (.aff c x y) ∧ st = s.setV rd ⟨x, .fe (s.curveSlot c).f⟩ ∧ b = false
  | .pgety rd rs1 => ∃ c x y, s.preg rs1 = .pt (.aff c x y) ∧ st = s.setV rd ⟨y, .fe (s.curveSlot c).f⟩ ∧ b = false
  | .pisinf rs1 => ∃ q, s.preg rs1 = .pt q ∧ st = s ∧ b = q.isInf
  | .minv rd rs1 rs2 => Written s rs1 ∧ Written s rs2
      ∧ ∃ x, modInverse (s.vreg rs1).value.toNat (s.vreg rs2).value.toNat = some x ∧ st = s.setV rd (intReg x) ∧ b = false
  | .keygen rd => st = { s with rng := s.rng.draw.2 }.setV rd (intReg (scalarFromRaw s.rng.draw.1)) ∧ b = false
  | .pubkey rd rs1 => Written s rs1 ∧ ValidKey (s.vreg rs1).value.toNat
      ∧ ∃ q, s.scalarMul generator (s.vreg rs1).value.toNat = .ok q ∧ st = s.setP rd q ∧ b = false
  | .sign rd rs1 rs2 rs3 => rd ≠ rs3 ∧ Written s rs1 ∧ Written s rs2 ∧ ValidKey (s.vreg rs2).value.toNat
      ∧ ∃ r g n p, s.signLoop (s.vreg rs1).value.toNat (s.vreg rs2).value.toNat s.params.nonceMaxAttempts 0 s.rng = r
        ∧ r = ⟨g, n, .ok p⟩ ∧ st = ((s.afterNonces r).setV rd (intReg p.1)).setV rs3 (intReg p.2) ∧ b = false
  | .verify rd rs1 rs2 rs3 => ∃ q, s.preg rd = .pt q ∧ Written s rs1 ∧ Written s rs2 ∧ Written s rs3
      ∧ s.CurveCompatible q.curve 0
      ∧ s.verdict q (s.vreg rs1).value.toNat (s.vreg rs2).value.toNat (s.vreg rs3).value.toNat = .ok b ∧ st = s

/-- The checks of SIGN before its nonces (43_ecdsa.md R147). -/
theorem signOperands_eq_ok {s : State} {rd rs1 rs2 rs3 : VIdx} {p : Nat × Nat} :
    s.signOperands rd rs1 rs2 rs3 = .ok p ↔ rd ≠ rs3 ∧ Written s rs1 ∧ Written s rs2
      ∧ ValidKey (s.vreg rs2).value.toNat ∧ p = ((s.vreg rs1).value.toNat, (s.vreg rs2).value.toNat) := by
  simp only [State.signOperands, bind_eq_ok, require_eq_ok, State.readV_eq_ok]
  constructor
  · rintro ⟨_, h1, z, ⟨h2, rfl⟩, d, ⟨h3, rfl⟩, _, h4, h5⟩
    exact ⟨h1, h2, h3, h4, by injection h5 with h5; exact h5.symm⟩
  · rintro ⟨h1, h2, h3, h4, rfl⟩
    exact ⟨(), h1, _, ⟨h2, rfl⟩, _, ⟨h3, rfl⟩, (), h4, rfl⟩

theorem invertOrRaise_eq_ok {a n x : Nat} : invertOrRaise a n = .ok x ↔ modInverse a n = some x := by
  unfold invertOrRaise
  cases modInverse a n <;> simp

/-- What a command answers (60_exceptions.md R162). -/
theorem exec_cases (i : Instr) (s : State) :
    (∃ e, exec i s = .next (s.completeErr e))
    ∨ (∃ rd rs1 rs2 rs3 r e, i = .sign rd rs1 rs2 rs3 ∧ s.signOperands rd rs1 rs2 rs3
          = .ok ((s.vreg rs1).value.toNat, (s.vreg rs2).value.toNat)
        ∧ s.signLoop (s.vreg rs1).value.toNat (s.vreg rs2).value.toNat s.params.nonceMaxAttempts 0 s.rng = r
        ∧ r.sig = .error e ∧ exec i s = .next ((s.afterNonces r).completeErr e))
    ∨ ∃ st b, exec i s = .next (st.completeOk b) ∧ Effect i s st b := by
  have simple : ∀ (body : Except Err Staged), exec i s = finish s body →
      (∀ r, body = .ok r → Effect i s r.st r.res) →
      (∃ e, exec i s = .next (s.completeErr e)) ∨ ∃ st b, exec i s = .next (st.completeOk b) ∧ Effect i s st b := by
    intro body he hr
    rcases finish_cases s body with ⟨r, hb, hf⟩ | ⟨e, _, hf⟩
    · exact .inr ⟨r.st, r.res, he.trans hf, hr r hb⟩
    · exact .inl ⟨e, he.trans hf⟩
  cases i with
  | sign rd rs1 rs2 rs3 =>
    rcases h : s.signOperands rd rs1 rs2 rs3 with e | p
    · exact .inl ⟨e, by simp [exec, execSign, h]⟩
    · right
      have hp := signOperands_eq_ok.mp h
      obtain ⟨h1, h2, h3, h4, rfl⟩ := hp
      rcases hr : s.signLoop (s.vreg rs1).value.toNat (s.vreg rs2).value.toNat s.params.nonceMaxAttempts 0 s.rng with ⟨g, n, sig⟩
      cases sig with
      | error e =>
        exact .inl ⟨rd, rs1, rs2, rs3, _, e, rfl, h, rfl, by rw [hr], by
          simp [exec, execSign, h, hr, State.writeSignature]⟩
      | ok p =>
        exact .inr ⟨_, false, by simp only [exec, execSign, h, hr, State.writeSignature, bind_ok_left, finish_ok],
          h1, h2, h3, h4, _, g, n, p, hr, rfl, rfl, rfl⟩
  | nop => exact .inr (.inr ⟨s, false, rfl, rfl, rfl⟩)
  | pgen rd => exact .inr (.inr ⟨_, false, rfl, rfl, rfl⟩)
  | keygen rd => exact .inr (.inr ⟨_, false, rfl, rfl, rfl⟩)
  | mov rd rs1 =>
    refine Or.imp id Or.inr (simple _ rfl fun r hr => ?_)
    simp only [bind_eq_ok, State.readV_eq_ok, Except.ok.injEq] at hr
    obtain ⟨_, ⟨h, rfl⟩, rfl⟩ := hr
    exact ⟨h, rfl, rfl⟩
  | pmov rd rs1 =>
    refine Or.imp id Or.inr (simple _ rfl fun r hr => ?_)
    simp only [bind_eq_ok, State.readP_eq_ok, Except.ok.injEq] at hr
    obtain ⟨q, h, rfl⟩ := hr
    exact ⟨q, h, rfl, rfl⟩
  | setmod slot rs1 =>
    refine Or.imp id Or.inr (simple _ rfl fun r hr => ?_)
    simp only [bind_eq_ok, require_eq_ok, State.readV_eq_ok, Except.ok.injEq] at hr
    obtain ⟨_, h1, _, ⟨h2, rfl⟩, _, h3, rfl⟩ := hr
    exact ⟨h1, h2, h3, rfl, rfl⟩
  | setcrv slot rs1 rs2 =>
    refine Or.imp id Or.inr (simple _ rfl fun r hr => ?_)
    simp only [bind_eq_ok, require_eq_ok, State.readV_eq_ok, fieldOfTag_eq_ok, Except.ok.injEq] at hr
    obtain ⟨_, h1, _, ⟨_, rfl⟩, _, ⟨_, rfl⟩, f, hf, g, hg, _, hm, rfl⟩ := hr
    exact ⟨h1, f, g, hf, hg, hm, rfl, rfl⟩
  | fmk rd rs1 slot =>
    refine Or.imp id Or.inr (simple _ rfl fun r hr => ?_)
    simp only [bind_eq_ok, require_eq_ok, State.readV_eq_ok, Except.ok.injEq] at hr
    obtain ⟨_, ⟨h1, rfl⟩, _, h2, _, h3, rfl⟩ := hr
    exact ⟨h1, h2, h3, rfl, rfl⟩
  | fadd rd rs1 rs2 =>
    refine Or.imp id Or.inr (simple _ rfl fun r hr => ?_)
    simp only [bind_eq_ok, Except.ok.injEq] at hr
    obtain ⟨o, h, rfl⟩ := hr
    exact ⟨o, h, rfl, rfl⟩
  | fsub rd rs1 rs2 =>
    refine Or.imp id Or.inr (simple _ rfl fun r hr => ?_)
    simp only [bind_eq_ok, Except.ok.injEq] at hr
    obtain ⟨o, h, rfl⟩ := hr
    exact ⟨o, h, rfl, rfl⟩
  | fmul rd rs1 rs2 =>
    refine Or.imp id Or.inr (simple _ rfl fun r hr => ?_)
    simp only [bind_eq_ok, Except.ok.injEq] at hr
    obtain ⟨o, h, rfl⟩ := hr
    exact ⟨o, h, rfl, rfl⟩
  | mmul rd rs1 rs2 =>
    refine Or.imp id Or.inr (simple _ rfl fun r hr => ?_)
    simp only [bind_eq_ok, require_eq_ok, Except.ok.injEq] at hr
    obtain ⟨o, h, _, h2, rfl⟩ := hr
    exact ⟨o, h, h2, rfl, rfl⟩
  | fpow rd rs1 rs2 neg =>
    refine Or.imp id Or.inr (simple _ rfl fun r hr => ?_)
    simp only [bind_eq_ok, State.readV_eq_ok, fieldOfTag_eq_ok, Except.ok.injEq] at hr
    obtain ⟨_, ⟨_, rfl⟩, _, ⟨h2, rfl⟩, f, hf, rfl⟩ := hr
    exact ⟨f, hf, h2, rfl, rfl⟩
  | fdiv rd rs1 rs2 =>
    refine Or.imp id Or.inr (simple _ rfl fun r hr => ?_)
    simp only [bind_eq_ok, require_eq_ok, Except.ok.injEq] at hr
    obtain ⟨o, h, _, h2, rfl⟩ := hr
    exact ⟨o, h, h2, rfl, rfl⟩
  | feq rs1 rs2 =>
    refine Or.imp id Or.inr (simple _ rfl fun r hr => ?_)
    simp only [bind_eq_ok, State.readV_eq_ok, fieldOfTag_eq_ok, Except.ok.injEq] at hr
    obtain ⟨_, ⟨_, rfl⟩, _, ⟨_, rfl⟩, f, hf, g, hg, rfl⟩ := hr
    exact ⟨f, g, hf, hg, rfl, rfl⟩
  | pinf rd slot =>
    refine Or.imp id Or.inr (simple _ rfl fun r hr => ?_)
    simp only [bind_eq_ok, require_eq_ok, Except.ok.injEq] at hr
    obtain ⟨_, h, rfl⟩ := hr
    exact ⟨h, rfl, rfl⟩
  | pmk rd rs1 rs2 slot =>
    refine Or.imp id Or.inr (simple _ rfl fun r hr => ?_)
    simp only [bind_eq_ok, require_eq_ok, State.readV_eq_ok, fieldOfTag_eq_ok, Except.ok.injEq] at hr
    obtain ⟨_, ⟨_, rfl⟩, _, ⟨_, rfl⟩, _, h, f, hf, g, hg, _, hm, _, ho, rfl⟩ := hr
    exact ⟨h, ⟨f, g, hf, hg, hm⟩, ho, rfl, rfl⟩
  | peq rs1 rs2 =>
    refine Or.imp id Or.inr (simple _ rfl fun r hr => ?_)
    simp only [bind_eq_ok, State.readP_eq_ok, Except.ok.injEq] at hr
    obtain ⟨A, hA, B, hB, rfl⟩ := hr
    exact ⟨A, B, hA, hB, rfl, rfl⟩
  | padd rd rs1 rs2 =>
    refine Or.imp id Or.inr (simple _ rfl fun r hr => ?_)
    simp only [bind_eq_ok, State.readP_eq_ok, Except.ok.injEq] at hr
    obtain ⟨A, hA, B, hB, q, hq, rfl⟩ := hr
    exact ⟨A, B, q, hA, hB, hq, rfl, rfl⟩
  | pdbl rd rs1 =>
    refine Or.imp id Or.inr (simple _ rfl fun r hr => ?_)
    simp only [bind_eq_ok, State.readP_eq_ok, Except.ok.injEq] at hr
    obtain ⟨A, hA, q, hq, rfl⟩ := hr
    exact ⟨A, q, hA, hq, rfl, rfl⟩
  | psmul rd rs1 rs2 =>
    refine Or.imp id Or.inr (simple _ rfl fun r hr => ?_)
    simp only [bind_eq_ok, State.readV_eq_ok, State.readP_eq_ok, Except.ok.injEq] at hr
    obtain ⟨A, hA, _, ⟨h, rfl⟩, q, hq, rfl⟩ := hr
    exact ⟨A, q, hA, h, hq, rfl, rfl⟩
  | pisinf rs1 =>
    refine Or.imp id Or.inr (simple _ rfl fun r hr => ?_)
    simp only [bind_eq_ok, State.readP_eq_ok, Except.ok.injEq] at hr
    obtain ⟨q, h, rfl⟩ := hr
    exact ⟨q, h, rfl, rfl⟩
  | minv rd rs1 rs2 =>
    refine Or.imp id Or.inr (simple _ rfl fun r hr => ?_)
    simp only [bind_eq_ok, State.readV_eq_ok, invertOrRaise_eq_ok, Except.ok.injEq] at hr
    obtain ⟨_, ⟨h1, rfl⟩, _, ⟨h2, rfl⟩, x, hx, rfl⟩ := hr
    exact ⟨h1, h2, x, hx, rfl, rfl⟩
  | pubkey rd rs1 =>
    refine Or.imp id Or.inr (simple _ rfl fun r hr => ?_)
    simp only [bind_eq_ok, require_eq_ok, State.readV_eq_ok, Except.ok.injEq] at hr
    obtain ⟨_, ⟨h1, rfl⟩, _, h2, q, hq, rfl⟩ := hr
    exact ⟨h1, h2, q, hq, rfl, rfl⟩
  | verify rd rs1 rs2 rs3 =>
    refine Or.imp id Or.inr (simple _ rfl fun r hr => ?_)
    simp only [bind_eq_ok, require_eq_ok, State.readV_eq_ok, State.readP_eq_ok, Except.ok.injEq] at hr
    obtain ⟨q, hq, _, ⟨h1, rfl⟩, _, ⟨h2, rfl⟩, _, ⟨h3, rfl⟩, _, hc, v, hv, rfl⟩ := hr
    exact ⟨q, hq, h1, h2, h3, hc, hv, rfl⟩
  | pgetx rd rs1 =>
    refine Or.imp id Or.inr (simple _ rfl fun r hr => ?_)
    simp only [bind_eq_ok, State.readP_eq_ok] at hr
    obtain ⟨q, hq, h⟩ := hr
    cases q with
    | inf c => cases h
    | aff c x y => cases h; exact ⟨c, x, y, hq, rfl, rfl⟩
  | pgety rd rs1 =>
    refine Or.imp id Or.inr (simple _ rfl fun r hr => ?_)
    simp only [bind_eq_ok, State.readP_eq_ok] at hr
    obtain ⟨q, hq, h⟩ := hr
    cases q with
    | inf c => cases h
    | aff c x y => cases h; exact ⟨c, x, y, hq, rfl, rfl⟩

/-- A command whose body succeeds. -/
theorem exec_of_ok {i : Instr} {s : State} {body : Except Err Staged} {r : Staged} (hb : exec i s = finish s body)
    (h : body = .ok r) : exec i s = .next (r.st.completeOk r.res) := by rw [hb, h]; rfl

/-- A command whose body raises. -/
theorem exec_of_error {i : Instr} {s : State} {body : Except Err Staged} {e : Err} (hb : exec i s = finish s body)
    (h : body = .error e) : exec i s = .next (s.completeErr e) := by rw [hb, h]; rfl

theorem succeeded_completeOk (s : State) (b : Bool) : Succeeded (s.completeOk b) b := ⟨rfl, rfl, rfl, rfl, rfl⟩

theorem failed_completeErr (s : State) (e : Err) : Failed (s.completeErr e) e := ⟨rfl, rfl, rfl, rfl, rfl⟩

/-- A successful command's staged state keeps every field but the registers, the slots, ATTEMPTS and the RNG port. -/
theorem effect_frame {i : Instr} {s st : State} {b : Bool} (h : Effect i s st b) :
    st.status = s.status ∧ st.ie = s.ie ∧ st.cmd = s.cmd ∧ st.params = s.params ∧ st.rstN = s.rstN
      ∧ st.agenda = s.agenda ∧ st.reads = s.reads ∧ st.freeCount = s.freeCount ∧ st.ovrLog = s.ovrLog
      ∧ st.errLog = s.errLog := by
  cases i <;> simp only [Effect] at h
  case sign => obtain ⟨_, _, _, _, r, g, n, p, _, rfl, rfl, _⟩ := h; simp [State.afterNonces]
  case setmod => obtain ⟨_, _, _, rfl, _⟩ := h; simp
  all_goals first
    | (obtain ⟨rfl, _⟩ := h; simp)
    | (obtain ⟨_, rfl, _⟩ := h; simp)
    | (obtain ⟨_, _, rfl, _⟩ := h; simp)
    | (obtain ⟨_, _, _, rfl, _⟩ := h; simp)
    | (obtain ⟨_, _, _, _, rfl, _⟩ := h; simp)
    | (obtain ⟨_, _, _, _, _, rfl, _⟩ := h; simp)
    | (obtain ⟨_, _, _, _, _, _, rfl, _⟩ := h; simp)
    | (obtain ⟨_, _, _, _, _, _, _, rfl⟩ := h; simp)

end Sys2Proof.Machine
end

