-- ==== Sys2Proof/Laws/Group.lean ====
section
/-! SUPPORT. The group law of secp256k1 (42_point.md R120, R124) is the group law of its points over GF(p), so
double-and-add gives multiples, and G has order N (00_scope.md R8). -/

namespace Sys2Proof.Machine

open Sys2Proof.Safety

/-- The curve y² = x³ + 7 over GF(p). -/
def secpCurve : WeierstrassCurve.Affine (ZMod Config.p.toNat) := ⟨0, 0, 0, 0, 7⟩

/-- The key of secp256k1's slot (R16). -/
abbrev IsSecp (s : State) (c : CIdx) : Prop := s.curveKey c = ⟨Config.p.toNat, 0, 7⟩

/-- N · G, the loop run without reducing the scalar. -/
theorem order_loop : State.reset.scalarLoop 256 Config.order.toNat (.inf 0) generator = .ok (.inf 0) := by
  decide +kernel

section Points

variable [Fact (Nat.Prime Config.p.toNat)]

theorem secp_discriminant : secpCurve.Δ ≠ 0 := by
  have e : secpCurve.Δ = -((21168 : Nat) : ZMod Config.p.toNat) := by
    simp [secpCurve, WeierstrassCurve.Δ, WeierstrassCurve.b₂, WeierstrassCurve.b₄, WeierstrassCurve.b₆, WeierstrassCurve.b₈]
    norm_num
  rw [e, neg_ne_zero]
  exact zmod_ne_zero (by decide) (by decide)

/-- `q` shows the group element `P`. -/
def Shows (q : Point) (P : secpCurve.Point) : Prop :=
  match q with
  | .inf _ => P = 0
  | .aff _ x y => ∃ h, P = .some (x.toNat : ZMod Config.p.toNat) (y.toNat : ZMod Config.p.toNat) h

theorem secp_negY (x y : ZMod Config.p.toNat) : secpCurve.negY x y = -y := by
  simp [WeierstrassCurve.Affine.negY, secpCurve]

/-- A sum by the five cases shows the sum of the group. -/
theorem groupLaw_shows {s : State} {A B q : Point} (hk : IsSecp s A.curve) (hA : PointBelow s A) (hB : PointBelow s B)
    (hc : s.CurveCompatible A.curve B.curve) {P Q : secpCurve.Point} (hP : Shows A P) (hQ : Shows B Q)
    (h : GroupLaw s A B q) : Shows q (P + Q) := by
  cases h with
  | infLeft =>
    obtain rfl : P = 0 := hP
    rwa [zero_add]
  | infRight =>
    obtain rfl : Q = 0 := hQ
    rwa [add_zero]
  | verticalChord c d x y1 y2 hy =>
    obtain ⟨h1, rfl⟩ := hP
    obtain ⟨h2, rfl⟩ := hQ
    refine WeierstrassCurve.Affine.Point.add_of_Y_eq rfl ((WeierstrassCurve.Affine.Y_eq_of_X_eq h1.1 h2.1 rfl).resolve_left ?_)
    intro e
    have hb : y2.toNat < (s.curveKey c).m := by rw [show s.curveKey c = s.curveKey d from hc]; exact hB.2
    have hk' : (s.curveKey c).m = Config.p.toNat := by rw [show s.curveKey c = _ from hk]
    exact hy (BitVec.eq_of_toNat_eq (eq_of_zmod_eq (hk' ▸ hA.2) (hk' ▸ hb) e))
  | verticalTangent c d x =>
    obtain ⟨h1, rfl⟩ := hP
    obtain ⟨h2, rfl⟩ := hQ
    exact WeierstrassCurve.Affine.Point.add_of_Y_eq rfl (by rw [secp_negY]; simp)
  | tangent c d x y x3 y3 l hy hl ht =>
    obtain ⟨h1, rfl⟩ := hP
    obtain ⟨h2, rfl⟩ := hQ
    have hm : (s.curveKey c).m = Config.p.toNat := by rw [show s.curveKey c = _ from hk]
    have ha : (s.curveKey c).a = 0 := by rw [show s.curveKey c = _ from hk]
    rw [slopeIs_iff, hm, ha] at hl
    rw [thirdPointIs_iff, hm] at ht
    obtain ⟨hd, -, hl⟩ := hl
    obtain ⟨-, -, hx, hy'⟩ := ht
    push_cast at hd hl
    have hne : (y.toNat : ZMod Config.p.toNat) ≠ secpCurve.negY (x.toNat : ZMod Config.p.toNat) y.toNat := by
      rw [secp_negY]
      intro e
      exact hd (by linear_combination e)
    have hs : secpCurve.slope (x.toNat : ZMod Config.p.toNat) x.toNat y.toNat y.toNat = l := by
      rw [WeierstrassCurve.Affine.slope_of_Y_ne rfl hne, secp_negY, div_eq_iff (by intro e; exact hd (by linear_combination e))]
      simp only [secpCurve]
      linear_combination -hl
    rw [WeierstrassCurve.Affine.Point.add_self_of_Y_ne hne]
    have e3 : secpCurve.addX (x.toNat : ZMod Config.p.toNat) x.toNat l = x3.toNat := by
      simp [WeierstrassCurve.Affine.addX, secpCurve, hx]
    have e4 : secpCurve.addY (x.toNat : ZMod Config.p.toNat) x.toNat y.toNat l = y3.toNat := by
      rw [WeierstrassCurve.Affine.addY, secp_negY, WeierstrassCurve.Affine.negAddY, e3, hy']; ring
    simp only [Shows, hs, e3, e4, exists_prop, and_true]
    have := WeierstrassCurve.Affine.nonsingular_add h1 h1 fun hxy => hne hxy.2
    rwa [hs, e3, e4] at this
  | secant c d x1 y1 x2 y2 x3 y3 l hx12 hl ht =>
    obtain ⟨h1, rfl⟩ := hP
    obtain ⟨h2, rfl⟩ := hQ
    have hm : (s.curveKey c).m = Config.p.toNat := by rw [show s.curveKey c = _ from hk]
    rw [slopeIs_iff, hm] at hl
    rw [thirdPointIs_iff, hm] at ht
    obtain ⟨hd, -, hl⟩ := hl
    obtain ⟨-, -, hx, hy'⟩ := ht
    push_cast at hd hl
    have hne : (x1.toNat : ZMod Config.p.toNat) ≠ x2.toNat := fun e => hd (by rw [e, sub_self])
    have hs : secpCurve.slope (x1.toNat : ZMod Config.p.toNat) x2.toNat y1.toNat y2.toNat = l := by
      rw [WeierstrassCurve.Affine.slope_of_X_ne hne, div_eq_iff (sub_ne_zero.mpr hne)]
      linear_combination hl
    rw [WeierstrassCurve.Affine.Point.add_of_X_ne hne]
    have e3 : secpCurve.addX (x1.toNat : ZMod Config.p.toNat) x2.toNat l = x3.toNat := by
      simp [WeierstrassCurve.Affine.addX, secpCurve, hx]
    have e4 : secpCurve.addY (x1.toNat : ZMod Config.p.toNat) x2.toNat y1.toNat l = y3.toNat := by
      rw [WeierstrassCurve.Affine.addY, secp_negY, WeierstrassCurve.Affine.negAddY, e3, hy']; ring
    simp only [Shows, hs, e3, e4, exists_prop, and_true]
    have := WeierstrassCurve.Affine.nonsingular_add h1 h2 fun hxy => hne hxy.1
    rwa [hs, e3, e4] at this

/-- Double-and-add shows `result + k • current`. -/
theorem doubleAndAdd_shows {s : State} {c : CIdx} (hk : IsSecp s c) {k : Nat} {R C q : Point} (h : DoubleAndAdd s k R C q) :
    ∀ {P Q : secpCurve.Point}, R.curve = c → C.curve = c → PointBelow s R → PointBelow s C → Shows R P → Shows C Q →
      Shows q (P + k • Q) := by
  induction h with
  | done => intro P Q _ _ _ _ hP _; simpa using hP
  | odd k R C R' C' q h0 h1 ha hd _ ih =>
    intro P Q hr hc hbr hbc hP hQ
    have e : P + k • Q = (P + Q) + (k / 2) • (Q + Q) := by
      conv_lhs => rw [show k = 1 + k / 2 * 2 by omega, add_smul, mul_smul, two_smul, one_smul, ← add_assoc]
    rw [e]
    refine ih ?_ ?_ (groupLaw_below ha.2 hbr hbc) (groupLaw_below hd.2 hbc hbc)
      (groupLaw_shows (hr ▸ hk) hbr hbc ha.1 hP hQ ha.2) (groupLaw_shows (hc ▸ hk) hbc hbc hd.1 hQ hQ hd.2)
    · rcases groupLaw_curve ha.2 with e | e <;> simp [e, hr, hc]
    · rcases groupLaw_curve hd.2 with e | e <;> simp [e, hc]
  | even k R C C' q h0 h1 hd _ ih =>
    intro P Q hr hc hbr hbc hP hQ
    have e : P + k • Q = P + (k / 2) • (Q + Q) := by
      conv_lhs => rw [show k = k / 2 * 2 by omega, mul_smul, two_smul]
    rw [e]
    refine ih hr ?_ hbr (groupLaw_below hd.2 hbc hbc) hP (groupLaw_shows (hc ▸ hk) hbc hbc hd.1 hQ hQ hd.2)
    rcases groupLaw_curve hd.2 with e | e <;> simp [e, hc]

/-- Two points of one slot below the modulus that show one element are the same. -/
theorem eq_of_shows {s : State} {q q' : Point} (hk : IsSecp s q.curve) (hc : q.curve = q'.curve) (hb : PointBelow s q)
    (hb' : PointBelow s q') {P : secpCurve.Point} (h : Shows q P) (h' : Shows q' P) : q = q' := by
  cases q with
  | inf c =>
    cases q' with
    | inf d => exact congrArg Point.inf hc
    | aff d x y =>
      obtain ⟨h2, e⟩ := h'
      exact absurd (e.symm.trans h) (WeierstrassCurve.Affine.Point.some_ne_zero h2)
  | aff c x y =>
    cases q' with
    | inf d =>
      obtain ⟨h2, e⟩ := h
      exact absurd (e.symm.trans h') (WeierstrassCurve.Affine.Point.some_ne_zero h2)
    | aff d x' y' =>
      obtain rfl : c = d := hc
      obtain ⟨_, rfl⟩ := h
      obtain ⟨_, e⟩ := h'
      rw [WeierstrassCurve.Affine.Point.some.injEq] at e
      have hm : (s.curveKey c).m = Config.p.toNat := by rw [show s.curveKey c = _ from hk]
      rw [PointBelow, hm] at hb hb'
      rw [BitVec.eq_of_toNat_eq (eq_of_zmod_eq hb.1 hb'.1 e.1), BitVec.eq_of_toNat_eq (eq_of_zmod_eq hb.2 hb'.2 e.2)]

/-! ### The generator -/

theorem generator_on_curve : secpCurve.Nonsingular (Config.gx.toNat : ZMod Config.p.toNat) (Config.gy.toNat : ZMod Config.p.toNat) := by
  rw [← WeierstrassCurve.Affine.equation_iff_nonsingular_of_Δ_ne_zero secp_discriminant,
    WeierstrassCurve.Affine.equation_iff]
  have h : ((Config.gy.toNat ^ 2 : Nat) : ZMod Config.p.toNat) = ((Config.gx.toNat ^ 3 + 7 : Nat) : ZMod Config.p.toNat) :=
    (ZMod.natCast_eq_natCast_iff' _ _ _).mpr (by decide)
  push_cast at h
  simpa [secpCurve] using h

theorem generator_shows : ∃ G, Shows generator G := ⟨_, generator_on_curve, rfl⟩

theorem shows_ne_zero {c : CIdx} {x y : U256} {P : secpCurve.Point} (h : Shows (.aff c x y) P) : P ≠ 0 := by
  obtain ⟨h1, rfl⟩ := h
  exact WeierstrassCurve.Affine.Point.some_ne_zero h1

/-- G has order N (00_scope.md R8). -/
theorem generator_order {G : secpCurve.Point} (h : Shows generator G) : addOrderOf G = Config.order.toNat := by
  have : Fact (Nat.Prime Config.order.toNat) := ⟨prime_order⟩
  refine addOrderOf_eq_prime ?_ (shows_ne_zero h)
  obtain ⟨q, hq, hd, -, -⟩ := scalarLoop_spec (s := State.reset) (c := 0) (prime_curveKey_zero _) 256 Config.order.toNat
    (.inf 0) generator Config.order.isLt rfl rfl trivial (generator_below _) (generator_doubles _)
  obtain rfl : Point.inf 0 = q := Except.ok.inj (order_loop.symm.trans hq)
  have := doubleAndAdd_shows (s := State.reset) (c := 0) rfl hd (P := 0) rfl rfl trivial (generator_below _) rfl h
  rw [zero_add] at this
  exact this

/-- `ScalarMul` on C0 of a point that shows a multiple of G. -/
theorem scalarMulIs_shows {s : State} {pt q : Point} {k n : Nat} (hc : pt.curve = 0) (hb : PointBelow s pt)
    {G : secpCurve.Point} (hG : Shows generator G) (hpt : Shows pt (n • G)) (h : ScalarMulIs s pt k q) :
    Shows q ((k * n) • G) := by
  rw [ScalarMulIs, if_pos hc] at h
  have := doubleAndAdd_shows (s := s) (c := 0) rfl h (P := 0) (Q := n • G) hc hc trivial hb rfl hpt
  rw [zero_add, ← mul_nsmul'] at this
  have e : (k % Config.order.toNat * n) • G = (k * n) • G := by
    rw [← mod_addOrderOf_nsmul, ← mod_addOrderOf_nsmul G (k * n), generator_order hG, Nat.mod_mul_mod]
  rwa [e] at this

end Points

/-! ### Multiples of G -/

/-- k·G is at infinity only if N divides k (43_ecdsa.md R149.5). -/
theorem generator_multiple_affine {s : State} {k : Nat} {c : CIdx} (h : ScalarMulIs s generator k (.inf c)) :
    Config.order.toNat ∣ k := by
  have : Fact (Nat.Prime Config.p.toNat) := ⟨prime_p⟩
  obtain ⟨G, hG⟩ := generator_shows
  have h0 : Shows (.inf c) ((k * 1) • G) := scalarMulIs_shows rfl (generator_below s) hG (by rwa [one_nsmul]) h
  rw [mul_one] at h0
  rw [← generator_order hG]
  exact addOrderOf_dvd_of_nsmul_eq_zero h0

/-- u·G + v·(d·G) = k·G on C0 when u + v·d and k are the same modulo N, whatever the states. -/
theorem combination_eq {s s' s'' : State} {d k u v : Nat} {D A B S R : Point} (hD : ScalarMulIs s generator d D)
    (hDc : D.curve = 0) (hDb : PointBelow s'' D)
    (hA : ScalarMulIs s'' generator u A) (hAc : A.curve = 0) (hAb : PointBelow s'' A)
    (hB : ScalarMulIs s'' D v B) (hBc : B.curve = 0) (hBb : PointBelow s'' B) (hS : GroupLaw s'' A B S)
    (hR : ScalarMulIs s' generator k R) (hRc : R.curve = 0) (hRb : PointBelow s'' R)
    (h : (u + v * d) % Config.order.toNat = k % Config.order.toNat) : S = R := by
  have : Fact (Nat.Prime Config.p.toNat) := ⟨prime_p⟩
  obtain ⟨G, hG⟩ := generator_shows
  have hG1 : Shows generator ((1 : Nat) • G) := by rwa [one_nsmul]
  have dD : Shows D (d • G) := by simpa using scalarMulIs_shows rfl (generator_below s) hG hG1 hD
  have dA : Shows A (u • G) := by simpa using scalarMulIs_shows rfl (generator_below s'') hG hG1 hA
  have dB : Shows B ((v * d) • G) := scalarMulIs_shows hDc hDb hG dD hB
  have dR : Shows R (k • G) := by simpa using scalarMulIs_shows rfl (generator_below s') hG hG1 hR
  have dS : Shows S (u • G + (v * d) • G) :=
    groupLaw_shows (s := s'') (by rw [hAc]; rfl) hAb hBb (by rw [hAc, hBc]) dA dB hS
  have e : u • G + (v * d) • G = k • G := by
    rw [← add_nsmul, ← mod_addOrderOf_nsmul, generator_order hG, h, ← generator_order hG, mod_addOrderOf_nsmul]
  have hSc : S.curve = 0 := by rcases groupLaw_curve hS with e | e <;> rw [e] <;> assumption
  exact eq_of_shows (s := s'') (by rw [hSc]; rfl) (by rw [hSc, hRc]) (groupLaw_below hS hAb hBb) hRb (e ▸ dS) dR

end Sys2Proof.Machine
end

