-- ==== Sys2Proof/Laws/Step.lean ====
section
/-! SUPPORT. Everything a step can do, said once (20_memory.md R51), and the words of the register window. -/

namespace Sys2Proof.Machine

open Sys2Proof.Safety

/-! ### Steps -/

/-- The core's step (60_exceptions.md R162). -/
theorem step_of_coreNext {s : State} {rest : List Event} (h : CoreNext s rest) : step s = coreStep { s with agenda := rest } := by
  obtain ⟨hb, h | ⟨h, rfl⟩⟩ := h
  · simp [step, nextMove, h, coreMove, State.pending, hb]
  · have : s = { s with agenda := [] } := by cases s; simp_all
    rw [← this]
    simp [step, nextMove, h, coreMove, State.pending, hb]

theorem step_of_write {s : State} {width : Nat} {off : Offset} {d : Word32} {rest : List Event}
    (h : s.agenda = .write width off d :: rest) : step s = .next ({ s with agenda := rest }.hostWrite width off d) := by
  simp [step, nextMove, h]

theorem step_of_read {s : State} {width : Nat} {off : Offset} {rest : List Event} (h : s.agenda = .read width off :: rest) :
    step s = .next ({ s with agenda := rest }.hostRead width off) := by
  simp [step, nextMove, h]

theorem step_of_rstN {s : State} {level : Bool} {rest : List Event} (h : s.agenda = .rstN level :: rest) :
    step s = .next ({ s with agenda := rest }.driveRstN level) := by
  simp [step, nextMove, h]

/-- What the core's step answers: it always completes the command. -/
theorem coreStep_cases (s : State) :
    (∃ e, coreStep s = .next (s.completeErr e))
      ∨ (∃ r e, coreStep s = .next ((s.afterNonces r).completeErr e))
      ∨ ∃ i st b, decode s.cmd = some i ∧ coreStep s = .next (st.completeOk b) ∧ Effect i s st b := by
  unfold coreStep
  cases hd : decode s.cmd with
  | none => exact .inl ⟨_, rfl⟩
  | some i =>
    rcases exec_cases i s with ⟨e, h⟩ | ⟨_, _, _, _, r, e, _, _, _, _, h⟩ | ⟨st, b, h, he⟩
    · exact .inl ⟨e, h⟩
    · exact .inr (.inl ⟨r, e, h⟩)
    · exact .inr (.inr ⟨i, st, b, rfl, h, he⟩)

/-- Everything one step can do: nothing but a move taken from the agenda, a command, a read, a write outside reset, or
a level of `rst_n`. -/
theorem step_cases {s t : State} (h : step s = .next t) :
    (∃ rest, t = { s with agenda := rest }) ∨ (∃ rest, CoreNext s rest ∧ coreStep { s with agenda := rest } = .next t)
    ∨ (∃ rest w n, t = { s with agenda := rest, reads := s.reads ++ [w], freeCount := n })
    ∨ (∃ rest off d, s.rstN = true ∧ t = ({ s with agenda := rest } : State).writeReg off d (winReg off))
    ∨ (∃ rest, t = { s with agenda := rest, rstN := true })
    ∨ (∃ rest, t = { ({ s with agenda := rest } : State).resetBlock with rstN := false }) := by
  unfold step nextMove at h
  cases ha : s.agenda with
  | nil =>
    simp only [ha, coreMove] at h
    split at h
    · rename_i hb
      right; left; exact ⟨[], ⟨hb, .inr ⟨ha, rfl⟩⟩, by rw [← h, ← ha]⟩
    · cases h; left; exact ⟨[], by rw [← ha]⟩
  | cons e rest =>
    cases e with
    | core =>
      simp only [ha, coreMove] at h
      split at h
      · rename_i hb
        right; left; exact ⟨rest, ⟨hb, .inl ha⟩, h⟩
      · cases h; left; exact ⟨rest, rfl⟩
    | read w off =>
      simp only [ha] at h
      cases h
      right; right; left
      unfold State.hostRead
      split
      · exact ⟨rest, 0, _, rfl⟩
      · split
        · exact ⟨rest, _, _, rfl⟩
        · exact ⟨rest, _, _, rfl⟩
    | write w off d =>
      simp only [ha] at h
      cases h
      unfold State.hostWrite
      split
      · left; exact ⟨rest, rfl⟩
      · rename_i hn
        right; right; right; left
        exact ⟨rest, off, d, by simpa using (not_or.mp hn).2, rfl⟩
    | rstN l =>
      simp only [ha] at h
      cases h
      cases l
      · right; right; right; right; right; exact ⟨rest, rfl⟩
      · right; right; right; right; left; exact ⟨rest, rfl⟩

/-! ### Reset of a running command -/

/-- No command gives a draw back. -/
theorem exec_drawn {i : Instr} {s t : State} (h : exec i s = .next t) : s.rng.drawn ≤ t.rng.drawn := by
  have hs : ∀ z d, s.rng.drawn ≤ (s.signLoop z d s.params.nonceMaxAttempts 0 s.rng).rng.drawn := by
    intro z d
    obtain ⟨m, hm, hd, ⟨rfl, hl⟩ | ⟨hlt', p, hp, hl⟩⟩ := signLoop_cases s z d s.params.nonceMaxAttempts 0 s.rng <;>
      rw [hl] <;> simp
  rcases exec_cases i s with ⟨e, h1⟩ | ⟨_, _, _, _, r, e, hi, _, hr, _, h1⟩ | ⟨st, b, h1, he⟩ <;> rw [h1] at h <;> cases h
  · exact le_rfl
  · rw [← hr]; exact hs _ _
  · cases i <;> simp only [Effect] at he
    case keygen => obtain ⟨rfl, _⟩ := he; simp [State.completeOk, Rng.draw_drawn]
    case sign rd rs1 rs2 rs3 =>
      obtain ⟨_, _, _, _, r, g, n, p, hr, e, rfl, _⟩ := he
      have := hs (s.vreg rs1).value.toNat (s.vreg rs2).value.toNat
      rw [hr] at this; simpa [State.afterNonces] using this
    case setmod => obtain ⟨_, _, _, rfl, _⟩ := he; simp
    all_goals first
      | (obtain ⟨rfl, _⟩ := he; simp)
      | (obtain ⟨_, rfl, _⟩ := he; simp)
      | (obtain ⟨_, _, rfl, _⟩ := he; simp)
      | (obtain ⟨_, _, _, rfl, _⟩ := he; simp)
      | (obtain ⟨_, _, _, _, rfl, _⟩ := he; simp)
      | (obtain ⟨_, _, _, _, _, rfl, _⟩ := he; simp)
      | (obtain ⟨_, _, _, _, _, _, rfl, _⟩ := he; simp)
      | (obtain ⟨_, _, _, _, _, _, _, rfl⟩ := he; simp)

/-- The draws that a reset loses (70_reset_and_hazards.md R192): none with no command pending or a word that does not
decode, and never more than the command would take. -/
theorem abandonedDraws_spec (s : State) :
    (s.status.busy = false ∨ decode s.cmd = none → s.abandonedDraws = 0)
      ∧ ∀ i u, decode s.cmd = some i → exec i s = .next u → s.rng.drawn + s.abandonedDraws ≤ u.rng.drawn := by
  refine ⟨fun h => ?_, fun i u hd hu => ?_⟩
  · rcases h with h | h
    · simp [State.abandonedDraws, State.pending, h]
    · have : s.pendingDraws = 0 := by simp [State.pendingDraws, coreStep, h]
      simp [State.abandonedDraws, this]
  · have h1 := exec_drawn hu
    have h2 : s.pendingDraws = u.rng.drawn - s.rng.drawn := by simp [State.pendingDraws, coreStep, hd, hu]
    have h3 : s.abandonedDraws ≤ s.pendingDraws := by
      unfold State.abandonedDraws
      split
      · exact Nat.min_le_right _ _
      · exact Nat.zero_le _
    omega

/-! ### The window -/

/-- The port sees an access at BASE + `off` at `off` (20_memory.md R40). -/
theorem windowOffset_busAddress (s : State) (off : Offset) : s.windowOffset (s.busAddress off) = some off := by
  have := off.isLt
  unfold State.windowOffset
  rw [if_pos (by simp only [State.busAddress]; omega)]
  simp [State.busAddress]

/-- No other access reaches the block (20_memory.md R40). -/
theorem windowOffset_eq_some {s : State} {addr : Nat} {off : Offset} :
    s.windowOffset addr = some off ↔ addr = s.busAddress off := by
  refine ⟨fun h => ?_, fun h => h ▸ windowOffset_busAddress s off⟩
  simp only [State.windowOffset] at h
  split at h
  · cases h
    simp only [State.busAddress, BitVec.toNat_ofNat]
    omega
  · cases h

/-- BASE being aligned, the port's offset is bits 11 to 0 of the bus address (20_memory.md R40). -/
theorem busAddress_mod (s : State) (off : Offset) : s.busAddress off % 0x1000 = off.toNat := by
  have := off.isLt
  simp only [State.busAddress, Params.base]
  omega

/-- Nibble `k` of a word of nibbles (10_state.md R23, R24). -/
theorem packNibbles_nibble : ∀ (l : List Nat), (∀ x ∈ l, x < 16) → ∀ k, packNibbles l / 16 ^ k % 16 = l.getD k 0
  | [], _, k => by simp [packNibbles]
  | x :: l, h, 0 => by
    have := h x List.mem_cons_self
    simp only [packNibbles, pow_zero, Nat.div_one, List.getD_cons_zero]
    omega
  | x :: l, h, k + 1 => by
    have h0 := h x List.mem_cons_self
    have ih := packNibbles_nibble l (fun y hy => h y (List.mem_cons_of_mem _ hy)) k
    rw [packNibbles, pow_succ', ← Nat.div_div_eq_div_mul, show (x + 16 * packNibbles l) / 16 = packNibbles l by omega, ih]
    simp


/-- V[i] word j is at 0x100 + 0x20·i + 4·j (20_memory.md R41). -/
theorem winReg_vword (i : VIdx) (j : Fin 8) : winReg (BitVec.ofNat 12 (0x100 + 0x20 * i.val + 4 * j.val)) = .vword i j := by
  revert i j
  decide +kernel

theorem definedAccess_vword (i : VIdx) (j : Fin 8) :
    definedAccess 32 (BitVec.ofNat 12 (0x100 + 0x20 * i.val + 4 * j.val)) = true := by
  revert i j
  decide +kernel

/-- The offsets of R43 name no register. -/
theorem winReg_reserved {off : Offset} (h : (0x028 ≤ off.toNat ∧ off.toNat < 0x100) ∨ 0x300 ≤ off.toNat) : winReg off = .reserved := by
  unfold winReg
  split <;> first | omega | skip
  rw [if_neg (by omega)]

/-- Word k after word j is replaced (20_memory.md R47). -/
theorem withWord_word (x : U256) (j k : Fin 8) (d : Word32) : (withWord x j d).extractLsb' (32 * k.val) 32 = if k = j then d else x.extractLsb' (32 * k.val) 32 := by
  have hj := j.isLt
  have hk := k.isLt
  ext n hn
  simp only [withWord, BitVec.getElem_extractLsb', BitVec.getLsbD_or, BitVec.getLsbD_and, BitVec.getLsbD_not, BitVec.getLsbD_shiftLeft, BitVec.getLsbD_setWidth]
  have e : BitVec.getLsbD 0xFFFFFFFF#256 (32 * k.val + n - 32 * j.val) = decide (32 * k.val + n - 32 * j.val < 32) := by
    have : (0xFFFFFFFF#256) = BitVec.ofNat 256 (2^32 - 1) := rfl
    rw [this, BitVec.getLsbD_ofNat, Nat.testBit_two_pow_sub_one]
    simp; omega
  rw [e]
  split
  · rename_i h; subst h
    have h1 : 32 * k.val + n < 256 := by omega
    have h2 : ¬ (32 * k.val + n < 32 * k.val) := by omega
    have h3 : 32 * k.val + n - 32 * k.val = n := by omega
    simp [h1, h3, hn, show n < 256 by omega]
  · rename_i h
    have h1 : 32 * k.val + n < 256 := by omega
    have hne : k.val ≠ j.val := fun e => h (Fin.ext e)
    rcases Nat.lt_or_gt_of_ne hne with hlt | hlt
    · have h2 : (32 * k.val + n < 32 * j.val) := by omega
      simp [h1, h2]
    · have h2 : ¬ (32 * k.val + n < 32 * j.val) := by omega
      have h3 : ¬ (32 * k.val + n - 32 * j.val < 32) := by omega
      have h4 : d.getLsbD (32 * k.val + n - 32 * j.val) = false := BitVec.getLsbD_of_ge _ _ (by omega)
      simp [h1, h2, h3, h4]

end Sys2Proof.Machine
end

