-- ==== Sys2Proof/Laws/Invariant.lean ====
section
/-! SUPPORT. The invariants of Safety.lean under the shared operations: they rest on the registers and slots only, and a
register write keeps them if what it writes meets them. -/

namespace Sys2Proof.Machine

open Sys2Proof.Safety

/-- The same registers and slots. -/
abbrev SameRegs (s t : State) : Prop :=
  t.v = s.v ∧ t.p = s.p ∧ t.f2 = s.f2 ∧ t.f3 = s.f3 ∧ t.c1 = s.c1 ∧ t.c2 = s.c2 ∧ t.c3 = s.c3

theorem sameRegs_reads {s t : State} (h : SameRegs s t) : (∀ i, t.vreg i = s.vreg i) ∧ (∀ i, t.preg i = s.preg i) ∧ (∀ f, t.fieldSlot f = s.fieldSlot f) ∧ (∀ f, t.modOf f = s.modOf f) ∧ (∀ c, t.curveSlot c = s.curveSlot c) ∧ (∀ c, t.curveKey c = s.curveKey c) := by
  obtain ⟨h1, h2, h3, h4, h5, h6, h7⟩ := h
  have hf : ∀ f, t.fieldSlot f = s.fieldSlot f := by intro f; fin_cases f <;> simp [h3, h4]
  have hm : ∀ f, t.modOf f = s.modOf f := by intro f; simp [State.modOf, hf]
  have hc : ∀ f, t.curveSlot f = s.curveSlot f := by intro f; fin_cases f <;> simp [h5, h6, h7]
  refine ⟨fun i => by simp [State.vreg, h1], fun i => by simp [State.preg, h2], hf, hm, hc, fun c => by simp [State.curveKey, hc, hm]⟩

theorem registersInv_congr {s t : State} (h : SameRegs s t) (hi : RegistersInv s) : RegistersInv t := by
  obtain ⟨h1, h2, h3, h4, h5, h6⟩ := sameRegs_reads h
  refine ⟨?_, ?_, ?_, ?_, ?_⟩
  · intro f; rw [h3, h4]; exact hi.modulus f
  · intro i f; rw [h1, h3, h4]; exact hi.element i f
  · intro i q; rw [h2, h5]; exact hi.point i q
  · intro i c x y; rw [h2, h6]; exact hi.coords i c x y
  · intro c; rw [h5, h3, h6]; exact hi.curve c

theorem fieldsPrime_congr {s t : State} (h : SameRegs s t) (hi : FieldsPrime s) : FieldsPrime t := by
  obtain ⟨h1, h2, h3, h4, h5, h6⟩ := sameRegs_reads h
  intro f; rw [h3, h4]; exact hi f

theorem pointsOnCurve_congr {s t : State} (h : SameRegs s t) (hi : PointsOnCurve s) : PointsOnCurve t := by
  obtain ⟨h1, h2, h3, h4, h5, h6⟩ := sameRegs_reads h
  intro i c x y; rw [h2, SatisfiesCurve, h6]; exact hi i c x y

theorem registersInv_setV {s : State} (hi : RegistersInv s) (i : VIdx) (x : VReg) (hx : ∀ f, x.tag = .fe f → (s.fieldSlot f).valid = true ∧ x.value.toNat < s.modOf f) : RegistersInv (s.setV i x) := by
  refine ⟨hi.modulus, ?_, hi.point, hi.coords, hi.curve⟩
  intro j f
  rw [State.vreg_setV]
  split
  · exact hx f
  · exact hi.element j f

theorem registersInv_setP {s : State} (hi : RegistersInv s) (i : PIdx) (q : Point) (hx : (s.curveSlot q.curve).valid = true ∧ PointBelow s q) : RegistersInv (s.setP i q) := by
  refine ⟨hi.modulus, hi.element, ?_, ?_, hi.curve⟩
  · intro j r
    rw [State.preg_setP]
    split
    · intro h; cases h; exact hx.1
    · exact hi.point j r
  · intro j c x y
    rw [State.preg_setP]
    split
    · intro h; cases h; exact hx.2
    · exact hi.coords j c x y

theorem pointsOnCurve_setP {s : State} (hi : PointsOnCurve s) (i : PIdx) (q : Point) (hx : OnItsCurve s q) : PointsOnCurve (s.setP i q) := by
  intro j c x y
  rw [State.preg_setP]
  split
  · intro h; cases h; exact hx
  · exact hi j c x y

/-- A register's point is below its modulus. -/
theorem pointBelow_preg {s : State} (h : RegistersInv s) {i : PIdx} {q : Point} (hq : s.preg i = .pt q) : PointBelow s q := by
  cases q with
  | inf c => trivial
  | aff c x y => exact h.coords i c x y hq

/-- A register's point has a prime modulus. -/
theorem prime_preg {s : State} (inv : RegistersInv s) (hp : FieldsPrime s) {i : PIdx} {q : Point} (h : s.preg i = .pt q) : (s.curveKey q.curve).m.Prime :=
  hp _ (inv.curve _ (inv.point _ _ h)).1

/-- Either reset leaves the block at R34 (70_reset_and_hazards.md R191). -/
theorem atReset_resetBlock (s : State) : AtReset s.resetBlock := ⟨rfl, rfl, rfl, rfl, rfl, rfl, rfl, rfl, rfl, rfl, rfl⟩

theorem sameRegs_resetBlock (s : State) : SameRegs State.reset s.resetBlock := ⟨rfl, rfl, rfl, rfl, rfl, rfl, rfl⟩

end Sys2Proof.Machine
end

