-- ==== Sys2Proof/Laws/PerInstr.lean ====
section
/-! SUPPORT. Facts about every command as syntax, one lemma per constructor. -/

namespace Sys2Proof.Laws

/-- The fields of a command's word are those its row of 30_encoding.md R66 gives it, and the reserved bits are
zero. -/
def EncodesFields.Statement (i : Instr) : Prop := fieldsOf (encode i) = fieldsFor i ∧ (fieldsOf (encode i)).rsv = 0

theorem fields_of_encode (i : Instr) : EncodesFields.Statement i := by
  refine ⟨fieldsOf_packFields _, ?_⟩
  rw [encode, fieldsOf_packFields]
  cases i <;> rfl

theorem EncodesFields.nop : EncodesFields.Statement .nop := fields_of_encode _
theorem EncodesFields.mov (rd : VIdx) (rs1 : VIdx) : EncodesFields.Statement (.mov rd rs1) := fields_of_encode _
theorem EncodesFields.pmov (rd : PIdx) (rs1 : PIdx) : EncodesFields.Statement (.pmov rd rs1) := fields_of_encode _
theorem EncodesFields.setmod (slot : FIdx) (rs1 : VIdx) : EncodesFields.Statement (.setmod slot rs1) := fields_of_encode _
theorem EncodesFields.setcrv (slot : CIdx) (rs1 : VIdx) (rs2 : VIdx) : EncodesFields.Statement (.setcrv slot rs1 rs2) := fields_of_encode _
theorem EncodesFields.fmk (rd : VIdx) (rs1 : VIdx) (slot : FIdx) : EncodesFields.Statement (.fmk rd rs1 slot) := fields_of_encode _
theorem EncodesFields.fadd (rd : VIdx) (rs1 : VIdx) (rs2 : VIdx) : EncodesFields.Statement (.fadd rd rs1 rs2) := fields_of_encode _
theorem EncodesFields.fsub (rd : VIdx) (rs1 : VIdx) (rs2 : VIdx) : EncodesFields.Statement (.fsub rd rs1 rs2) := fields_of_encode _
theorem EncodesFields.fmul (rd : VIdx) (rs1 : VIdx) (rs2 : VIdx) : EncodesFields.Statement (.fmul rd rs1 rs2) := fields_of_encode _
theorem EncodesFields.mmul (rd : VIdx) (rs1 : VIdx) (rs2 : VIdx) : EncodesFields.Statement (.mmul rd rs1 rs2) := fields_of_encode _
theorem EncodesFields.fpow (rd : VIdx) (rs1 : VIdx) (rs2 : VIdx) (neg : Bool) : EncodesFields.Statement (.fpow rd rs1 rs2 neg) := fields_of_encode _
theorem EncodesFields.fdiv (rd : VIdx) (rs1 : VIdx) (rs2 : VIdx) : EncodesFields.Statement (.fdiv rd rs1 rs2) := fields_of_encode _
theorem EncodesFields.feq (rs1 : VIdx) (rs2 : VIdx) : EncodesFields.Statement (.feq rs1 rs2) := fields_of_encode _
theorem EncodesFields.pinf (rd : PIdx) (slot : CIdx) : EncodesFields.Statement (.pinf rd slot) := fields_of_encode _
theorem EncodesFields.pmk (rd : PIdx) (rs1 : VIdx) (rs2 : VIdx) (slot : CIdx) : EncodesFields.Statement (.pmk rd rs1 rs2 slot) := fields_of_encode _
theorem EncodesFields.peq (rs1 : PIdx) (rs2 : PIdx) : EncodesFields.Statement (.peq rs1 rs2) := fields_of_encode _
theorem EncodesFields.padd (rd : PIdx) (rs1 : PIdx) (rs2 : PIdx) : EncodesFields.Statement (.padd rd rs1 rs2) := fields_of_encode _
theorem EncodesFields.pdbl (rd : PIdx) (rs1 : PIdx) : EncodesFields.Statement (.pdbl rd rs1) := fields_of_encode _
theorem EncodesFields.psmul (rd : PIdx) (rs1 : PIdx) (rs2 : VIdx) : EncodesFields.Statement (.psmul rd rs1 rs2) := fields_of_encode _
theorem EncodesFields.pgen (rd : PIdx) : EncodesFields.Statement (.pgen rd) := fields_of_encode _
theorem EncodesFields.pgetx (rd : VIdx) (rs1 : PIdx) : EncodesFields.Statement (.pgetx rd rs1) := fields_of_encode _
theorem EncodesFields.pgety (rd : VIdx) (rs1 : PIdx) : EncodesFields.Statement (.pgety rd rs1) := fields_of_encode _
theorem EncodesFields.pisinf (rs1 : PIdx) : EncodesFields.Statement (.pisinf rs1) := fields_of_encode _
theorem EncodesFields.minv (rd : VIdx) (rs1 : VIdx) (rs2 : VIdx) : EncodesFields.Statement (.minv rd rs1 rs2) := fields_of_encode _
theorem EncodesFields.keygen (rd : VIdx) : EncodesFields.Statement (.keygen rd) := fields_of_encode _
theorem EncodesFields.pubkey (rd : PIdx) (rs1 : VIdx) : EncodesFields.Statement (.pubkey rd rs1) := fields_of_encode _
theorem EncodesFields.sign (rd : VIdx) (rs1 : VIdx) (rs2 : VIdx) (rs3 : VIdx) : EncodesFields.Statement (.sign rd rs1 rs2 rs3) := fields_of_encode _
theorem EncodesFields.verify (rd : PIdx) (rs1 : VIdx) (rs2 : VIdx) (rs3 : VIdx) : EncodesFields.Statement (.verify rd rs1 rs2 rs3) := fields_of_encode _

end Sys2Proof.Laws
end

