-- ==== Sys2Proof/Machine/Asm.lean ====
section
/-! DEFINITION. The assembler syntax of 30_encoding.md R71 and the pseudo-instruction of R72: one statement of
text to one command word. -/

namespace Sys2Proof.Machine

/-- An operand of a statement: v0 to v15, p0 to p7, f0 to f3, c0 to c3 (R71). -/
inductive AsmOperand where
  | v (i : VIdx)
  | p (i : PIdx)
  | f (i : FIdx)
  | c (i : CIdx)
  deriving DecidableEq, Repr

/-- The command a lower-case mnemonic with these operands stands for (R66, syntax column; R72). -/
def asmCommand (mnemonic : String) (ops : List AsmOperand) : Option Instr :=
  match mnemonic, ops with
  | "nop", [] => some .nop
  | "mov", [.v rd, .v rs1] => some (.mov rd rs1)
  | "pmov", [.p rd, .p rs1] => some (.pmov rd rs1)
  | "setmod", [.f slot, .v rs1] => some (.setmod slot rs1)
  | "setcrv", [.c slot, .v rs1, .v rs2] => some (.setcrv slot rs1 rs2)
  | "fmk", [.v rd, .v rs1, .f slot] => some (.fmk rd rs1 slot)
  | "fadd", [.v rd, .v rs1, .v rs2] => some (.fadd rd rs1 rs2)
  | "fsub", [.v rd, .v rs1, .v rs2] => some (.fsub rd rs1 rs2)
  | "fmul", [.v rd, .v rs1, .v rs2] => some (.fmul rd rs1 rs2)
  | "fsqr", [.v rd, .v rs1] => some (.fmul rd rs1 rs1)
  | "mmul", [.v rd, .v rs1, .v rs2] => some (.mmul rd rs1 rs2)
  | "fpow", [.v rd, .v rs1, .v rs2] => some (.fpow rd rs1 rs2 false)
  | "fpow.neg", [.v rd, .v rs1, .v rs2] => some (.fpow rd rs1 rs2 true)
  | "fdiv", [.v rd, .v rs1, .v rs2] => some (.fdiv rd rs1 rs2)
  | "feq", [.v rs1, .v rs2] => some (.feq rs1 rs2)
  | "pinf", [.p rd, .c slot] => some (.pinf rd slot)
  | "pmk", [.p rd, .v rs1, .v rs2, .c slot] => some (.pmk rd rs1 rs2 slot)
  | "peq", [.p rs1, .p rs2] => some (.peq rs1 rs2)
  | "padd", [.p rd, .p rs1, .p rs2] => some (.padd rd rs1 rs2)
  | "pdbl", [.p rd, .p rs1] => some (.pdbl rd rs1)
  | "psmul", [.p rd, .p rs1, .v rs2] => some (.psmul rd rs1 rs2)
  | "pgen", [.p rd] => some (.pgen rd)
  | "pgetx", [.v rd, .p rs1] => some (.pgetx rd rs1)
  | "pgety", [.v rd, .p rs1] => some (.pgety rd rs1)
  | "pisinf", [.p rs1] => some (.pisinf rs1)
  | "minv", [.v rd, .v rs1, .v rs2] => some (.minv rd rs1 rs2)
  | "keygen", [.v rd] => some (.keygen rd)
  | "pubkey", [.p rd, .v rs1] => some (.pubkey rd rs1)
  | "sign", [.v rd, .v rs3, .v rs1, .v rs2] => some (.sign rd rs1 rs2 rs3)
  | "verify", [.p rd, .v rs1, .v rs2, .v rs3] => some (.verify rd rs1 rs2 rs3)
  | _, _ => none

/-- White space between the parts of a statement: a space or a tab (assumption 18). DESIGN CHOICE. -/
def isBlank (x : Char) : Bool := x == ' ' || x == '\t'

/-- A text without the white space at its two ends. -/
def trimBlanks (x : List Char) : List Char := ((x.dropWhile isBlank).reverse.dropWhile isBlank).reverse

/-- The parts of a text between commas. -/
def splitCommas : List Char → List (List Char)
  | [] => [[]]
  | x :: rest =>
    if x == ',' then [] :: splitCommas rest
    else
      match splitCommas rest with
      | [] => [[x]]
      | part :: parts => (x :: part) :: parts

/-- A decimal number without leading zeros (assumption 18). DESIGN CHOICE. -/
def readDecimal (x : List Char) : Option Nat :=
  if x.isEmpty || !x.all Char.isDigit || (x.head? == some '0' && decide (1 < x.length)) then none
  else some (x.foldl (fun n d => 10 * n + (d.toNat - '0'.toNat)) 0)

/-- An operand: a lower-case register letter and its number. -/
def readOperand (x : List Char) : Option AsmOperand :=
  match x with
  | [] => none
  | letter :: digits =>
    match readDecimal digits with
    | none => none
    | some n =>
      if letter == 'v' then (if h : n < 16 then some (.v ⟨n, h⟩) else none)
      else if letter == 'p' then (if h : n < 8 then some (.p ⟨n, h⟩) else none)
      else if letter == 'f' then (if h : n < 4 then some (.f ⟨n, h⟩) else none)
      else if letter == 'c' then (if h : n < 4 then some (.c ⟨n, h⟩) else none)
      else none

/-- The operands of a statement, separated by commas. -/
def readOperands (x : List Char) : Option (List AsmOperand) :=
  if (trimBlanks x).isEmpty then some [] else (splitCommas x).mapM fun part => readOperand (trimBlanks part)

/-- The command of one statement (R71): a comment runs from ';' to the end, and letter case does not matter. -/
def asmStatement (line : String) : Option Instr :=
  let text := trimBlanks ((line.toList.takeWhile (· != ';')).map Char.toLower)
  match readOperands (text.dropWhile fun x => !isBlank x) with
  | none => none
  | some ops => asmCommand (String.ofList (text.takeWhile fun x => !isBlank x)) ops

/-- The word the assembler emits for one statement (R71); `none` for a text that is no statement. The constraints of
R67 are the decoder's: the assembler emits the word of `SIGN v5, v5, v1, v2` too (95_test_vectors.md E-22). -/
def assemble (line : String) : Option Word32 := (asmStatement line).map encode

end Sys2Proof.Machine
end

