-- ==== Sys2Proof/Tests/Slice0.lean ====
section
/-! SUPPORT. The model's own tests: words of spec/ decoded, ill-formed commands refused, one or two results for each
command from the vectors of 95_test_vectors.md (named C-, F-, P- and E- as there), and a witness for the hypotheses
of every obligation. -/

namespace Sys2Proof.Tests

open Sys2Proof Sys2Proof.Machine Sys2Proof.Safety

set_option Elab.async false

/-! ### Small states -/

/-- The test-field state T of 95_test_vectors.md §0: MOD[2] = 223, MOD[3] = 19, CRV[1] = (f = 2, a = 0, b = 7). -/
def testField : State := { State.reset with f2 := ⟨true, 223⟩, f3 := ⟨true, 19⟩, c1 := ⟨true, 2, 0, 7⟩ }

/-- The GF(2) state of §4.6: MOD[2] = 2, CRV[1] = (f = 2, a = 0, b = 1). -/
def overTwo : State := { State.reset with f2 := ⟨true, 2⟩, c1 := ⟨true, 2, 0, 1⟩ }

def fe (x : U256) (f : FIdx) : VReg := ⟨x, .fe f⟩

def int (x : U256) : VReg := ⟨x, .int⟩

/-- Two operands in V1 and V2. -/
def two (s : State) (a b : VReg) : State := (s.setV 1 a).setV 2 b

/-- Two points of C1 in P0 and P1. -/
def points (s : State) (a b : Point) : State := (s.setP 0 a).setP 1 b

def pt (x y : U256) : Point := .aff 1 x y

/-- A draw whose last byte is `x` and whose other bytes are 0: raw = x (20_memory.md R55). -/
def drawOf (x : Byte) : Vector Byte 32 := (Vector.replicate 32 0).set 31 x

/-- The next state of a command. -/
def after (i : Instr) (s : State) : State :=
  match exec i s with
  | .next t => t
  | .fault _ => s
  | .refused _ => s

theorem exec_after (i : Instr) (s : State) : exec i s = .next (after i s) := by
  rcases exec_cases i s with ⟨e, h⟩ | ⟨_, _, _, _, _, _, _, _, _, _, h⟩ | ⟨_, _, h, _⟩ <;> simp [after, h]

/-- The state after one step that runs the command word `w`. -/
def run (w : Word32) (s : State) : State :=
  match step (s.launchWord w) with
  | .next t => t
  | .fault _ => s
  | .refused _ => s

/-- `w` from `s` ends with STATUS 0x2 and V[i] = `x`. -/
def giveV (w : Word32) (s : State) (i : VIdx) (x : VReg) : Bool :=
  (run w s).status.word == 0x00000002 && decide ((run w s).vreg i = x)

/-- `w` from `s` ends with STATUS 0x2 and P[i] = `q`. -/
def giveP (w : Word32) (s : State) (i : PIdx) (q : Point) : Bool :=
  (run w s).status.word == 0x00000002 && decide ((run w s).preg i = .pt q)

/-- `w` from `s` ends with this STATUS and with V and P untouched. -/
def giveS (w : Word32) (s : State) (status : Word32) : Bool :=
  (run w s).status.word == status && decide ((run w s).v = s.v) && decide ((run w s).p = s.p)

/-! ### Decoding and encoding: every constructor by a word of the spec -/

theorem test_decode_control :
    decode 0x00000000 = some .nop ∧ decode 0x00002501 = some (.mov 5 2) ∧ decode 0x00000302 = some (.pmov 3 0)
      ∧ decode 0x02000003 = some (.setmod 2 0) ∧ decode 0x02061004 = some (.setcrv 2 1 6) := by decide +kernel

theorem test_decode_field :
    decode 0x03000310 = some (.fmk 3 0 3) ∧ decode 0x00021311 = some (.fadd 3 1 2) ∧ decode 0x00021312 = some (.fsub 3 1 2)
      ∧ decode 0x00021313 = some (.fmul 3 1 2) ∧ decode 0x00021314 = some (.mmul 3 1 2)
      ∧ decode 0x00021315 = some (.fpow 3 1 2 false) ∧ decode 0x04021315 = some (.fpow 3 1 2 true)
      ∧ decode 0x00021316 = some (.fdiv 3 1 2) ∧ decode 0x00021017 = some (.feq 1 2) := by decide +kernel

theorem test_decode_point :
    decode 0x01000120 = some (.pinf 1 1) ∧ decode 0x01043021 = some (.pmk 0 3 4 1) ∧ decode 0x00010022 = some (.peq 0 1)
      ∧ decode 0x00010223 = some (.padd 2 0 1) ∧ decode 0x00000124 = some (.pdbl 1 0)
      ∧ decode 0x00050125 = some (.psmul 1 0 5) ∧ decode 0x00000026 = some (.pgen 0)
      ∧ decode 0x00002627 = some (.pgetx 6 2) ∧ decode 0x00002728 = some (.pgety 7 2)
      ∧ decode 0x00007029 = some (.pisinf 7) := by decide +kernel

theorem test_decode_ecdsa :
    decode 0x00021330 = some (.minv 3 1 2) ∧ decode 0x00000431 = some (.keygen 4) ∧ decode 0x00004132 = some (.pubkey 1 4)
      ∧ decode 0x00621533 = some (.sign 5 1 2 6) ∧ decode 0x00651134 = some (.verify 1 1 5 6) := by decide +kernel

/-- C-2, C-5, C-12, C-16, E-22, a reserved bit, NEG outside FPOW, and opcodes with no row. -/
theorem test_decode_illegal :
    decode 0x00000100 = none ∧ decode 0x00008302 = none ∧ decode 0x00000003 = none ∧ decode 0x01000003 = none
      ∧ decode 0x00021004 = none ∧ decode 0x00521533 = none ∧ decode 0x08021311 = none ∧ decode 0x04021311 = none
      ∧ decode 0x00000005 = none ∧ decode 0x000000FF = none := by decide +kernel

theorem test_encode :
    encode (.verify 1 1 5 6) = 0x00651134 ∧ encode (.fpow 3 1 2 true) = 0x04021315 ∧ encode (.pmk 0 3 4 1) = 0x01043021 := by
  decide +kernel

/-- R71 and R72: case, spacing, a comment, and the pseudo-instruction. -/
theorem test_assemble :
    assemble "PADD p2, p0, p1" = some 0x00010223 ∧ assemble "  fpow.NEG v3,V1 , v2 ; inverse" = some 0x04021315
      ∧ assemble "FSQR v3, v1" = some 0x00011313 ∧ assemble "SIGN v5, v6, v1, v2" = some 0x00621533
      ∧ assemble "SIGN v5, v5, v1, v2" = some 0x00521533 ∧ assemble "PADD p2, p0, p8" = none := by decide +kernel

/-- The well-formedness checks refuse each kind of ill-formed command (R67). -/
theorem test_wellFormed_smoke :
    ¬ WellFormed (.setmod 0 1) ∧ ¬ WellFormed (.setmod 1 1) ∧ WellFormed (.setmod 2 1) ∧ ¬ WellFormed (.setcrv 0 1 2)
      ∧ WellFormed (.setcrv 1 1 2) ∧ ¬ WellFormed (.sign 5 1 2 5) ∧ WellFormed (.sign 5 1 2 6) := by decide

/-! ### Results -/

/-- C-1. -/
theorem test_nop : giveS 0x00000000 State.reset 0x00000002 = true := by decide +kernel

/-- C-3 and C-4. -/
theorem test_mov : giveV 0x00002501 (State.reset.setV 2 (int 223)) 5 (int 223) = true
    ∧ giveS 0x00002501 State.reset 0x00000A06 = true := by decide +kernel

/-- R82's example. -/
theorem test_pmov : giveP 0x00000302 (points testField (pt 47 71) (.inf 1)) 3 (pt 47 71) = true := by decide +kernel

/-- C-6 and C-7. -/
theorem test_setmod : (run 0x02000003 (State.reset.setV 0 (int 223))).f2 = ⟨true, 223⟩
    ∧ (run 0x02000003 (State.reset.setV 0 (int 223))).slots = 0x00000017
    ∧ giveS 0x02000003 (State.reset.setV 0 (int 221)) 0x00000106 = true := by decide +kernel

/-- C-14, with V1 = (0, FE(2)), V2 = (7, FE(2)), V3 = (170, FE(2)) and V4 = (5, FE(3)). -/
def c14 : State :=
  (((((testField.setV 0 (int 223)).setV 1 (fe 0 2)).setV 2 (fe 7 2)).setV 3 (fe 170 2)).setV 4 (fe 5 3)).setP 0 (pt 47 71)

theorem test_setmod_invalidates : (run 0x02000003 c14).slots = 0x0000001F ∧ (run 0x02000003 c14).vtagLo = 0x00070001
    ∧ (run 0x02000003 c14).ptag = 0 ∧ ((run 0x02000003 c14).vreg 3) = ⟨170, .unwritten⟩ := by decide +kernel

/-- C-15 and C-18. -/
theorem test_setcrv : giveS 0x02051004 (c14.setV 5 (int 3)) 0x00000406 = true
    ∧ (run 0x01021004 c14).c1 = ⟨true, 2, 0, 7⟩ ∧ (run 0x01021004 c14).preg 0 = .unwritten := by decide +kernel

/-- F-1, F-2 and F-6. -/
theorem test_fmk : giveV 0x02000310 (testField.setV 0 (int 170)) 3 (fe 170 2) = true
    ∧ giveS 0x02000310 (testField.setV 0 (int 223)) 0x00000206 = true
    ∧ giveV 0x03000310 (testField.setV 0 (fe 17 2)) 3 (fe 17 3) = true := by decide +kernel

/-- F-8, F-9 and F-12. -/
theorem test_fadd : giveV 0x00021311 (two testField (fe 200 2) (fe 50 2)) 3 (fe 27 2) = true
    ∧ giveV 0x00021311 (two testField (fe 222 2) (fe 1 2)) 3 (fe 0 2) = true
    ∧ giveS 0x00021311 (two testField (fe 5 2) (fe 5 3)) 0x00000406 = true := by decide +kernel

/-- F-10. -/
theorem test_fsub : giveV 0x00021312 (two testField (fe 5 2) (fe 10 2)) 3 (fe 218 2) = true := by decide +kernel

/-- F-14 and F-47. -/
theorem test_fmul : giveV 0x00021313 (two testField (fe 100 2) (fe 100 2)) 3 (fe 188 2) = true
    ∧ giveV 0x00021313 (two overTwo (fe 1 2) (fe 1 2)) 3 (fe 1 2) = true := by decide +kernel

/-- F-17, F-22 and F-46. -/
theorem test_mmul : giveV 0x00021314 (two testField (fe 100 2) (fe 100 2)) 3 (fe 166 2) = true
    ∧ giveV 0x00021314 (two testField (fe 7 3) (fe 5 3)) 3 (fe 1 3) = true
    ∧ giveS 0x00021314 (two overTwo (fe 1 2) (fe 1 2)) 0x00000106 = true := by decide +kernel

/-- F-26, F-29 and F-36. -/
theorem test_fpow : giveV 0x00021315 (two testField (fe 0 2) (int 222)) 3 (fe 1 2) = true
    ∧ giveV 0x00021315 (two testField (fe 3 2) (int (BitVec.allOnes 256))) 3 (fe 195 2) = true
    ∧ giveV 0x00021315 (two testField (fe 3 2) (fe 5 3)) 3 (fe 20 2) = true := by decide +kernel

/-- F-30, F-32 and F-34. -/
theorem test_fpow_neg : giveV 0x04021315 (two testField (fe 3 2) (int (BitVec.allOnes 256))) 3 (fe 215 2) = true
    ∧ giveV 0x04021315 (two testField (fe 5 3) (int 3)) 3 (fe 7 3) = true
    ∧ giveV 0x04021315 (two testField (fe 0 3) (int 18)) 3 (fe 1 3) = true := by decide +kernel

/-- F-38 and F-40. -/
theorem test_fdiv : giveV 0x00021316 (two testField (fe 7 3) (fe 5 3)) 3 (fe 9 3) = true
    ∧ giveS 0x00021316 (two testField (fe 7 3) (fe 0 3)) 0x00000706 = true := by decide +kernel

/-- F-42, F-44 and F-45. -/
theorem test_feq : giveS 0x00021017 (two testField (fe 9 3) (fe 9 3)) 0x0000000A = true
    ∧ giveS 0x00021017 (two testField (fe 5 2) (fe 5 3)) 0x00000002 = true
    ∧ giveS 0x00021017 (two testField (fe 9 3) (int 9)) 0x00000406 = true := by decide +kernel

/-- P-11 and P-12. -/
theorem test_pinf : giveP 0x00000020 State.reset 0 (.inf 0) = true
    ∧ giveS 0x01000120 State.reset 0x00000B06 = true := by decide +kernel

/-- P-1, P-2 and P-7. -/
theorem test_pmk : giveP 0x01021021 (two testField (fe 170 2) (fe 142 2)) 0 (pt 170 142) = true
    ∧ giveS 0x01021021 (two testField (fe 170 2) (fe 143 2)) 0x00000306 = true
    ∧ giveS 0x01021021 (two testField (fe 5 3) (fe 5 3)) 0x00000406 = true := by decide +kernel

/-- P-14, P-15 and P-17. -/
theorem test_peq : giveS 0x00010022 (points testField (pt 47 71) (pt 47 152)) 0x00000002 = true
    ∧ giveS 0x00010022 (points testField (.inf 1) (.inf 0)) 0x0000000A = true
    ∧ giveS 0x00010022 (points { testField with c3 := ⟨true, 2, 0, 7⟩ } (pt 47 71) (.aff 3 47 71)) 0x0000000A = true := by
  decide +kernel

/-- P-19, P-25 and P-22. -/
theorem test_padd : giveP 0x00010223 (points testField (pt 170 142) (pt 60 139)) 2 (pt 220 181) = true
    ∧ giveP 0x00010223 (points testField (pt 47 71) (pt 47 71)) 2 (pt 36 111) = true
    ∧ giveP 0x00010223 (points testField (pt 47 71) (pt 47 152)) 2 (.inf 1) = true := by decide +kernel

/-- P-28 and P-29. -/
theorem test_padd_curves : giveS 0x00010223 (points { testField with c2 := ⟨true, 2, 0, 5⟩ } (.inf 1) (.inf 2)) 0x00000506 = true
    ∧ giveP 0x00010223 (points { testField with c3 := ⟨true, 2, 0, 7⟩ } (pt 47 71) (.aff 3 170 142)) 2 (pt 34 145) = true := by
  decide +kernel

/-- P-31, P-32 and P-53. -/
theorem test_pdbl : giveP 0x00000124 (points testField (pt 170 142) (.inf 1)) 1 (pt 84 150) = true
    ∧ giveP 0x00000124 (points testField (pt 6 0) (.inf 1)) 1 (.inf 1) = true
    ∧ giveS 0x00000224 (points overTwo (pt 0 1) (pt 1 0)) 0x00000706 = true := by decide +kernel

/-- P-37, P-40 and P-42. -/
theorem test_psmul : giveP 0x00050225 ((points testField (pt 47 71) (.inf 1)).setV 5 (int 3)) 2 (pt 15 137) = true
    ∧ giveP 0x00050225 ((points testField (pt 47 71) (.inf 1)).setV 5 (int 21)) 2 (.inf 1) = true
    ∧ giveP 0x00050225 ((points testField (pt 47 71) (.inf 1)).setV 5 (int (BitVec.allOnes 256))) 2 (pt 139 86) = true := by
  decide +kernel

/-- P-44, P-47 and P-54. -/
theorem test_psmul_generator :
    giveP 0x00050125 ((State.reset.setP 0 generator).setV 5 (int 2)) 1
        (.aff 0 0xC6047F9441ED7D6D3045406E95C07CD85C778E4B8CEF3CA7ABAC09B95C709EE5
          0x1AE168FEA63DC339A3C58419466CEAEEF7F632653266D0E1236431A950CFE52A) = true
      ∧ giveP 0x00050125 ((State.reset.setP 0 generator).setV 5 (int Config.order)) 1 (.inf 0) = true
      ∧ giveS 0x00050225 ((points overTwo (pt 0 1) (pt 1 0)).setV 5 (int 1)) 0x00000706 = true := by decide +kernel

/-- 42_point.md R130's example. -/
theorem test_pgen : giveP 0x00000026 State.reset 0 (.aff 0 Config.gx Config.gy) = true := by decide +kernel

/-- P-58 and P-61. -/
theorem test_pgetx : giveV 0x00002627 (testField.setP 2 (pt 220 181)) 6 (fe 220 2) = true
    ∧ giveS 0x00002627 (testField.setP 2 (.inf 1)) 0x00000C06 = true := by decide +kernel

/-- P-59 and P-60. -/
theorem test_pgety : giveV 0x00002728 (testField.setP 2 (pt 220 181)) 7 (fe 181 2) = true
    ∧ giveV 0x00000728 (State.reset.setP 0 generator) 7 (fe Config.gy 0) = true := by decide +kernel

/-- P-62, P-63 and P-64. -/
theorem test_pisinf : giveS 0x00002029 (testField.setP 2 (.inf 1)) 0x0000000A = true
    ∧ giveS 0x00000029 (State.reset.setP 0 generator) 0x00000002 = true
    ∧ giveS 0x00007029 State.reset 0x00000A06 = true := by decide +kernel

/-- E-2, E-6 and E-10. -/
theorem test_minv : giveV 0x00021330 (two State.reset (int 10) (int 7)) 3 (int 5) = true
    ∧ giveV 0x00021330 (two State.reset (int 5) (int 1)) 3 (int 0) = true
    ∧ giveV 0x00021330 (two testField (fe 3 2) (int 7)) 3 (int 5) = true := by decide +kernel

/-- E-3, E-4, E-5 and E-8. -/
theorem test_minv_fails : giveS 0x00021330 (two State.reset (int 0) (int 7)) 0x00000606 = true
    ∧ giveS 0x00021330 (two State.reset (int 6) (int 9)) 0x00000606 = true
    ∧ giveS 0x00021330 (two State.reset (int 1) (int 0)) 0x00000606 = true
    ∧ giveV 0x00021330 (two State.reset (int (Config.order - 1)) (int Config.order)) 3 (int (Config.order - 1)) = true := by
  decide +kernel

/-- Reset with these draws ready. -/
def withDraws (s : State) (l : List (Vector Byte 32)) : State := { s with rng := ⟨l, 0⟩ }

/-- E-11 and E-13b: each takes one draw. -/
theorem test_keygen : giveV 0x00000431 (withDraws State.reset [drawOf 0]) 4 (int 1) = true
    ∧ giveV 0x00000431 (withDraws State.reset [Vector.replicate 32 0xFF]) 4 (int 0x14551231950B75FC4402DA1732FC9BEC0) = true
    ∧ (run 0x00000431 (withDraws State.reset [drawOf 0, drawOf 1])).rng = ⟨[drawOf 1], 1⟩ := by decide +kernel

/-- E-14 and E-15. -/
theorem test_pubkey : giveS 0x00004132 (State.reset.setV 4 (int 0)) 0x00000206 = true
    ∧ giveS 0x00004132 (State.reset.setV 4 (int Config.order)) 0x00000206 = true
    ∧ giveP 0x00004132 (State.reset.setV 4 (int 1)) 1 generator = true := by decide +kernel

/-- Vector A's start: z = 1, d = 1, draw 0. -/
def vectorA : State := withDraws (two State.reset (int 1) (int 1)) [drawOf 0]

/-- The retry vector's start: z = N − Gx, d = 1, draws 0 and 1. -/
def vectorRetry : State := withDraws (two State.reset (int (Config.order - Config.gx)) (int 1)) [drawOf 0, drawOf 1]

/-- Vector A and the retry vector, with ATTEMPTS. -/
theorem test_sign :
    giveV 0x00621533 vectorA 5 (int Config.gx) = true ∧ giveV 0x00621533 vectorA 6 (int (Config.gx + 1)) = true
      ∧ giveV 0x00621533 vectorRetry 5 (int 0xC6047F9441ED7D6D3045406E95C07CD85C778E4B8CEF3CA7ABAC09B95C709EE5) = true
      ∧ (run 0x00621533 vectorRetry).attempts = 2 ∧ (run 0x00621533 vectorRetry).rng = ⟨[], 2⟩ := by decide +kernel

/-- E-19 with NONCE_MAX_ATTEMPTS = 2, E-20 and E-23. -/
theorem test_sign_fails :
    giveS 0x00621533 { vectorRetry with params := ⟨32, 2, 0⟩, rng := ⟨[drawOf 0, drawOf 0], 0⟩ } 0x00000806 = true
      ∧ (run 0x00621533 { vectorRetry with params := ⟨32, 2, 0⟩, rng := ⟨[drawOf 0, drawOf 0], 0⟩ }).attempts = 2
      ∧ giveS 0x00621533 { (two State.reset (int 1) (int 0)) with attempts := 77 } 0x00000206 = true
      ∧ (run 0x00621533 { (State.reset.setV 1 (int 1)) with attempts := 77 }).attempts = 77
      ∧ giveS 0x00621533 (State.reset.setV 1 (int 1)) 0x00000A06 = true := by decide +kernel

/-- A VERIFY of z, r and s in V1, V5 and V6 with G as the key in P1. -/
def verifyG (z r t : U256) : State := (((State.reset.setP 1 generator).setV 1 (int z)).setV 5 (int r)).setV 6 (int t)

/-- E-27 to E-30: never an error for r or s out of range; E-35: CurveMismatch for a key on C1. -/
theorem test_verify_range : giveS 0x00651134 (verifyG 1 0 (Config.gx + 1)) 0x00000002 = true
    ∧ giveS 0x00651134 (verifyG 1 Config.order (Config.gx + 1)) 0x00000002 = true
    ∧ giveS 0x00651134 (verifyG 1 Config.gx 0) 0x00000002 = true
    ∧ giveS 0x00651134 (verifyG 1 Config.gx Config.order) 0x00000002 = true
    ∧ giveS 0x00651134 { (verifyG 1 0 0).setP 1 (pt 47 71) with f2 := ⟨true, 223⟩, c1 := ⟨true, 2, 0, 7⟩ } 0x00000506 = true := by
  decide +kernel

/-- By hand from R147 and R148: z = 0, d = 1 and k = 1 give r = s = Gx, and VERIFY finds u = 0, v = 1, R' = G. With z = 1,
r = 1 and s = 1, R' = 2G, whose x coordinate is not 1. -/
theorem test_verify : giveS 0x00651134 (verifyG 0 Config.gx Config.gx) 0x0000000A = true
    ∧ giveS 0x00651134 (verifyG 1 1 1) 0x00000002 = true := by decide +kernel

/-- R202: a level of the pin to come does not keep a run from having ended; an access to come and a pending command do. -/
theorem test_ended : Ended { State.reset with agenda := [.rstN false, .core] } ∧ ¬ Ended (State.reset.acceptCmd 0x26)
    ∧ ¬ Ended { State.reset with agenda := [.rstN false, .read 32 0x000] } := by decide

/-! ### The bus, reset and the host's entry points -/

/-- Reset with the window at bus address 0x40000000. -/
def based : State := { State.reset with params := ⟨32, 256, 0x40000⟩ }

/-- R40, with BASE = 0x40000000: both ends of the window, and the addresses beside it. -/
theorem test_base : based.busAddress 0x00C = 0x4000000C
    ∧ based.portMove (.write 32 0x4000000C 0x26) = some (.write 32 0x00C 0x26)
    ∧ based.portMove (.read 32 0x40000000) = some (.read 32 0x000) ∧ based.portMove (.read 8 0x40000FFF) = some (.read 8 0xFFF)
    ∧ based.portMove (.read 32 0x3FFFFFFC) = none ∧ based.portMove (.write 32 0x40001000 1) = none := by decide +kernel

/-- One move of the host. -/
def move (e : Event) (s : State) : State :=
  match step { s with agenda := [e] } with
  | .next t => t
  | .fault _ => s
  | .refused _ => s

/-- R21, R44, R47 and R48 on a few accesses. -/
theorem test_bus :
    (move (.write 32 0x124 0xDEADBEEF) (State.reset.setV 1 (fe 5 0))).vreg 1 = int 0xDEADBEEF00000005
      ∧ (move (.read 32 0x124) (State.reset.setV 1 (int 0xDEADBEEF00000005))).reads = [0xDEADBEEF]
      ∧ (move (.read 32 0x008) (move (.write 32 0x00C 0x26) State.reset)).reads = [0x00000001]
      ∧ (move (.write 32 0x00C 0x26) (move (.write 32 0x00C 0) State.reset)).status.word = 0x00000011
      ∧ (move (.read 16 0x000) State.reset).reads = [0] ∧ (move (.read 32 0x000) State.reset).reads = [0x45434331] := by
  decide +kernel

/-- R49, R50 and R190. -/
theorem test_reset :
    (move (.write 32 0x008 0x12) { State.reset with status := ⟨false, true, true, false, true, 4⟩ }).status.word = 0x00000404
      ∧ (move (.write 32 0x004 3) (two testField (fe 1 2) (fe 2 2))).v = State.reset.v
      ∧ (move (.write 32 0x004 1) State.reset).ie = true
      ∧ (move (.rstN false) (testField.acceptCmd 0x26)).pending = false := by decide +kernel

/-- The two entry points of the host, on PGEN p0. -/
theorem test_entry : decodeTableWord 32 0x00000026 = some (.pgen 0)
    ∧ (run 0x00000026 State.reset) = (match step (State.reset.withFetchWord 32 0x26) with
      | .next t => t
      | .fault _ => State.reset
      | .refused _ => State.reset) := by decide +kernel


/-! ### Witnesses: for each obligation with hypotheses, states and operands that meet all of them together -/

def pointOk (s : State) : PointReg → Bool
  | .unwritten => true
  | .pt (.inf c) => (s.curveSlot c).valid
  | .pt (.aff c x y) => (s.curveSlot c).valid && decide (x.toNat < (s.curveKey c).m ∧ y.toNat < (s.curveKey c).m)

def equationOk (s : State) : PointReg → Bool
  | .unwritten => true
  | .pt (.inf _) => true
  | .pt (.aff c x y) => decide (SatisfiesCurve s c x.toNat y.toNat)

def registersOk (s : State) : Bool :=
  decide (∀ f, (s.fieldSlot f).valid = true → 2 ≤ s.modOf f)
    && decide (∀ i f, (s.vreg i).tag = .fe f → (s.fieldSlot f).valid = true ∧ (s.vreg i).value.toNat < s.modOf f)
    && decide (∀ i, pointOk s (s.preg i) = true)
    && decide (∀ c, (s.curveSlot c).valid = true → (s.fieldSlot (s.curveSlot c).f).valid = true
      ∧ (s.curveKey c).a < (s.curveKey c).m ∧ (s.curveKey c).b < (s.curveKey c).m)

theorem registersInv_of_ok {s : State} (h : registersOk s = true) : RegistersInv s := by
  simp only [registersOk, Bool.and_eq_true, decide_eq_true_eq] at h
  obtain ⟨⟨⟨h1, h2⟩, h3⟩, h4⟩ := h
  refine ⟨h1, h2, fun i q hq => ?_, fun i c x y hq => ?_, h4⟩
  · have := h3 i
    cases q <;> simp_all [pointOk, Point.curve]
  · have := h3 i
    simp_all [pointOk]

theorem pointsOnCurve_of_ok {s : State} (h : ∀ i, equationOk s (s.preg i) = true) : PointsOnCurve s := by
  intro i c x y hq
  have := h i
  rw [hq] at this
  exact of_decide_eq_true this

theorem fieldsPrime_of_slots {s : State} (h2 : s.f2.valid = true → s.f2.m.toNat.Prime)
    (h3 : s.f3.valid = true → s.f3.m.toNat.Prime) : FieldsPrime s := by
  intro f
  fin_cases f
  · exact fun _ => prime_p
  · exact fun _ => prime_order
  · exact h2
  · exact h3

theorem fieldsPrime_testField {s : State} (h2 : s.f2 = testField.f2) (h3 : s.f3 = testField.f3) : FieldsPrime s :=
  fieldsPrime_of_slots (fun _ => by rw [h2]; exact (by norm_num : Nat.Prime 223)) (fun _ => by rw [h3]; exact (by norm_num : Nat.Prime 19))

theorem fieldsPrime_overTwo {s : State} (h2 : s.f2 = overTwo.f2) (h3 : s.f3 = overTwo.f3) : FieldsPrime s :=
  fieldsPrime_of_slots (fun _ => by rw [h2]; exact Nat.prime_two) (fun h => by rw [h3] at h; cases h)

theorem fieldsPrime_reset {s : State} (h2 : s.f2 = State.reset.f2) (h3 : s.f3 = State.reset.f3) : FieldsPrime s :=
  fieldsPrime_of_slots (fun h => by rw [h2] at h; cases h) (fun h => by rw [h3] at h; cases h)

theorem scalarMulIs_generator {s : State} {k : Nat} {q : Point} (hk : k < 2 ^ 256) (h : s.scalarMul generator k = .ok q) :
    ScalarMulIs s generator k q := by
  obtain ⟨q', h', hq, -⟩ := generator_scalarMul s hk
  rw [h] at h'
  cases h'
  exact hq

/-- `s` with one move of an agent to come. -/
def withMove (s : State) (e : Event) : State := { s with agenda := [e] }

/-- The block with PGEN p0 running. -/
def busy : State := State.reset.acceptCmd 0x26

/-- The block after a completed command, with the interrupt enabled. -/
def finished : State := { (run 0x26 State.reset) with ie := true }

theorem witness_DecodeOfEncode : WellFormed .nop ∧ WellFormed (.setmod 2 15) ∧ WellFormed (.setmod 3 0)
    ∧ WellFormed (.setcrv 1 15 0) ∧ WellFormed (.setcrv 3 0 15) ∧ WellFormed (.fpow 15 15 15 true)
    ∧ WellFormed (.pmk 7 15 15 3) ∧ WellFormed (.sign 15 0 0 14) ∧ WellFormed (.verify 7 15 15 15) := by decide

theorem witness_DecodedWordIsItsEncoding : decode 0x03FF0004 = none ∧ decode 0x030FF004 = some (.setcrv 3 15 15)
    ∧ decode 0x00EFFF33 = some (.sign 15 15 15 14) := by decide +kernel

theorem witness_StepRunsDecodedCommand : CoreNext (State.reset.launchWord 0x26) []
    ∧ decode (State.reset.launchWord 0x26).cmd = some (.pgen 0) ∧ CoreNext busy [] ∧ busy.agenda = []
    ∧ decode busy.cmd = some (.pgen 0) := by decide +kernel

theorem witness_IllegalWordCompletes : CoreNext (State.reset.launchWord 0xFF) []
    ∧ decode (State.reset.launchWord 0xFF).cmd = none ∧ CoreNext (State.reset.acceptCmd 0x100) []
    ∧ decode (State.reset.acceptCmd 0x100).cmd = none := by decide +kernel

theorem witness_StepAnswersAndCommandsEnd :
    CoreNext (withMove busy .core) [] ∧ CoreNext { busy with agenda := [.core, .rstN false] } [.rstN false]
      ∧ CoreNext busy [] := by decide +kernel

theorem witness_FailedCommandCommitsNothing :
    exec (.fadd 3 1 2) (two testField (fe 5 2) (fe 5 3)) = .next (after (.fadd 3 1 2) (two testField (fe 5 2) (fe 5 3)))
      ∧ (after (.fadd 3 1 2) (two testField (fe 5 2) (fe 5 3))).status.err = true :=
  ⟨exec_after _ _, by decide +kernel⟩

theorem witness_CommandsWriteOnlyTheirDestinations :
    exec (.setmod 2 0) c14 = .next (after (.setmod 2 0) c14) ∧ (1 : VIdx) ∉ valueDests (.setmod 2 0)
      ∧ (0 : PIdx) ∉ pointDests (.setmod 2 0) ∧ ∀ rs1, Instr.setmod 2 0 ≠ .setmod 3 rs1 :=
  ⟨exec_after _ _, by decide, by decide, by decide⟩

theorem witness_DrawsAndAttempts : ParamsLegal vectorA
    ∧ exec (.keygen 4) vectorA = .next (after (.keygen 4) vectorA)
    ∧ exec (.sign 5 1 2 6) vectorA = .next (after (.sign 5 1 2 6) vectorA)
    ∧ exec .nop vectorA = .next (after .nop vectorA) ∧ ParamsLegal { vectorA with params := ⟨2, 1, 0⟩ }
    ∧ ParamsLegal { vectorA with params := ⟨256, 65535, 0⟩ } :=
  ⟨by decide, exec_after _ _, exec_after _ _, exec_after _ _, by decide, by decide⟩

theorem witness_OnlyComparisonsSetResult :
    exec (.pisinf 0) (State.reset.setP 0 (.inf 0)) = .next (after (.pisinf 0) (State.reset.setP 0 (.inf 0)))
      ∧ (after (.pisinf 0) (State.reset.setP 0 (.inf 0))).status.res = true := ⟨exec_after _ _, by decide +kernel⟩

theorem witness_ErrorsAreThoseListed : RegistersInv (two overTwo (fe 1 2) (fe 1 2)) ∧ WellFormed (.mmul 3 1 2)
    ∧ exec (.mmul 3 1 2) (two overTwo (fe 1 2) (fe 1 2)) = .next (after (.mmul 3 1 2) (two overTwo (fe 1 2) (fe 1 2)))
    ∧ (after (.mmul 3 1 2) (two overTwo (fe 1 2) (fe 1 2))).status.err = true :=
  ⟨registersInv_of_ok (by decide +kernel), by decide, exec_after _ _, by decide +kernel⟩

theorem witness_UnwrittenSourceRaises :
    (WellFormed (.mov 5 15) ∧ ∃ j ∈ valueSources (.mov 5 15), ¬ Written State.reset j)
      ∧ WellFormed (.verify 7 1 2 3) ∧ ∃ j ∈ pointSources (.verify 7 1 2 3), State.reset.preg j = .unwritten :=
  ⟨⟨by decide, 15, by decide, by decide⟩, by decide, 7, by decide, by decide⟩

theorem witness_UnconfiguredSlotRaises :
    (Written (State.reset.setV 0 (int 5)) 0 ∧ ((State.reset.setV 0 (int 5)).fieldSlot 3).valid = false)
      ∧ (State.reset.curveSlot 1).valid = false
      ∧ Written (two State.reset (int 1) (int 2)) 1 ∧ Written (two State.reset (int 1) (int 2)) 2
      ∧ ((two State.reset (int 1) (int 2)).curveSlot 3).valid = false := by decide

theorem witness_FieldMismatchRaises :
    (Written (two testField (int 1) (fe 2 2)) 1 ∧ Written (two testField (int 1) (fe 2 2)) 2
        ∧ ¬ SameField (two testField (int 1) (fe 2 2)) 1 2)
      ∧ (Written (two testField (fe 1 2) (fe 2 3)) 1 ∧ Written (two testField (fe 1 2) (fe 2 3)) 2
        ∧ ¬ SameField (two testField (fe 1 2) (fe 2 3)) 1 2 ∧ (1 : CIdx) ≠ 0)
      ∧ (Written (two testField (int 1) (int 0)) 2 ∧ ((two testField (int 1) (int 0)).vreg 1).tag = .int)
      ∧ (Written (two testField (fe 1 2) (int 1)) 1 ∧ Written (two testField (fe 1 2) (int 1)) 2
        ∧ ((two testField (fe 1 2) (int 1)).vreg 2).tag = .int)
      ∧ Written (two testField (fe 5 3) (fe 5 3)) 1 ∧ Written (two testField (fe 5 3) (fe 5 3)) 2
        ∧ ((two testField (fe 5 3) (fe 5 3)).curveSlot 1).valid = true
        ∧ ¬ ∃ f g, ((two testField (fe 5 3) (fe 5 3)).vreg 1).tag = .fe f ∧ ((two testField (fe 5 3) (fe 5 3)).vreg 2).tag = .fe g
          ∧ (two testField (fe 5 3) (fe 5 3)).modOf f = ((two testField (fe 5 3) (fe 5 3)).curveKey 1).m
          ∧ (two testField (fe 5 3) (fe 5 3)).modOf g = ((two testField (fe 5 3) (fe 5 3)).curveKey 1).m := by
  decide +kernel

/-- Each bound at its value: the modulus itself, and the keys 0 and N. -/
theorem witness_ValidationErrorsRaise :
    (Written (testField.setV 0 (int 223)) 0 ∧ (testField.fieldSlot 2).valid = true
        ∧ testField.modOf 2 ≤ ((testField.setV 0 (int 223)).vreg 0).value.toNat)
      ∧ (Written (two State.reset (int 1) (int 0)) 2 ∧ ((two State.reset (int 1) (int 0)).vreg 2).value = 0)
      ∧ ((5 : VIdx) ≠ 6 ∧ Written (two State.reset (int 1) (int Config.order)) 1
        ∧ Written (two State.reset (int 1) (int Config.order)) 2
        ∧ Config.order ≤ ((two State.reset (int 1) (int Config.order)).vreg 2).value)
      ∧ (State.reset.setP 2 (.inf 0)).preg 2 = .pt (.inf 0) := by decide +kernel

theorem witness_CurveMismatchRaises :
    ((points testField (.inf 1) (.inf 0)).preg 0 = .pt (.inf 1) ∧ (points testField (.inf 1) (.inf 0)).preg 1 = .pt (.inf 0)
        ∧ ¬ (points testField (.inf 1) (.inf 0)).CurveCompatible 1 0)
      ∧ ((points testField (pt 47 71) generator).preg 0 = .pt (pt 47 71)
        ∧ (points testField (pt 47 71) generator).preg 1 = .pt generator
        ∧ ¬ (points testField (pt 47 71) generator).CurveCompatible (pt 47 71).curve generator.curve)
      ∧ ((points (verifyG 1 1 1) generator (.inf 1)).preg 1 = .pt (.inf 1) ∧ Written (points (verifyG 1 1 1) generator (.inf 1)) 1
        ∧ Written (points (verifyG 1 1 1) generator (.inf 1)) 5 ∧ Written (points (verifyG 1 1 1) generator (.inf 1)) 6
        ∧ (points (verifyG 1 1 1) generator (.inf 1)).curveKey 1 ≠ ⟨Config.p.toNat, 0, 7⟩) := by decide +kernel

/-- GF(2) with the same curve in C1 and C3: the point (0, 1) on either slot. -/
def twoSlots : State := (points { overTwo with c3 := overTwo.c1 } (pt 0 1) (.aff 3 0 1)).setV 5 (int 1)

theorem witness_DoublingOverTwoRaises :
    twoSlots.preg 0 = .pt (pt 0 1) ∧ DoublingFails twoSlots (pt 0 1)
      ∧ (twoSlots.preg 0 = .pt (pt 0 1) ∧ twoSlots.CurveCompatible (pt 0 1).curve (pt 0 1).curve)
      ∧ (twoSlots.preg 1 = .pt (.aff 3 0 1) ∧ twoSlots.CurveCompatible (pt 0 1).curve 3
        ∧ ∃ c d x y, pt 0 1 = .aff c x y ∧ Point.aff 3 0 1 = .aff d x y)
      ∧ Written twoSlots 5 ∧ (twoSlots.vreg 5).value ≠ 0 :=
  ⟨by decide +kernel, ⟨by decide +kernel, by decide +kernel⟩, ⟨by decide +kernel, by decide +kernel⟩,
    ⟨by decide +kernel, by decide +kernel, 1, 3, 0, 1, rfl, rfl⟩, by decide, by decide⟩

theorem witness_CopyResults : Written (State.reset.setV 2 (int 223)) 2
    ∧ (points testField (pt 47 71) (.inf 1)).preg 0 = .pt (pt 47 71) := by decide +kernel

/-- A build with PRIME_CHECK_BITS = 16, and `n` in V0. -/
def modulus (n : Nat) : State := { (State.reset.setV 0 (int (BitVec.ofNat 256 n))) with params := ⟨16, 256, 0⟩ }

/-- The largest prime below 2^16 is accepted into each slot; 0, 1, a composite, and the prime 65537 are not. -/
theorem witness_SetmodLoadsPrimes :
    (2 ≤ (2 : FIdx).val ∧ 2 ≤ (3 : FIdx).val ∧ Written (modulus 65521) 0 ∧ ((modulus 65521).vreg 0).value.toNat = 65521
        ∧ 65521 < 2 ^ (modulus 65521).params.primeCheckBits ∧ 2 ≤ 65521 ∧ ∀ d, 2 ≤ d → d < 65521 → ¬ d ∣ 65521)
      ∧ ∀ n ∈ [(0 : Nat), 1, 221, 65537], Written (modulus n) 0 ∧ ((modulus n).vreg 0).value.toNat = n
        ∧ ¬ (n < 2 ^ (modulus n).params.primeCheckBits ∧ 2 ≤ n ∧ ∀ d, 2 ≤ d → d < n → ¬ d ∣ n) := by
  have hp : Nat.Prime 65521 := by norm_num
  refine ⟨⟨by decide, by decide, by decide, by decide, by decide, by decide, fun d h2 hd h => ?_⟩, fun n hn => ?_⟩
  · rcases hp.eq_one_or_self_of_dvd d h with h | h <;> omega
  · simp only [List.mem_cons, List.not_mem_nil, or_false] at hn
    rcases hn with rfl | rfl | rfl | rfl
    · exact ⟨by decide, by decide, by simp⟩
    · exact ⟨by decide, by decide, by simp⟩
    · exact ⟨by decide, by decide, fun h => h.2.2 13 (by decide) (by decide) (by decide)⟩
    · exact ⟨by decide, by decide, fun h => absurd h.1 (by decide)⟩

theorem witness_SetcrvLoadsCurve : (3 : CIdx) ≠ 0 ∧ (1 : CIdx) ≠ 0 ∧ (c14.vreg 1).tag = .fe 2 ∧ (c14.vreg 2).tag = .fe 2
    ∧ c14.modOf 2 = c14.modOf 2 := by decide +kernel

/-- The largest value below the modulus. -/
theorem witness_FmkTagsValue : Written (testField.setV 0 (int 222)) 0 ∧ (testField.fieldSlot 2).valid = true
    ∧ ((testField.setV 0 (int 222)).vreg 0).value.toNat < testField.modOf 2
    ∧ Written (State.reset.setV 0 (int (Config.order - 1))) 0 ∧ (State.reset.fieldSlot 1).valid = true
    ∧ ((State.reset.setV 0 (int (Config.order - 1))).vreg 0).value.toNat < State.reset.modOf 1 := by decide +kernel

/-- A sum that is the modulus, and one that is below it. -/
theorem witness_AdderResults : RegistersInv (two testField (fe 222 2) (fe 1 2)) ∧ RegistersInv (two testField (fe 171 2) (fe 51 2))
    ∧ ((two testField (fe 222 2) (fe 1 2)).vreg 1).tag = .fe 2 ∧ ((two testField (fe 222 2) (fe 1 2)).vreg 2).tag = .fe 2
    ∧ (two testField (fe 222 2) (fe 1 2)).modOf 2 = (two testField (fe 222 2) (fe 1 2)).modOf 2 :=
  ⟨registersInv_of_ok (by decide +kernel), registersInv_of_ok (by decide +kernel), by decide, by decide, rfl⟩

/-- An odd modulus, and 2. -/
theorem witness_MultiplierResults : RegistersInv (two testField (fe 100 2) (fe 100 2))
    ∧ ((two testField (fe 100 2) (fe 100 2)).vreg 1).tag = .fe 2 ∧ ((two testField (fe 100 2) (fe 100 2)).vreg 2).tag = .fe 2
    ∧ testField.modOf 2 % 2 = 1 ∧ RegistersInv (two overTwo (fe 1 2) (fe 1 2))
    ∧ ((two overTwo (fe 1 2) (fe 1 2)).vreg 1).tag = .fe 2 ∧ ((two overTwo (fe 1 2) (fe 1 2)).vreg 2).tag = .fe 2
    ∧ overTwo.modOf 2 % 2 = 0 :=
  ⟨registersInv_of_ok (by decide +kernel), by decide, by decide, by decide, registersInv_of_ok (by decide +kernel), by decide,
    by decide, by decide⟩

/-- An integer exponent that is not 0, and 0 as an element of another field. -/
theorem witness_FpowResult : RegistersInv (two testField (fe 3 2) (int 5)) ∧ ((two testField (fe 3 2) (int 5)).vreg 1).tag = .fe 2
    ∧ Written (two testField (fe 3 2) (int 5)) 2 ∧ ((two testField (fe 3 2) (int 5)).vreg 2).value ≠ 0
    ∧ RegistersInv (two testField (fe 0 2) (fe 0 3)) ∧ ((two testField (fe 0 2) (fe 0 3)).vreg 1).tag = .fe 2
    ∧ Written (two testField (fe 0 2) (fe 0 3)) 2 :=
  ⟨registersInv_of_ok (by decide +kernel), by decide, by decide, by decide, registersInv_of_ok (by decide +kernel), by decide,
    by decide⟩

/-- A divisor that is not 0, and 0. -/
theorem witness_FdivResult : RegistersInv (two testField (fe 7 3) (fe 5 3)) ∧ FieldsPrime (two testField (fe 7 3) (fe 5 3))
    ∧ ((two testField (fe 7 3) (fe 5 3)).vreg 1).tag = .fe 3 ∧ ((two testField (fe 7 3) (fe 5 3)).vreg 2).tag = .fe 3
    ∧ (two testField (fe 7 3) (fe 5 3)).modOf 3 = (two testField (fe 7 3) (fe 5 3)).modOf 3
    ∧ RegistersInv (two testField (fe 7 3) (fe 0 3)) ∧ FieldsPrime (two testField (fe 7 3) (fe 0 3))
    ∧ ((two testField (fe 7 3) (fe 0 3)).vreg 1).tag = .fe 3 ∧ ((two testField (fe 7 3) (fe 0 3)).vreg 2).tag = .fe 3
    ∧ ((two testField (fe 7 3) (fe 0 3)).vreg 2).value = 0 :=
  ⟨registersInv_of_ok (by decide +kernel), fieldsPrime_testField rfl rfl, by decide, by decide, rfl,
    registersInv_of_ok (by decide +kernel), fieldsPrime_testField rfl rfl, by decide, by decide, by decide⟩

theorem witness_FeqResult : ((two testField (fe 5 2) (fe 5 3)).vreg 1).tag = .fe 2
    ∧ ((two testField (fe 5 2) (fe 5 3)).vreg 2).tag = .fe 3 := by decide

theorem witness_PinfAndPgenResults : (State.reset.curveSlot 0).valid = true ∧ (testField.curveSlot 1).valid = true := by decide

/-- A point of the curve, and coordinates off it. -/
theorem witness_PmkResult :
    (RegistersInv (two testField (fe 170 2) (fe 142 2)) ∧ (testField.curveSlot 1).valid = true
        ∧ ((two testField (fe 170 2) (fe 142 2)).vreg 1).tag = .fe 2 ∧ ((two testField (fe 170 2) (fe 142 2)).vreg 2).tag = .fe 2
        ∧ testField.modOf 2 = (testField.curveKey 1).m ∧ SatisfiesCurve (two testField (fe 170 2) (fe 142 2)) 1 170 142)
      ∧ RegistersInv (two testField (fe 170 2) (fe 143 2)) ∧ ((two testField (fe 170 2) (fe 143 2)).vreg 1).tag = .fe 2
        ∧ ((two testField (fe 170 2) (fe 143 2)).vreg 2).tag = .fe 2
        ∧ ¬ SatisfiesCurve (two testField (fe 170 2) (fe 143 2)) 1 170 143 :=
  ⟨⟨registersInv_of_ok (by decide +kernel), by decide, by decide, by decide, by decide, by decide +kernel⟩,
    registersInv_of_ok (by decide +kernel), by decide, by decide, by decide +kernel⟩

theorem witness_PeqResult : (points testField (pt 47 71) (.inf 0)).preg 0 = .pt (pt 47 71)
    ∧ (points testField (pt 47 71) (.inf 0)).preg 1 = .pt (.inf 0) := by decide +kernel

/-- Two points of the test curve, and over GF(2) two different points, although the first does not double. -/
theorem witness_PaddResult :
    (RegistersInv (points testField (pt 47 71) (pt 47 71)) ∧ FieldsPrime (points testField (pt 47 71) (pt 47 71))
        ∧ (points testField (pt 47 71) (pt 47 71)).preg 0 = .pt (pt 47 71)
        ∧ (points testField (pt 47 71) (pt 47 71)).preg 1 = .pt (pt 47 71)
        ∧ (points testField (pt 47 71) (pt 47 71)).CurveCompatible (pt 47 71).curve (pt 47 71).curve
        ∧ ¬ (DoublingFails (points testField (pt 47 71) (pt 47 71)) (pt 47 71)
          ∧ ∃ c d x y, pt 47 71 = .aff c x y ∧ pt 47 71 = .aff d x y))
      ∧ RegistersInv (points overTwo (pt 0 1) (pt 1 0)) ∧ FieldsPrime (points overTwo (pt 0 1) (pt 1 0))
        ∧ (points overTwo (pt 0 1) (pt 1 0)).preg 0 = .pt (pt 0 1) ∧ (points overTwo (pt 0 1) (pt 1 0)).preg 1 = .pt (pt 1 0)
        ∧ (points overTwo (pt 0 1) (pt 1 0)).CurveCompatible (pt 0 1).curve (pt 1 0).curve
        ∧ ¬ (DoublingFails (points overTwo (pt 0 1) (pt 1 0)) (pt 0 1)
          ∧ ∃ c d x y, pt 0 1 = .aff c x y ∧ pt 1 0 = .aff d x y) := by
  refine ⟨⟨registersInv_of_ok (by decide +kernel), fieldsPrime_testField rfl rfl, by decide +kernel, by decide +kernel, rfl,
    fun h => absurd h.1.1 (by decide +kernel)⟩, registersInv_of_ok (by decide +kernel), fieldsPrime_overTwo rfl rfl,
    by decide +kernel, by decide +kernel, rfl, ?_⟩
  rintro ⟨-, c, d, x, y, h1, h2⟩
  cases h1
  cases h2

theorem witness_PdblResult : RegistersInv (points testField (pt 6 0) (.inf 1)) ∧ FieldsPrime (points testField (pt 6 0) (.inf 1))
    ∧ (points testField (pt 6 0) (.inf 1)).preg 0 = .pt (pt 6 0)
    ∧ ¬ DoublingFails (points testField (pt 6 0) (.inf 1)) (pt 6 0) :=
  ⟨registersInv_of_ok (by decide +kernel), fieldsPrime_testField rfl rfl, by decide +kernel,
    fun h => absurd h.1 (by decide +kernel)⟩

/-- P-25's tangent of slope 199. -/
theorem witness_SumIsUnique : FieldsPrime testField ∧ (testField.fieldSlot (testField.curveSlot (pt 47 71).curve).f).valid = true
    ∧ GroupLaw testField (pt 47 71) (pt 47 71) (pt 36 111) :=
  ⟨fieldsPrime_testField rfl rfl, by decide, .tangent 1 1 47 71 36 111 199 (by decide) (by decide +kernel) (by decide +kernel)⟩

/-- A point of the test curve with a scalar of 256 bits, and over GF(2) the scalar 0. -/
theorem witness_PsmulResult :
    (RegistersInv ((testField.setP 0 (pt 47 71)).setV 5 (int (BitVec.allOnes 256)))
        ∧ FieldsPrime ((testField.setP 0 (pt 47 71)).setV 5 (int (BitVec.allOnes 256)))
        ∧ ((testField.setP 0 (pt 47 71)).setV 5 (int (BitVec.allOnes 256))).preg 0 = .pt (pt 47 71)
        ∧ Written ((testField.setP 0 (pt 47 71)).setV 5 (int (BitVec.allOnes 256))) 5
        ∧ ¬ (DoublingFails ((testField.setP 0 (pt 47 71)).setV 5 (int (BitVec.allOnes 256))) (pt 47 71)
          ∧ (((testField.setP 0 (pt 47 71)).setV 5 (int (BitVec.allOnes 256))).vreg 5).value ≠ 0))
      ∧ RegistersInv ((overTwo.setP 0 (pt 0 1)).setV 5 (int 0)) ∧ FieldsPrime ((overTwo.setP 0 (pt 0 1)).setV 5 (int 0))
        ∧ ((overTwo.setP 0 (pt 0 1)).setV 5 (int 0)).preg 0 = .pt (pt 0 1) ∧ Written ((overTwo.setP 0 (pt 0 1)).setV 5 (int 0)) 5
        ∧ ¬ (DoublingFails ((overTwo.setP 0 (pt 0 1)).setV 5 (int 0)) (pt 0 1)
          ∧ (((overTwo.setP 0 (pt 0 1)).setV 5 (int 0)).vreg 5).value ≠ 0) :=
  ⟨⟨registersInv_of_ok (by decide +kernel), fieldsPrime_testField rfl rfl, by decide +kernel, by decide,
    fun h => absurd h.1.1 (by decide +kernel)⟩, registersInv_of_ok (by decide +kernel), fieldsPrime_overTwo rfl rfl,
    by decide +kernel, by decide, fun h => absurd h.2 (by decide)⟩

theorem witness_AccessorResults : (testField.setP 2 (pt 220 181)).preg 2 = .pt (.aff 1 220 181)
    ∧ (testField.setP 2 (.inf 1)).preg 2 = .pt (.inf 1) := by decide +kernel

/-- n = 7, n = 1 and n = 0, and a common factor. -/
theorem witness_MinvResult :
    (Written (two State.reset (int 10) (int 7)) 1 ∧ Written (two State.reset (int 10) (int 7)) 2
        ∧ ((two State.reset (int 10) (int 7)).vreg 2).value ≠ 0 ∧ Nat.gcd 10 7 = 1)
      ∧ (((two State.reset (int 5) (int 1)).vreg 2).value ≠ 0 ∧ Nat.gcd 5 1 = 1)
      ∧ ((two State.reset (int 1) (int 0)).vreg 2).value = 0 ∧ Nat.gcd 6 9 ≠ 1 := by decide

theorem witness_KeygenResult : vectorRetry.rng.answers = drawOf 0 :: [drawOf 1] := rfl

/-- The keys 1 and N − 1. -/
theorem witness_PubkeyResult : (Written (State.reset.setV 4 (int 1)) 4 ∧ ((State.reset.setV 4 (int 1)).vreg 4).value ≠ 0
      ∧ ((State.reset.setV 4 (int 1)).vreg 4).value < Config.order)
    ∧ Written (State.reset.setV 4 (int (Config.order - 1))) 4 ∧ ((State.reset.setV 4 (int (Config.order - 1))).vreg 4).value ≠ 0
      ∧ ((State.reset.setV 4 (int (Config.order - 1))).vreg 4).value < Config.order := by decide +kernel

/-- The same keys for 43_ecdsa.md R149.5. -/
theorem witness_PubkeyIsNeverInfinity : Written (State.reset.setV 4 (int 1)) 4 ∧ ((State.reset.setV 4 (int 1)).vreg 4).value ≠ 0
    ∧ ((State.reset.setV 4 (int 1)).vreg 4).value < Config.order := by decide +kernel

/-- The retry vector's nonce 1 is degenerate: s = 0. -/
theorem retry_degenerate {s : State} (h1 : nonceAt s 0 = 1) (h2 : s.scalarMul generator 1 = .ok generator) :
    NonceDegenerate s (Config.order - Config.gx).toNat 1 (nonceAt s 0) := by
  rw [h1]
  exact ⟨Config.gx.toNat, 0, ⟨Config.gx, Config.gy, scalarMulIs_generator (by norm_num) h2, by decide +kernel, by decide +kernel,
    by decide +kernel⟩, .inr rfl⟩

/-- The retry vector: the first nonce is degenerate and the second, 2, gives r = x(2G) mod N and s = (z + r)/2 mod N. -/
theorem witness_SignResult : ParamsLegal vectorRetry ∧ (5 : VIdx) ≠ 6 ∧ Written vectorRetry 1 ∧ Written vectorRetry 2
    ∧ (vectorRetry.vreg 2).value ≠ 0 ∧ (vectorRetry.vreg 2).value < Config.order ∧ 1 < vectorRetry.params.nonceMaxAttempts
    ∧ (∀ j, j < 1 → NonceDegenerate vectorRetry (vectorRetry.vreg 1).value.toNat (vectorRetry.vreg 2).value.toNat
        (nonceAt vectorRetry j))
    ∧ NonceGives vectorRetry (vectorRetry.vreg 1).value.toNat (vectorRetry.vreg 2).value.toNat (nonceAt vectorRetry 1)
        0xC6047F9441ED7D6D3045406E95C07CD85C778E4B8CEF3CA7ABAC09B95C709EE5
        0xA6230C8AA40860E06D526EEC639CB8E80A45372B8734DA0508C5F3758AD76447 := by
  refine ⟨by decide, by decide, by decide, by decide, by decide, by decide +kernel, by decide, fun j hj => ?_, ?_⟩
  · obtain rfl : j = 0 := by omega
    exact retry_degenerate (by decide +kernel) (by decide +kernel)
  · exact ⟨0xC6047F9441ED7D6D3045406E95C07CD85C778E4B8CEF3CA7ABAC09B95C709EE5#256,
      0x1AE168FEA63DC339A3C58419466CEAEEF7F632653266D0E1236431A950CFE52A#256,
      scalarMulIs_generator (by decide +kernel) (by decide +kernel), by decide +kernel, by decide +kernel, by decide +kernel⟩

/-- E-19's state with NONCE_MAX_ATTEMPTS = 2: both draws are 0. -/
def exhausted : State := { vectorRetry with params := ⟨32, 2, 0⟩, rng := ⟨[drawOf 0, drawOf 0], 0⟩ }

theorem witness_SignExhaustsNonces : ParamsLegal exhausted ∧ (5 : VIdx) ≠ 6 ∧ Written exhausted 1 ∧ Written exhausted 2
    ∧ (exhausted.vreg 2).value ≠ 0 ∧ (exhausted.vreg 2).value < Config.order
    ∧ ∀ j, j < exhausted.params.nonceMaxAttempts → NonceDegenerate exhausted (exhausted.vreg 1).value.toNat
        (exhausted.vreg 2).value.toNat (nonceAt exhausted j) := by
  have hd : NonceDegenerate exhausted (exhausted.vreg 1).value.toNat (exhausted.vreg 2).value.toNat (nonceAt exhausted 0) :=
    retry_degenerate (by decide +kernel) (by decide +kernel)
  refine ⟨by decide, by decide, by decide, by decide, by decide, by decide +kernel, fun j hj => ?_⟩
  have hj : j < 2 := hj
  have h1 : nonceAt exhausted 1 = nonceAt exhausted 0 := by decide +kernel
  interval_cases j
  · exact hd
  · rw [h1]; exact hd

theorem witness_SignatureIsInRange : exec (.sign 5 1 2 6) vectorA = .next (after (.sign 5 1 2 6) vectorA)
    ∧ (after (.sign 5 1 2 6) vectorA).status.err = false := ⟨exec_after _ _, by decide +kernel⟩

/-- r and s at the ends of their range, with G as the key. -/
theorem witness_VerifyResult : RegistersInv (verifyG 1 0 (Config.order - 1)) ∧ (verifyG 1 0 (Config.order - 1)).preg 1 = .pt generator
    ∧ Written (verifyG 1 0 (Config.order - 1)) 1 ∧ Written (verifyG 1 0 (Config.order - 1)) 5
    ∧ Written (verifyG 1 0 (Config.order - 1)) 6
    ∧ (verifyG 1 0 (Config.order - 1)).curveKey generator.curve = ⟨Config.p.toNat, 0, 7⟩ :=
  ⟨registersInv_of_ok (by decide +kernel), by decide +kernel, by decide, by decide, by decide, by decide +kernel⟩

theorem witness_SignVerifyRoundTrip : (1 : VIdx) ≠ 5 ∧ (1 : VIdx) ≠ 6 ∧ (2 : VIdx) ≠ 5 ∧ (2 : VIdx) ≠ 6
    ∧ exec (.sign 5 1 2 6) vectorA = .next (after (.sign 5 1 2 6) vectorA)
    ∧ (after (.sign 5 1 2 6) vectorA).status.err = false
    ∧ exec (.pubkey 1 2) (after (.sign 5 1 2 6) vectorA)
        = .next (after (.pubkey 1 2) (after (.sign 5 1 2 6) vectorA)) :=
  ⟨by decide, by decide, by decide, by decide, exec_after _ _, by decide +kernel, exec_after _ _⟩

/-! The bus. -/

/-- The first and the last word of the file, with the block idle and busy. -/
theorem witness_ValueWordWrite :
    (∀ s ∈ [State.reset, busy], ∀ k ∈ [((0 : VIdx), (0 : Fin 8)), (15, 7)],
      (withMove s (.write 32 (vwordOffset k.1 k.2) 0xDEADBEEF)).rstN = true
        ∧ (withMove s (.write 32 (vwordOffset k.1 k.2) 0xDEADBEEF)).agenda =
          [.write 32 (BitVec.ofNat 12 (0x100 + 0x20 * k.1.val + 4 * k.2.val)) 0xDEADBEEF])
      ∧ busy.status.busy = true ∧ State.reset.status.busy = false := by decide +kernel

theorem witness_CommandWrite : ∀ s ∈ [State.reset, busy], (withMove s (.write 32 0x00C 0x26)).rstN = true
    ∧ (withMove s (.write 32 0x00C 0x26)).agenda = [.write 32 0x00C 0x26] := by decide +kernel

theorem witness_StatusWrite : (withMove finished (.write 32 0x008 0x12)).rstN = true
    ∧ (withMove finished (.write 32 0x008 0x12)).agenda = [.write 32 0x008 0x12] ∧ finished.status.done = true := by decide +kernel

/-- CTRL written with bit 1 clear and with it set, while PGEN runs, while a word that does not decode runs, and idle. -/
theorem witness_CtrlWrite :
    (∀ s ∈ [busy, State.reset.acceptCmd 0xFF, State.reset],
      ((withMove s (.write 32 0x004 1)).rstN = true ∧ (withMove s (.write 32 0x004 1)).agenda = [.write 32 0x004 1])
        ∧ (withMove s (.write 32 0x004 3)).rstN = true ∧ (withMove s (.write 32 0x004 3)).agenda = [.write 32 0x004 3])
      ∧ (1 : Word32).getLsbD 1 = false ∧ (3 : Word32).getLsbD 1 = true
      ∧ State.reset.status.busy = false ∧ decode (State.reset.acceptCmd 0xFF).cmd = none ∧ decode busy.cmd = some (.pgen 0)
      ∧ exec (.pgen 0) { busy with ie := true } = .next (after (.pgen 0) { busy with ie := true }) :=
  ⟨by decide +kernel, by decide, by decide, by decide, by decide, by decide, exec_after _ _⟩

/-- An access for each disjunct, with the ends of the reserved ranges. -/
theorem witness_IgnoredAccesses :
    (∀ a ∈ [(16, (0x008 : Offset)), (32, 0x002), (32, 0x028), (32, 0x0FC), (32, 0x300), (32, 0xFFC)],
      (withMove State.reset (.read a.1 a.2)).agenda = [.read a.1 a.2]
        ∧ (withMove State.reset (.write a.1 a.2 1)).agenda = [.write a.1 a.2 1]
        ∧ (a.1 ≠ 32 ∨ a.2.toNat % 4 ≠ 0 ∨ (0x028 ≤ a.2.toNat ∧ a.2.toNat < 0x100) ∨ 0x300 ≤ a.2.toNat))
      ∧ ∀ off ∈ [(0x000 : Offset), 0x010, 0x014, 0x018, 0x01C, 0x020, 0x024],
          (withMove State.reset (.write 32 off 1)).agenda = [.write 32 off 1] := by
  simp only [List.forall_mem_cons, List.not_mem_nil, false_implies, implies_true, and_true]
  decide +kernel

theorem witness_ControlRegisterReads : ∀ off ∈ [(0x000 : Offset), 0x004, 0x008, 0x00C, 0x024],
    (withMove busy (.read 32 off)).agenda = [.read 32 off] ∧ ParamsLegal (withMove busy (.read 32 off))
      ∧ (withMove busy (.read 32 off)).params.primeCheckBits < 256 := by
  simp only [List.forall_mem_cons, List.not_mem_nil, false_implies, implies_true, and_true]
  decide +kernel

theorem witness_RegisterReads :
    ∀ off ∈ [(0x010 : Offset), 0x014, 0x018, 0x01C, 0x020, 0x100, 0x2FC],
      (withMove c14 (.read 32 off)).agenda = [.read 32 off] ∧ (withMove c14 (.read 32 off)).status.busy = false
        ∧ off.toNat % 4 = 0 := by
  simp only [List.forall_mem_cons, List.not_mem_nil, false_implies, implies_true, and_true]
  decide +kernel

theorem witness_ReadsHaveNoSideEffects :
    ∀ off ∈ [(0x010 : Offset), 0x020, 0x100, 0x2FC], (withMove busy (.read 32 off)).agenda = [.read 32 off]
      ∧ (withMove busy (.read 32 off)).status.busy = true ∧ off.toNat % 4 = 0
      ∧ ((0x010 ≤ off.toNat ∧ off.toNat < 0x024) ∨ (0x100 ≤ off.toNat ∧ off.toNat < 0x300)) := by
  simp only [List.forall_mem_cons, List.not_mem_nil, false_implies, implies_true, and_true]
  decide +kernel

/-- A pin going low while a command runs and while none does, a write in reset, and the pin going high. -/
theorem witness_PinResetsBlock : (withMove busy (.rstN false)).agenda = [.rstN false]
    ∧ (withMove State.reset (.rstN false)).agenda = [.rstN false] ∧ State.reset.status.busy = false
    ∧ decode busy.cmd = some (.pgen 0) ∧ exec (.pgen 0) busy = .next (after (.pgen 0) busy)
    ∧ (withMove (State.reset.acceptCmd 0xFF) (.rstN false)).agenda = [.rstN false]
    ∧ decode (State.reset.acceptCmd 0xFF).cmd = none
    ∧ (withMove { State.reset with rstN := false } (.write 32 0x00C 0x26)).rstN = false
    ∧ (withMove { State.reset with rstN := false } (.write 32 0x00C 0x26)).agenda = [.write 32 0x00C 0x26]
    ∧ (withMove { State.reset with rstN := false } (.rstN true)).agenda = [.rstN true] :=
  ⟨by decide, by decide, by decide, by decide, exec_after _ _, by decide, by decide, by decide, by decide, by decide⟩

/-- The next state of `step`. -/
def stepped (s : State) : State :=
  match step s with
  | .next t => t
  | .fault _ => s
  | .refused _ => s

def answers (s : State) : Bool :=
  match step s with
  | .next _ => true
  | .fault _ => false
  | .refused _ => false

theorem step_stepped {s : State} (h : answers s = true) : step s = .next (stepped s) := by
  unfold answers at h
  unfold stepped
  split at h <;> simp_all

theorem witness_InterruptFollowsDone :
    (CoreNext { busy with ie := true } [] ∧ step { busy with ie := true } = .next (stepped { busy with ie := true }))
      ∧ (finished.rstN = true ∧ finished.status.busy = false
        ∧ step (withMove finished (.write 32 0x00C 0x26)) = .next (stepped (withMove finished (.write 32 0x00C 0x26))))
      ∧ ((2 : Word32).getLsbD 1 = true
        ∧ step (withMove finished (.write 32 0x008 2)) = .next (stepped (withMove finished (.write 32 0x008 2))))
      ∧ (0 : Word32).getLsbD 1 = false
        ∧ step (withMove finished (.write 32 0x004 0)) = .next (stepped (withMove finished (.write 32 0x004 0))) :=
  ⟨⟨by decide, step_stepped (by decide +kernel)⟩, ⟨by decide +kernel, by decide +kernel, step_stepped (by decide +kernel)⟩, ⟨by decide, step_stepped (by decide +kernel)⟩, by decide,
    step_stepped (by decide +kernel)⟩

/-! The invariants, in a state with two points and PADD running. -/

def adding : State := (points testField (pt 170 142) (pt 60 139)).launchWord 0x00010223

theorem witness_StepKeepsRegistersInv : RegistersInv adding ∧ FieldsPrime adding ∧ step adding = .next (stepped adding) :=
  ⟨registersInv_of_ok (by decide +kernel), fieldsPrime_testField rfl rfl, step_stepped (by decide +kernel)⟩

theorem witness_StepKeepsPointsOnCurve : RegistersInv adding ∧ FieldsPrime adding ∧ PointsOnCurve adding
    ∧ step adding = .next (stepped adding) :=
  ⟨registersInv_of_ok (by decide +kernel), fieldsPrime_testField rfl rfl, pointsOnCurve_of_ok (by decide +kernel), step_stepped (by decide +kernel)⟩

/-- With the pin high, and with it low and the block in reset. -/
theorem witness_StepKeepsStatusInv :
    (StatusInv adding ∧ PinInv adding ∧ step adding = .next (stepped adding))
      ∧ StatusInv { State.reset with rstN := false } ∧ PinInv { State.reset with rstN := false } :=
  ⟨⟨⟨by decide, by decide, by decide, by decide⟩, fun h => absurd h (by decide), step_stepped (by decide +kernel)⟩,
    ⟨by decide, by decide, by decide, by decide⟩, fun _ => ⟨rfl, rfl, rfl, rfl, rfl, rfl, rfl, rfl, rfl, rfl, rfl⟩⟩

end Sys2Proof.Tests
end

section
/-! What the commands write, said once for all of them: one register or one slot, and contents that meet the
invariants of 10_state.md R35. -/

namespace Sys2Proof.Machine

open Sys2Proof.Safety

/-! ### What a command writes -/

/-- A value register content that meets R35.1: a field element of a valid slot, below its modulus. -/
def ValueFits (s : State) (x : VReg) : Prop :=
  ∀ f, x.tag = .fe f → (s.fieldSlot f).valid = true ∧ x.value.toNat < s.modOf f

theorem valueFits_intReg (s : State) (n : Nat) : ValueFits s (intReg n) := fun _ h => by simp [intReg] at h

/-- A residue modulo a valid slot's modulus fits, as a field element of that slot. -/
theorem valueFits_feReg {s : State} {f : FIdx} {x : Nat} (hv : (s.fieldSlot f).valid = true) (hx : x < s.modOf f) :
    ValueFits s (feReg x f) := by
  intro g hg
  obtain rfl : f = g := by simpa [feReg] using hg
  refine ⟨hv, ?_⟩
  simp only [feReg, BitVec.toNat_ofNat]
  exact Nat.lt_of_le_of_lt (Nat.mod_le _ _) hx

/-- A point that meets R35.2 and the bounds of R35.3, and the equation of R35.3 wherever all registers do. -/
structure PointFits (s : State) (q : Point) : Prop where
  valid : (s.curveSlot q.curve).valid = true
  below : PointBelow s q
  onCurve : PointsOnCurve s → OnItsCurve s q

/-- The contents of a curve slot that meet R35.4. -/
def CurveFits (s : State) (x : CurveSlot) : Prop :=
  (s.fieldSlot x.f).valid = true ∧ x.a.toNat < s.modOf x.f ∧ x.b.toNat < s.modOf x.f

/-- What the staged state of a command that draws nothing is: one register or one slot written. What is written meets
the invariants if the state before it does. -/
inductive Update (s : State) : State → Prop where
  | none : Update s s
  | value (i : VIdx) (x : VReg) (fits : RegistersInv s → FieldsPrime s → ValueFits s x) : Update s (s.setV i x)
  | point (i : PIdx) (q : Point) (fits : RegistersInv s → FieldsPrime s → PointFits s q) : Update s (s.setP i q)
  | field (f : FIdx) (m : U256) (generic : 2 ≤ f.val) (prime : m.toNat.Prime) :
      Update s ((s.invalidateField f).setField f ⟨true, m⟩)
  | curve (c : CIdx) (x : CurveSlot) (generic : c ≠ 0) (fits : RegistersInv s → CurveFits s x) :
      Update s ((s.invalidateCurve c).setCurve c x)

/-- The binary field commands write a residue of their operands' slot (41_field.md R102 to R109). -/
theorem update_of_readFieldPair {s : State} {rd i j : VIdx} {o : FieldPair} {x : Nat} (h : s.readFieldPair i j = .ok o)
    (hx : 0 < o.m → x < o.m) : Update s (s.setV rd (feReg x o.f)) := by
  obtain ⟨f, g, hf, -, -, rfl⟩ := State.readFieldPair_eq_ok.mp h
  refine .value _ _ fun inv _ => ?_
  obtain ⟨hv, hlt⟩ := inv.element i f hf
  exact valueFits_feReg hv (hx (Nat.zero_lt_of_lt hlt))

/-- `FieldPow` is a residue (41_field.md R107). -/
theorem fieldPow_lt {m : Nat} (h2 : 2 ≤ m) (hm : m ≤ 2 ^ 256) (x e : Nat) (neg : Bool) : fieldPow x e neg m < m := by
  unfold fieldPow
  split <;> rw [binPow_eq _ m (pred_lt_pow hm e h2)] <;> exact Nat.mod_lt _ (by omega)

theorem onItsCurve_preg {s : State} (h : PointsOnCurve s) {i : PIdx} {q : Point} (hq : s.preg i = .pt q) :
    OnItsCurve s q := by
  cases q with
  | inf c => trivial
  | aff c x y => exact h i c x y hq

/-- A register's point fits. -/
theorem pointFits_preg {s : State} (inv : RegistersInv s) {i : PIdx} {q : Point} (hq : s.preg i = .pt q) : PointFits s q :=
  ⟨inv.point i q hq, pointBelow_preg inv hq, fun h => onItsCurve_preg h hq⟩

theorem prime_of_pointFits {s : State} (inv : RegistersInv s) (hp : FieldsPrime s) {q : Point} (h : PointFits s q) :
    (s.curveKey q.curve).m.Prime :=
  hp _ (inv.curve _ h.valid).1

/-- A sum that `PointAdd` answers fits where its terms do (42_point.md R124, R125). -/
theorem pointFits_pointAdd {s : State} (inv : RegistersInv s) (hp : FieldsPrime s) {A B q : Point} (hA : PointFits s A)
    (hB : PointFits s B) (h : s.pointAdd A B = .ok q) : PointFits s q := by
  have hm := prime_of_pointFits inv hp hA
  have hc : s.CurveCompatible A.curve B.curve := by
    by_contra hc
    simp [State.pointAdd, hc] at h
  obtain ⟨-, -, he⟩ | ⟨q', hq, hl⟩ := pointAdd_spec hm hc hA.below hB.below
  · rw [he] at h; cases h
  · obtain rfl : q' = q := Except.ok.inj (hq.symm.trans h)
    refine ⟨?_, groupLaw_below hl hA.below hB.below, fun ho => groupLaw_onCurve hm hc hl (hA.onCurve ho) (hB.onCurve ho)⟩
    rcases groupLaw_curve hl with e | e <;> rw [e]
    · exact hA.valid
    · exact hB.valid

/-- A multiple that `ScalarMul` answers fits where the point does (42_point.md R128). -/
theorem pointFits_scalarMul {s : State} (inv : RegistersInv s) (hp : FieldsPrime s) {A q : Point} (hA : PointFits s A)
    (k : U256) (h : s.scalarMul A k.toNat = .ok q) : PointFits s q := by
  obtain ⟨hc, hb, ho⟩ := scalarMul_ok (prime_of_pointFits inv hp hA) hA.below k.isLt h
  exact ⟨hc ▸ hA.valid, hb, fun h => ho (hA.onCurve h)⟩

/-- G satisfies the equation of C0 (00_scope.md R8). -/
theorem generator_satisfiesCurve (s : State) : SatisfiesCurve s 0 Config.gx.toNat Config.gy.toNat := by
  rw [SatisfiesCurve, State.curveKey_zero]
  decide

theorem pointFits_generator (s : State) : PointFits s generator :=
  ⟨rfl, generator_below s, fun _ => generator_satisfiesCurve s⟩

/-- A point read by PGETX or PGETY has coordinates of its curve's field (42_point.md R131, R132). -/
theorem coordinates_fit {s : State} (inv : RegistersInv s) {i : PIdx} {c : CIdx} {x y : U256}
    (h : s.preg i = .pt (.aff c x y)) :
    ValueFits s ⟨x, .fe (s.curveSlot c).f⟩ ∧ ValueFits s ⟨y, .fe (s.curveSlot c).f⟩ := by
  have hv := (inv.curve c (inv.point i _ h)).1
  obtain ⟨hx, hy⟩ := inv.coords i c x y h
  exact ⟨fun f hf => by cases hf; exact ⟨hv, hx⟩, fun f hf => by cases hf; exact ⟨hv, hy⟩⟩

/-- A point that PMK accepts fits (42_point.md R122). -/
theorem pointFits_pmk {s : State} (inv : RegistersInv s) {c : CIdx} {rs1 rs2 : VIdx} {f g : FIdx}
    (hv : (s.curveSlot c).valid = true) (hf : (s.vreg rs1).tag = .fe f) (hg : (s.vreg rs2).tag = .fe g)
    (hmf : s.modOf f = (s.curveKey c).m) (hmg : s.modOf g = (s.curveKey c).m)
    (ho : s.OnCurve c (s.vreg rs1).value.toNat (s.vreg rs2).value.toNat) :
    PointFits s (.aff c (s.vreg rs1).value (s.vreg rs2).value) := by
  have hx := (inv.element rs1 f hf).2
  have hy := (inv.element rs2 g hg).2
  rw [hmf] at hx
  rw [hmg] at hy
  exact ⟨hv, ⟨hx, hy⟩, fun _ => (onCurve_iff (Nat.zero_lt_of_lt hx)).mp ho⟩

/-- Every command that draws nothing updates one register or one slot, or none. -/
theorem effect_update {i : Instr} {s st : State} {b : Bool} (hk : ∀ rd, i ≠ .keygen rd)
    (hs : ∀ rd rs1 rs2 rs3, i ≠ .sign rd rs1 rs2 rs3) (h : Effect i s st b) : Update s st := by
  cases i with
  | keygen rd => exact absurd rfl (hk rd)
  | sign rd rs1 rs2 rs3 => exact absurd rfl (hs rd rs1 rs2 rs3)
  | nop => obtain ⟨rfl, -⟩ := h; exact .none
  | mov rd rs1 => obtain ⟨-, rfl, -⟩ := h; exact .value _ _ fun inv _ => inv.element rs1
  | pmov rd rs1 => obtain ⟨q, hq, rfl, -⟩ := h; exact .point _ _ fun inv _ => pointFits_preg inv hq
  | setmod f rs1 =>
    obtain ⟨hf, -, hp, rfl, -⟩ := h
    exact .field f _ hf (primeAcceptable_prime (s.vreg rs1).value.isLt hp)
  | setcrv c rs1 rs2 =>
    obtain ⟨hc, f, g, hf, hg, hm, rfl, -⟩ := h
    refine .curve c _ hc fun inv => ?_
    obtain ⟨hv, ha⟩ := inv.element rs1 f hf
    exact ⟨hv, ha, hm ▸ (inv.element rs2 g hg).2⟩
  | fmk rd rs1 f =>
    obtain ⟨-, hv, hlt, rfl, -⟩ := h
    exact .value _ _ fun _ _ g hg => by cases hg; exact ⟨hv, hlt⟩
  | fadd rd rs1 rs2 => obtain ⟨o, ho, rfl, -⟩ := h; exact update_of_readFieldPair ho (Nat.mod_lt _)
  | fsub rd rs1 rs2 => obtain ⟨o, ho, rfl, -⟩ := h; exact update_of_readFieldPair ho (residue_lt _)
  | fmul rd rs1 rs2 => obtain ⟨o, ho, rfl, -⟩ := h; exact update_of_readFieldPair ho (Nat.mod_lt _)
  | mmul rd rs1 rs2 => obtain ⟨o, ho, -, rfl, -⟩ := h; exact update_of_readFieldPair ho (Nat.mod_lt _)
  | fdiv rd rs1 rs2 => obtain ⟨o, ho, -, rfl, -⟩ := h; exact update_of_readFieldPair ho (Nat.mod_lt _)
  | fpow rd rs1 rs2 neg =>
    obtain ⟨f, hf, -, rfl, -⟩ := h
    refine .value _ _ fun inv _ => ?_
    have hv := (inv.element rs1 f hf).1
    exact valueFits_feReg hv (fieldPow_lt (inv.modulus f hv) (s.fieldSlot f).m.isLt.le _ _ _)
  | feq rs1 rs2 => obtain ⟨_, _, -, -, rfl, -⟩ := h; exact .none
  | pinf rd c => obtain ⟨hv, rfl, -⟩ := h; exact .point _ _ fun _ _ => ⟨hv, trivial, fun _ => trivial⟩
  | pmk rd rs1 rs2 c =>
    obtain ⟨hv, ⟨f, g, hf, hg, hmf, hmg⟩, ho, rfl, -⟩ := h
    exact .point _ _ fun inv _ => pointFits_pmk inv hv hf hg hmf hmg ho
  | peq rs1 rs2 => obtain ⟨_, _, -, -, rfl, -⟩ := h; exact .none
  | padd rd rs1 rs2 =>
    obtain ⟨A, B, q, hA, hB, hq, rfl, -⟩ := h
    exact .point _ _ fun inv hp => pointFits_pointAdd inv hp (pointFits_preg inv hA) (pointFits_preg inv hB) hq
  | pdbl rd rs1 =>
    obtain ⟨A, q, hA, hq, rfl, -⟩ := h
    exact .point _ _ fun inv hp => pointFits_pointAdd inv hp (pointFits_preg inv hA) (pointFits_preg inv hA) hq
  | psmul rd rs1 rs2 =>
    obtain ⟨A, q, hA, -, hq, rfl, -⟩ := h
    exact .point _ _ fun inv hp => pointFits_scalarMul inv hp (pointFits_preg inv hA) _ hq
  | pgen rd => obtain ⟨rfl, -⟩ := h; exact .point _ _ fun _ _ => pointFits_generator s
  | pgetx rd rs1 =>
    obtain ⟨c, x, y, hq, rfl, -⟩ := h
    exact .value _ _ fun inv _ => (coordinates_fit inv hq).1
  | pgety rd rs1 =>
    obtain ⟨c, x, y, hq, rfl, -⟩ := h
    exact .value _ _ fun inv _ => (coordinates_fit inv hq).2
  | pisinf rs1 => obtain ⟨_, -, rfl, -⟩ := h; exact .none
  | minv rd rs1 rs2 => obtain ⟨-, -, x, -, rfl, -⟩ := h; exact .value _ _ fun _ _ => valueFits_intReg s x
  | pubkey rd rs1 =>
    obtain ⟨-, -, q, hq, rfl, -⟩ := h
    exact .point _ _ fun inv hp => pointFits_scalarMul inv hp (pointFits_generator s) _ hq
  | verify rd rs1 rs2 rs3 => obtain ⟨_, -, -, -, -, -, -, rfl⟩ := h; exact .none

end Sys2Proof.Machine
end

section
/-! The invariants of the registers and slots (10_state.md R35): every write keeps them, so every step does. -/

namespace Sys2Proof.Machine

open Sys2Proof.Safety

/-! ### SETMOD's and SETCRV's writes keep the invariants (40_control.md R84 to R86) -/

/-- A field slot after it is loaded. -/
theorem State.fieldSlot_loadField (s : State) {f : FIdx} (hf : 2 ≤ f.val) (x : FieldSlot) (g : FIdx) :
    ((s.invalidateField f).setField f x).fieldSlot g = if f = g then x else s.fieldSlot g := by
  simp [State.fieldSlot_setField, hf]

/-- A curve that is valid after slot `f` is loaded was valid before, is not over `f`, and keeps its key. -/
theorem State.curve_of_valid_loadField {s : State} {f : FIdx} (hf : 2 ≤ f.val) (x : FieldSlot) {c : CIdx}
    (h : (((s.invalidateField f).setField f x).curveSlot c).valid = true) :
    (s.curveSlot c).f ≠ f ∧ ((s.invalidateField f).setField f x).curveSlot c = s.curveSlot c
      ∧ ((s.invalidateField f).setField f x).curveKey c = s.curveKey c := by
  rw [State.curveSlot_setField, State.curveSlot_invalidateField] at h
  have hn : ¬ (c ≠ 0 ∧ (s.curveSlot c).valid = true ∧ (s.curveSlot c).f = f) := fun hc => by
    rw [if_pos hc] at h; cases h
  rw [if_neg hn] at h
  have hne : (s.curveSlot c).f ≠ f := by
    intro e
    by_cases hc : c = 0
    · subst hc
      rw [← e] at hf
      exact absurd hf (by simp)
    · exact hn ⟨hc, h, e⟩
  have hs : ((s.invalidateField f).setField f x).curveSlot c = s.curveSlot c := by
    rw [State.curveSlot_setField, State.curveSlot_invalidateField, if_neg hn]
  refine ⟨hne, hs, ?_⟩
  simp only [State.curveKey, State.modOf, hs, State.fieldSlot_loadField s hf, if_neg hne.symm]

/-- A point that is left after slot `f` is loaded was there before, and its curve slot is unchanged. -/
theorem State.preg_loadField {s : State} {f : FIdx} (x : FieldSlot) {i : PIdx} {q : Point}
    (h : ((s.invalidateField f).setField f x).preg i = .pt q) :
    s.preg i = .pt q ∧ ((s.invalidateField f).setField f x).curveSlot q.curve = s.curveSlot q.curve := by
  rw [State.preg_setField, State.preg_invalidateField] at h
  cases hq : s.preg i with
  | unwritten => simp [hq] at h
  | pt r =>
    simp only [hq] at h
    split at h
    · cases h
    · next hn =>
      cases h
      exact ⟨rfl, by rw [State.curveSlot_setField, State.curveSlot_invalidateField, if_neg hn]⟩

/-- A field element that is left after slot `f` is loaded is of another slot. -/
theorem State.vreg_loadField {s : State} {f g : FIdx} (x : FieldSlot) {i : VIdx}
    (h : (((s.invalidateField f).setField f x).vreg i).tag = .fe g) :
    g ≠ f ∧ ((s.invalidateField f).setField f x).vreg i = s.vreg i := by
  rw [State.vreg_setField, State.vreg_invalidateField, VReg.dropField] at *
  split at h
  · cases h
  · next hn => exact ⟨fun e => hn (e ▸ h), if_neg hn⟩

theorem registersInv_loadField {s : State} (inv : RegistersInv s) {f : FIdx} (hf : 2 ≤ f.val) {m : U256}
    (hm : m.toNat.Prime) : RegistersInv ((s.invalidateField f).setField f ⟨true, m⟩) := by
  have key : ∀ i q, ((s.invalidateField f).setField f ⟨true, m⟩).preg i = .pt q → s.preg i = .pt q
      ∧ (((s.invalidateField f).setField f ⟨true, m⟩).curveSlot q.curve).valid = true := fun i q h => by
    obtain ⟨hq, hc⟩ := State.preg_loadField _ h
    exact ⟨hq, hc ▸ inv.point i q hq⟩
  constructor
  case modulus =>
    intro g
    rw [State.modOf, State.fieldSlot_loadField s hf]
    split
    · exact fun _ => hm.two_le
    · exact inv.modulus g
  case element =>
    intro i g h
    obtain ⟨hne, hv⟩ := State.vreg_loadField _ h
    rw [hv] at h ⊢
    rw [State.modOf, State.fieldSlot_loadField s hf, if_neg hne.symm]
    exact inv.element i g h
  case point => exact fun i q h => (key i q h).2
  case coords =>
    intro i c x y h
    obtain ⟨hq, hc⟩ := key i _ h
    obtain ⟨-, -, hk⟩ := State.curve_of_valid_loadField hf _ (c := c) hc
    rw [hk]
    exact inv.coords i c x y hq
  case curve =>
    intro c h
    obtain ⟨hne, hs, hk⟩ := State.curve_of_valid_loadField hf _ h
    rw [hk, hs, State.fieldSlot_loadField s hf, if_neg hne.symm]
    rw [hs] at h
    exact inv.curve c h

theorem fieldsPrime_loadField {s : State} (hp : FieldsPrime s) {f : FIdx} (hf : 2 ≤ f.val) {m : U256}
    (hm : m.toNat.Prime) : FieldsPrime ((s.invalidateField f).setField f ⟨true, m⟩) := by
  intro g
  rw [State.modOf, State.fieldSlot_loadField s hf]
  split
  · exact fun _ => hm
  · exact hp g

theorem pointsOnCurve_loadField {s : State} (inv : RegistersInv s) (ho : PointsOnCurve s) {f : FIdx} (hf : 2 ≤ f.val)
    (x : FieldSlot) : PointsOnCurve ((s.invalidateField f).setField f x) := by
  intro i c a b h
  obtain ⟨hq, hc⟩ := State.preg_loadField _ h
  obtain ⟨-, -, hk⟩ := State.curve_of_valid_loadField hf x (c := c) (hc ▸ inv.point i _ hq)
  rw [SatisfiesCurve, hk]
  exact ho i c a b hq

/-- A curve slot after another is loaded. -/
theorem State.curveSlot_loadCurve (s : State) {c : CIdx} (hc : c ≠ 0) (x : CurveSlot) (d : CIdx) :
    ((s.invalidateCurve c).setCurve c x).curveSlot d = if c = d then x else s.curveSlot d := by
  simp [State.curveSlot_setCurve, hc]

/-- A point that is left after slot `c` is loaded was there before and is of another curve, which is unchanged. -/
theorem State.preg_loadCurve {s : State} {c : CIdx} (hc : c ≠ 0) (x : CurveSlot) {i : PIdx} {q : Point}
    (h : ((s.invalidateCurve c).setCurve c x).preg i = .pt q) :
    s.preg i = .pt q ∧ ((s.invalidateCurve c).setCurve c x).curveSlot q.curve = s.curveSlot q.curve := by
  rw [State.preg_setCurve, State.preg_invalidateCurve] at h
  cases hq : s.preg i with
  | unwritten => rw [hq] at h; cases h
  | pt r =>
    simp only [hq, PointReg.dropCurve] at h
    split at h
    · cases h
    · next hn =>
      cases h
      exact ⟨rfl, by rw [State.curveSlot_loadCurve s hc, if_neg (Ne.symm hn)]⟩

theorem State.curveKey_loadCurve {s : State} {c d : CIdx} (x : CurveSlot)
    (h : ((s.invalidateCurve c).setCurve c x).curveSlot d = s.curveSlot d) :
    ((s.invalidateCurve c).setCurve c x).curveKey d = s.curveKey d := by
  simp [State.curveKey, h]

/-- The coordinates that are left after slot `c` is loaded were there before, on a curve with the same key. -/
theorem State.preg_aff_loadCurve {s : State} {c d : CIdx} (hc : c ≠ 0) (x : CurveSlot) {i : PIdx} {a b : U256}
    (h : ((s.invalidateCurve c).setCurve c x).preg i = .pt (.aff d a b)) :
    s.preg i = .pt (.aff d a b) ∧ ((s.invalidateCurve c).setCurve c x).curveKey d = s.curveKey d := by
  obtain ⟨hq, he⟩ := State.preg_loadCurve hc x h
  exact ⟨hq, State.curveKey_loadCurve x he⟩

theorem registersInv_loadCurve {s : State} (inv : RegistersInv s) {c : CIdx} (hc : c ≠ 0) {x : CurveSlot}
    (hx : CurveFits s x) : RegistersInv ((s.invalidateCurve c).setCurve c x) := by
  constructor
  case modulus => intro f; simpa using inv.modulus f
  case element => intro i f; simpa using inv.element i f
  case point =>
    intro i q h
    obtain ⟨hq, he⟩ := State.preg_loadCurve hc x h
    rw [he]
    exact inv.point i q hq
  case coords =>
    intro i d a b h
    obtain ⟨hq, hk⟩ := State.preg_aff_loadCurve hc x h
    rw [hk]
    exact inv.coords i d a b hq
  case curve =>
    intro d
    by_cases hd : c = d
    · have he : ((s.invalidateCurve c).setCurve c x).curveSlot d = x := by rw [State.curveSlot_loadCurve s hc, if_pos hd]
      rw [he, State.curveKey, he, State.modOf_setCurve, State.modOf_invalidateCurve, State.fieldSlot_setCurve,
        State.fieldSlot_invalidateCurve]
      exact fun _ => hx
    · have he : ((s.invalidateCurve c).setCurve c x).curveSlot d = s.curveSlot d := by
        rw [State.curveSlot_loadCurve s hc, if_neg hd]
      rw [State.curveKey_loadCurve x he, he, State.fieldSlot_setCurve, State.fieldSlot_invalidateCurve]
      exact inv.curve d

theorem pointsOnCurve_loadCurve {s : State} (ho : PointsOnCurve s) {c : CIdx} (hc : c ≠ 0) (x : CurveSlot) :
    PointsOnCurve ((s.invalidateCurve c).setCurve c x) := by
  intro i d a b h
  obtain ⟨hq, hk⟩ := State.preg_aff_loadCurve hc x h
  rw [SatisfiesCurve, hk]
  exact ho i d a b hq

/-! ### Every update keeps the invariants (10_state.md R35) -/

theorem Update.registersInv {s t : State} (h : Update s t) (inv : RegistersInv s) (hp : FieldsPrime s) : RegistersInv t := by
  cases h with
  | none => exact inv
  | value i x fits => exact registersInv_setV inv i x (fits inv hp)
  | point i q fits => exact registersInv_setP inv i q ⟨(fits inv hp).valid, (fits inv hp).below⟩
  | field f m hf hm => exact registersInv_loadField inv hf hm
  | curve c x hc fits => exact registersInv_loadCurve inv hc (fits inv)

theorem Update.fieldsPrime {s t : State} (h : Update s t) (hp : FieldsPrime s) : FieldsPrime t := by
  cases h with
  | none => exact hp
  | value => exact hp
  | point => exact hp
  | field f m hf hm => exact fieldsPrime_loadField hp hf hm
  | curve c x hc => intro f; simpa using hp f

theorem Update.pointsOnCurve {s t : State} (h : Update s t) (inv : RegistersInv s) (hp : FieldsPrime s)
    (ho : PointsOnCurve s) : PointsOnCurve t := by
  cases h with
  | none => exact ho
  | value => exact ho
  | point i q fits => exact pointsOnCurve_setP ho i q ((fits inv hp).onCurve ho)
  | field f m hf => exact pointsOnCurve_loadField inv ho hf _
  | curve c x hc => exact pointsOnCurve_loadCurve ho hc x

/-! ### What a step does to the registers and slots -/

/-- One register or slot written, or only fields changed that are neither. -/
def RegisterMove (s t : State) : Prop := Update s t ∨ SameRegs s t

/-- From one state to another by writes of registers and slots that keep the invariants. -/
abbrev RegisterMoves : State → State → Prop := Relation.ReflTransGen RegisterMove

theorem RegisterMoves.ofUpdate {s t : State} (h : Update s t) : RegisterMoves s t := .single (.inl h)

theorem RegisterMoves.ofSame {s t : State} (h : SameRegs s t := by exact ⟨rfl, rfl, rfl, rfl, rfl, rfl, rfl⟩) :
    RegisterMoves s t :=
  .single (.inr h)

theorem RegisterMoves.setRng (s : State) (g : Rng) : RegisterMoves s { s with rng := g } := .ofSame

theorem RegisterMoves.setInt (s : State) (i : VIdx) (n : Nat) : RegisterMoves s (s.setV i (intReg n)) :=
  .ofUpdate (.value i _ fun _ _ => valueFits_intReg s n)

theorem RegisterMoves.completeOk (s : State) (b : Bool) : RegisterMoves s (s.completeOk b) := .ofSame

theorem RegisterMoves.completeErr (s : State) (e : Err) : RegisterMoves s (s.completeErr e) := .ofSame

theorem RegisterMoves.afterNonces (s : State) (r : SignResult) : RegisterMoves s (s.afterNonces r) := .ofSame

theorem effect_registerMoves {i : Instr} {s st : State} {b : Bool} (h : Effect i s st b) : RegisterMoves s st := by
  cases i with
  | keygen rd =>
    obtain ⟨rfl, -⟩ := h
    exact (RegisterMoves.setRng s _).trans (RegisterMoves.setInt _ _ _)
  | sign rd rs1 rs2 rs3 =>
    obtain ⟨-, -, -, -, r, g, n, p, -, -, rfl, -⟩ := h
    exact ((RegisterMoves.afterNonces s r).trans (RegisterMoves.setInt _ _ _)).trans (RegisterMoves.setInt _ _ _)
  | _ => exact .ofUpdate (effect_update (by simp) (by simp) h)

theorem coreStep_registerMoves {s t : State} (h : coreStep s = .next t) : RegisterMoves s t := by
  rcases coreStep_cases s with ⟨e, h1⟩ | ⟨r, e, h1⟩ | ⟨i, st, b, -, h1, he⟩ <;> rw [h1] at h <;> cases h
  · exact .completeErr s e
  · exact (RegisterMoves.afterNonces s r).trans (RegisterMoves.completeErr _ e)
  · exact (effect_registerMoves he).trans (RegisterMoves.completeOk st b)

theorem writeCtrl_of_not_srst {s : State} {d : Word32} (h : d.getLsbD 1 = false) :
    s.writeCtrl d = { s with ie := d.getLsbD 0 } := by
  simp only [State.writeCtrl, h, Bool.false_eq_true, if_false]

theorem writeCtrl_of_srst {s : State} {d : Word32} (h : d.getLsbD 1 = true) :
    s.writeCtrl d = ({ s with ie := d.getLsbD 0 } : State).resetBlock := by
  simp only [State.writeCtrl, h, if_true]

/-- What a defined host write can do (20_memory.md R47 to R50). -/
theorem writeReg_cases (s : State) (off : Offset) (d : Word32) (r : WinReg) :
    s.writeReg off d r = s ∨ s.writeReg off d r = s.writeStatus d ∨ s.writeReg off d r = s.overrun off d
      ∨ s.writeReg off d r = s.acceptCmd d ∨ (∃ i j, s.writeReg off d r = s.writeVWord i j d)
      ∨ s.writeReg off d r = { s with ie := d.getLsbD 0 }
      ∨ s.writeReg off d r = ({ s with ie := d.getLsbD 0 } : State).resetBlock := by
  cases r with
  | ctrl =>
    cases h : d.getLsbD 1
    · exact .inr (.inr (.inr (.inr (.inr (.inl (writeCtrl_of_not_srst h))))))
    · exact .inr (.inr (.inr (.inr (.inr (.inr (writeCtrl_of_srst h))))))
  | status => exact .inr (.inl rfl)
  | cmd => cases h : s.pending <;> simp [State.writeReg, h]
  | vword i j =>
    cases h : s.pending
    · exact .inr (.inr (.inr (.inr (.inl ⟨i, j, by simp [State.writeReg, h]⟩))))
    · simp [State.writeReg, h]
  | _ => exact .inl rfl

theorem writeReg_registerMoves (s : State) (off : Offset) (d : Word32) (r : WinReg) :
    RegisterMoves s (s.writeReg off d r) ∨ SameRegs State.reset (s.writeReg off d r) := by
  rcases writeReg_cases s off d r with h | h | h | h | ⟨i, j, h⟩ | h | h <;> rw [h]
  · exact .inl .refl
  · exact .inl .ofSame
  · exact .inl .ofSame
  · exact .inl .ofSame
  · exact .inl (.ofUpdate (.value i _ fun _ _ _ h => by cases h))
  · exact .inl .ofSame
  · exact .inr (sameRegs_resetBlock _)

/-- A step writes registers and slots, or the block is reset. -/
theorem step_registerMoves {s t : State} (h : step s = .next t) : RegisterMoves s t ∨ SameRegs State.reset t := by
  have agenda : ∀ rest, RegisterMoves s { s with agenda := rest } := fun _ => .ofSame
  rcases step_cases h with ⟨rest, rfl⟩ | ⟨rest, -, hc⟩ | ⟨rest, w, n, rfl⟩ | ⟨rest, off, d, -, rfl⟩
    | ⟨rest, rfl⟩ | ⟨rest, rfl⟩
  · exact .inl (agenda rest)
  · exact .inl ((agenda rest).trans (coreStep_registerMoves hc))
  · exact .inl .ofSame
  · exact (writeReg_registerMoves _ off d _).imp_left (agenda rest).trans
  · exact .inl .ofSame
  · exact .inr ⟨rfl, rfl, rfl, rfl, rfl, rfl, rfl⟩

theorem RegisterMoves.registersInv {s t : State} (h : RegisterMoves s t) (inv : RegistersInv s) (hp : FieldsPrime s) :
    RegistersInv t ∧ FieldsPrime t := by
  induction h with
  | refl => exact ⟨inv, hp⟩
  | tail _ hm ih =>
    obtain ⟨inv', hp'⟩ := ih
    rcases hm with hu | hs
    · exact ⟨hu.registersInv inv' hp', hu.fieldsPrime hp'⟩
    · exact ⟨registersInv_congr hs inv', fieldsPrime_congr hs hp'⟩

theorem RegisterMoves.pointsOnCurve {s t : State} (h : RegisterMoves s t) (inv : RegistersInv s) (hp : FieldsPrime s)
    (ho : PointsOnCurve s) : PointsOnCurve t := by
  induction h with
  | refl => exact ho
  | tail hs hm ih =>
    obtain ⟨inv', hp'⟩ := RegisterMoves.registersInv hs inv hp
    rcases hm with hu | hs
    · exact hu.pointsOnCurve inv' hp' ih
    · exact pointsOnCurve_congr hs ih

/-! ### Reset (10_state.md R34, R35) -/

theorem vreg_reset (i : VIdx) : State.reset.vreg i = ⟨0, .unwritten⟩ := by
  simp [State.vreg, State.reset, Vector.get_eq_getElem]

theorem preg_reset (i : PIdx) : State.reset.preg i = .unwritten := by
  simp [State.preg, State.reset, Vector.get_eq_getElem]

theorem curveSlot_reset {c : CIdx} (hc : c ≠ 0) : State.reset.curveSlot c = ⟨false, 0, 0, 0⟩ := by
  fin_cases c
  · exact absurd rfl hc
  · rfl
  · rfl
  · rfl

theorem fieldsPrime_reset : FieldsPrime State.reset := by
  intro f
  fin_cases f
  · exact fun _ => prime_p
  · exact fun _ => prime_order
  · exact fun h => absurd h (by decide)
  · exact fun h => absurd h (by decide)

theorem registersInv_reset : RegistersInv State.reset where
  modulus f h := (fieldsPrime_reset f h).two_le
  element i f h := by simp [vreg_reset] at h
  point i q h := by simp [preg_reset] at h
  coords i c x y h := by simp [preg_reset] at h
  curve c h := by
    by_cases hc : c = 0
    · subst hc
      rw [State.curveKey_zero]
      exact ⟨rfl, by decide⟩
    · simp [curveSlot_reset hc] at h

theorem pointsOnCurve_reset : PointsOnCurve State.reset := fun i c x y h => by simp [preg_reset] at h

theorem statusInv_reset : StatusInv State.reset := ⟨by decide, by decide, by decide, by decide⟩

/-- Settles O58, by the writes that a step is made of, each of which keeps the invariants. -/
theorem stepKeepsRegistersInv : Obligations.StepKeepsRegistersInv := by
  intro s t inv hp h
  rcases step_registerMoves h with hm | hr
  · exact hm.registersInv inv hp
  · exact ⟨registersInv_congr hr registersInv_reset, fieldsPrime_congr hr fieldsPrime_reset⟩

/-- Settles O59, by the writes that a step is made of: a point is copied, is one that PMK checked, is G, or is made by the
group law. -/
theorem stepKeepsPointsOnCurve : Obligations.StepKeepsPointsOnCurve := by
  intro s t inv hp ho h
  rcases step_registerMoves h with hm | hr
  · exact hm.pointsOnCurve inv hp ho
  · exact pointsOnCurve_congr hr pointsOnCurve_reset

/-- Settles O57, from the invariants of the reset state one by one. -/
theorem invariantsHoldAtReset : Obligations.InvariantsHoldAtReset :=
  ⟨registersInv_reset, fieldsPrime_reset, pointsOnCurve_reset, statusInv_reset, fun h => absurd h (by decide), by decide⟩

/-- Settles O54, register by register. -/
theorem resetValues : Obligations.ResetValues :=
  ⟨vreg_reset, preg_reset, rfl, rfl, rfl, rfl, rfl, fun _ => curveSlot_reset,
    rfl, by decide, rfl, rfl, rfl, rfl, rfl, rfl, rfl⟩

end Sys2Proof.Machine
end

section
/-! Draws, ATTEMPTS, RES, the interrupt and the STATUS invariants (10_state.md R21, R25, R28, R33, R35). -/

namespace Sys2Proof.Machine

open Sys2Proof.Safety

/-! ### Draws, ATTEMPTS and RES (10_state.md R21, R25, R33) -/

theorem Update.rng_attempts {s t : State} (h : Update s t) : t.rng = s.rng ∧ t.attempts = s.attempts := by
  cases h <;> simp

/-- After SIGN's nonce loop at least one nonce was drawn, at most NONCE_MAX_ATTEMPTS, and ATTEMPTS holds their number
(43_ecdsa.md R147, R149.6). -/
theorem afterNonces_draws {s : State} (hl : ParamsLegal s) (z d : Nat) {r : SignResult}
    (hr : s.signLoop z d s.params.nonceMaxAttempts 0 s.rng = r) :
    ∃ n, 1 ≤ n ∧ n ≤ s.params.nonceMaxAttempts ∧ (s.afterNonces r).rng = s.rng.skip n
      ∧ (s.afterNonces r).attempts.toNat = n := by
  obtain ⟨-, -, h1, h2⟩ := hl
  have ofResult : ∀ n sig, 1 ≤ n → n ≤ s.params.nonceMaxAttempts → r = ⟨s.rng.skip n, 0 + n, sig⟩ →
      ∃ n, 1 ≤ n ∧ n ≤ s.params.nonceMaxAttempts ∧ (s.afterNonces r).rng = s.rng.skip n
        ∧ (s.afterNonces r).attempts.toNat = n := by
    rintro n sig hn1 hn2 rfl
    refine ⟨n, hn1, hn2, rfl, ?_⟩
    simp only [State.afterNonces_attempts, BitVec.toNat_ofNat, Nat.zero_add]
    exact Nat.mod_eq_of_lt (by omega)
  obtain ⟨n, -, -, ⟨-, he⟩ | ⟨hlt, p, -, he⟩⟩ := signLoop_cases s z d s.params.nonceMaxAttempts 0 s.rng
  · exact ofResult _ _ h1 le_rfl (hr.symm.trans he)
  · exact ofResult (n + 1) _ (by omega) (by omega) (hr.symm.trans he)

/-- SIGN raises before its first nonce, or takes its draws (43_ecdsa.md R147). -/
theorem sign_draws {s t : State} {rd rs1 rs2 rs3 : VIdx} (hl : ParamsLegal s) (h : exec (.sign rd rs1 rs2 rs3) s = .next t) :
    (t.rng = s.rng ∧ t.attempts = s.attempts ∧ t.status.err = true)
      ∨ ∃ n, 1 ≤ n ∧ n ≤ s.params.nonceMaxAttempts ∧ t.rng = s.rng.skip n ∧ t.attempts.toNat = n := by
  rcases exec_cases (.sign rd rs1 rs2 rs3) s with ⟨e, h1⟩ | ⟨_, _, _, _, r, e, -, -, hr, -, h1⟩ | ⟨st, b, h1, he⟩ <;>
    rw [h1] at h <;> cases h
  · exact .inl ⟨rfl, rfl, rfl⟩
  · exact .inr (afterNonces_draws hl _ _ hr)
  · obtain ⟨-, -, -, -, r, g, n, p, hr, -, rfl, -⟩ := he
    exact .inr (afterNonces_draws hl _ _ hr)

theorem rng_attempts_of_no_draw {i : Instr} {s t : State} (hk : ∀ rd, i ≠ .keygen rd)
    (hs : ∀ rd rs1 rs2 rs3, i ≠ .sign rd rs1 rs2 rs3) (h : exec i s = .next t) :
    t.rng = s.rng ∧ t.attempts = s.attempts := by
  rcases exec_cases i s with ⟨e, h1⟩ | ⟨_, _, _, _, _, _, hi, -⟩ | ⟨st, b, h1, he⟩
  · rw [h1] at h; cases h; exact ⟨rfl, rfl⟩
  · exact absurd hi (hs _ _ _ _)
  · rw [h1] at h; cases h; exact (effect_update hk hs he).rng_attempts

/-- Settles O11: KEYGEN's one draw, SIGN's loop, and no draw elsewhere. -/
theorem drawsAndAttempts : Obligations.DrawsAndAttempts := by
  intro i s t hl h
  cases i with
  | keygen rd => cases h; exact ⟨Rng.draw_snd _, rfl⟩
  | sign rd rs1 rs2 rs3 => exact sign_draws hl h
  | _ => exact rng_attempts_of_no_draw (by simp) (by simp) h

/-- Only the four comparisons stage RES = 1. -/
theorem effect_result {i : Instr} {s st : State} (h : Effect i s st true) :
    (∃ a b, i = .feq a b) ∨ (∃ a b, i = .peq a b) ∨ (∃ a, i = .pisinf a) ∨ ∃ q z r u, i = .verify q z r u := by
  cases i with
  | feq a b => exact .inl ⟨a, b, rfl⟩
  | peq a b => exact .inr (.inl ⟨a, b, rfl⟩)
  | pisinf a => exact .inr (.inr (.inl ⟨a, rfl⟩))
  | verify q z r u => exact .inr (.inr (.inr ⟨q, z, r, u, rfl⟩))
  | _ => simp [Effect] at h

/-- Settles O12: a completion with an error clears RES, and a success gives RES as staged. -/
theorem onlyComparisonsSetResult : Obligations.OnlyComparisonsSetResult := by
  intro i s t h hres
  rcases exec_cases i s with ⟨e, h1⟩ | ⟨_, _, _, _, r, e, -, -, -, -, h1⟩ | ⟨st, b, h1, he⟩ <;>
    rw [h1] at h <;> cases h
  · cases hres
  · cases hres
  · obtain rfl : b = true := hres
    exact ⟨rfl, effect_result he⟩

/-! ### The interrupt (10_state.md R28) -/

/-- A defined write outside reset reaches the register its offset names. -/
theorem step_of_writeReg {s t : State} {off : Offset} {d : Word32} {rest : List Event} (hpin : s.rstN = true)
    (ha : s.agenda = .write 32 off d :: rest) (hoff : off.toNat % 4 = 0) (h : step s = .next t) :
    t = ({ s with agenda := rest } : State).writeReg off d (winReg off) := by
  rw [step_of_write ha] at h
  cases h
  simp [State.hostWrite, definedAccess, hoff, hpin]

/-- The core completes the command, and keeps IE, the parameters, the pin and the log of dropped writes
(60_exceptions.md R162). -/
theorem coreStep_frame {s t : State} (h : coreStep s = .next t) :
    ((∃ b, Succeeded t b) ∨ ∃ e, Failed t e) ∧ t.ie = s.ie ∧ t.params = s.params ∧ t.rstN = s.rstN
      ∧ t.ovrLog = s.ovrLog ∧ s.errLog <+: t.errLog := by
  rcases coreStep_cases s with ⟨e, h1⟩ | ⟨r, e, h1⟩ | ⟨i, st, b, -, h1, he⟩ <;> rw [h1] at h <;> cases h
  · exact ⟨.inr ⟨e, failed_completeErr _ _⟩, rfl, rfl, rfl, rfl, List.prefix_append _ _⟩
  · exact ⟨.inr ⟨e, failed_completeErr _ _⟩, rfl, rfl, rfl, rfl, List.prefix_append _ _⟩
  · obtain ⟨-, hie, -, hparams, hpin, -, -, -, hovr, herr⟩ := effect_frame he
    exact ⟨.inl ⟨b, succeeded_completeOk _ _⟩, hie, hparams, hpin, hovr, herr ▸ List.prefix_rfl⟩

theorem coreStep_done {s t : State} (h : coreStep s = .next t) : t.status.done = true := by
  obtain ⟨⟨_, -, hd, -⟩ | ⟨_, -, hd, -⟩, -⟩ := coreStep_frame h <;> exact hd

/-- Settles O56, one move after the other. -/
theorem interruptFollowsDone : Obligations.InterruptFollowsDone := by
  refine ⟨fun s t rest hn h => ?_, fun s t w rest hpin hb ha h => ?_, fun s t d rest hpin ha hd h => ?_,
    fun s t d rest hpin ha hd h => ?_⟩
  · rw [step_of_coreNext hn] at h
    obtain ⟨-, hie, -⟩ := coreStep_frame h
    rw [State.irq, coreStep_done h, Bool.true_and, hie]
  · have ht : t = ({ s with agenda := rest } : State).acceptCmd w := by
      rw [step_of_writeReg hpin ha rfl h]
      exact if_neg (by simp [State.pending, hb])
    subst ht
    rfl
  · obtain rfl : t = ({ s with agenda := rest } : State).writeStatus d := step_of_writeReg hpin ha rfl h
    simp only [State.irq, State.writeStatus_status, hd, Bool.not_true, Bool.and_false, Bool.false_and]
  · have ht : t = { s with agenda := rest, ie := d.getLsbD 0 } :=
      (step_of_writeReg hpin ha rfl h).trans (writeCtrl_of_not_srst hd)
    subst ht
    exact ⟨rfl, rfl⟩

/-! ### The STATUS invariants (10_state.md R35) -/

theorem statusInv_of_succeeded {t : State} {b : Bool} (h : Succeeded t b) : StatusInv t := by
  obtain ⟨hb, -, he, hc, -⟩ := h
  exact ⟨fun _ => hc, by rw [hc]; decide, fun h => by simp [he] at h, fun h => by simp [hb] at h⟩

theorem Err.code_le (e : Err) : e.code.toNat ≤ 0xC := by cases e <;> decide

theorem statusInv_of_failed {t : State} {e : Err} (h : Failed t e) : StatusInv t := by
  obtain ⟨hb, -, he, hc, hr⟩ := h
  exact ⟨fun h => by simp [he] at h, hc ▸ e.code_le, fun _ => hr, fun h => by simp [hb] at h⟩

theorem statusInv_congr {s t : State} (hi : StatusInv s) (h : t.status = s.status) : StatusInv t := by
  obtain ⟨h1, h2, h3, h4⟩ := hi
  exact ⟨h ▸ h1, h ▸ h2, h ▸ h3, h ▸ h4⟩

theorem statusInv_acceptCmd (s : State) (w : Word32) : StatusInv (s.acceptCmd w) :=
  ⟨fun _ => rfl, by simp, fun h => by simp at h, fun _ => ⟨rfl, rfl, rfl⟩⟩

theorem statusInv_overrun {s : State} (hi : StatusInv s) (off : Offset) (d : Word32) : StatusInv (s.overrun off d) :=
  ⟨hi.noErrorNoCode, hi.codeKnown, hi.errorNoResult, hi.busyCleared⟩

theorem statusInv_writeStatus {s : State} (hi : StatusInv s) (d : Word32) : StatusInv (s.writeStatus d) := by
  refine ⟨hi.noErrorNoCode, hi.codeKnown, hi.errorNoResult, fun h => ?_⟩
  obtain ⟨hd, he, hr⟩ := hi.busyCleared h
  exact ⟨by simp [hd], he, hr⟩

/-- A host write keeps the STATUS invariants, the pin, the parameters and the ghost logs. -/
theorem writeReg_keeps {s : State} (hi : StatusInv s) (off : Offset) (d : Word32) (r : WinReg) :
    StatusInv (s.writeReg off d r) ∧ (s.writeReg off d r).rstN = s.rstN ∧ (s.writeReg off d r).params = s.params
      ∧ s.errLog <+: (s.writeReg off d r).errLog ∧ s.ovrLog <+: (s.writeReg off d r).ovrLog := by
  rcases writeReg_cases s off d r with h | h | h | h | ⟨i, j, h⟩ | h | h <;> rw [h]
  · exact ⟨hi, rfl, rfl, List.prefix_rfl, List.prefix_rfl⟩
  · exact ⟨statusInv_writeStatus hi d, rfl, rfl, List.prefix_rfl, List.prefix_rfl⟩
  · exact ⟨statusInv_overrun hi off d, rfl, rfl, List.prefix_rfl, List.prefix_append _ _⟩
  · exact ⟨statusInv_acceptCmd s d, rfl, rfl, List.prefix_rfl, List.prefix_rfl⟩
  · exact ⟨statusInv_congr hi rfl, rfl, rfl, List.prefix_rfl, List.prefix_rfl⟩
  · exact ⟨statusInv_congr hi rfl, rfl, rfl, List.prefix_rfl, List.prefix_rfl⟩
  · exact ⟨statusInv_congr statusInv_reset rfl, rfl, rfl, List.prefix_rfl, List.prefix_rfl⟩

theorem pinInv_of_high {t : State} (h : t.rstN = true) : PinInv t := fun hl => by simp [h] at hl

/-- While the pin is low no command is pending, so the core takes no step. -/
theorem rstN_of_coreNext {s : State} {rest : List Event} (hp : PinInv s) (hn : CoreNext s rest) : s.rstN = true := by
  by_contra hlow
  obtain ⟨-, -, -, -, -, -, -, -, hs, -⟩ := hp (by simpa using hlow)
  have hb := hn.1
  rw [hs] at hb
  cases hb

/-- Settles O60, by the kinds of step. -/
theorem stepKeepsStatusInv : Obligations.StepKeepsStatusInv := by
  intro s t hi hp h
  rcases step_cases h with ⟨rest, rfl⟩ | ⟨rest, hn, hc⟩ | ⟨rest, w, n, rfl⟩ | ⟨rest, off, d, hpin, rfl⟩
    | ⟨rest, rfl⟩ | ⟨rest, rfl⟩
  · exact ⟨statusInv_congr hi rfl, hp, rfl, List.prefix_rfl, List.prefix_rfl⟩
  · obtain ⟨hs, -, hparams, hpin, hovr, herr⟩ := coreStep_frame hc
    refine ⟨?_, pinInv_of_high (hpin.trans (rstN_of_coreNext (s := s) hp hn)), hparams, herr, hovr ▸ List.prefix_rfl⟩
    rcases hs with ⟨b, hs⟩ | ⟨e, hs⟩
    · exact statusInv_of_succeeded hs
    · exact statusInv_of_failed hs
  · exact ⟨statusInv_congr hi rfl, hp, rfl, List.prefix_rfl, List.prefix_rfl⟩
  · obtain ⟨hs, hr, hparams, herr, hovr⟩ :=
      writeReg_keeps (s := { s with agenda := rest }) (statusInv_congr hi rfl) off d (winReg off)
    exact ⟨hs, pinInv_of_high (hr.trans hpin), hparams, herr, hovr⟩
  · exact ⟨statusInv_congr hi rfl, pinInv_of_high rfl, rfl, List.prefix_rfl, List.prefix_rfl⟩
  · exact ⟨statusInv_congr statusInv_reset rfl, fun _ => atReset_resetBlock { s with agenda := rest }, rfl, List.prefix_rfl,
      List.prefix_rfl⟩

end Sys2Proof.Machine
end

section
/-! Host reads of the register window (10_state.md R19 to R27, 20_memory.md R41 to R45). -/

namespace Sys2Proof.Machine

open Sys2Proof.Safety

/-! ### Reading the window (10_state.md R19 to R27, 20_memory.md R41, R44) -/

/-- A defined read that is no draw returns the register's word and changes nothing else (20_memory.md R45). -/
theorem step_of_exact_read {s : State} {off : Offset} {rest : List Event} (ha : s.agenda = .read 32 off :: rest)
    (hoff : off.toNat % 4 = 0) (hz : (s.status.busy && (winReg off).hazard) = false) :
    step s = .next { s with agenda := rest, reads := s.reads ++ [s.readWord (winReg off)] } := by
  have hw : ({ s with agenda := rest } : State).readWord (winReg off) = s.readWord (winReg off) := by
    cases winReg off <;> rfl
  have hd : definedAccess 32 off = true := by simp [definedAccess, hoff]
  rw [step_of_read ha, State.hostRead, if_neg (by simp [hd]), if_neg (by simp [State.pending, hz]), hw]
  rfl

/-! ### Bits and fields of a word given as a number -/

theorem bit_le_one (b : Bool) : bit b ≤ 1 := by cases b <;> decide

theorem getLsbD_ofNat_of_bit {n k : Nat} {b : Bool} (hk : k < 32) (h : n / 2 ^ k % 2 = bit b) :
    (BitVec.ofNat 32 n).getLsbD k = b := by
  rw [BitVec.getLsbD_ofNat, Nat.testBit_eq_decide_div_mod_eq, h]
  cases b <;> simp [bit, hk]

theorem extractLsb'_ofNat_toNat (n : Nat) {lo len : Nat} (h : lo + len ≤ 32) :
    ((BitVec.ofNat 32 n).extractLsb' lo len).toNat = n / 2 ^ lo % 2 ^ len := by
  rw [BitVec.extractLsb'_toNat, BitVec.toNat_ofNat, Nat.shiftRight_eq_div_pow,
    show (2 : Nat) ^ 32 = 2 ^ lo * 2 ^ (32 - lo) by rw [← pow_add]; congr 1; omega, Nat.mod_mul_right_div_self]
  exact Nat.mod_mod_of_dvd _ (pow_dvd_pow 2 (by omega))

/-- A field of a word by its number. -/
theorem extractLsb'_ofNat_eq {n lo len : Nat} {x : BitVec len} (h : lo + len ≤ 32) (hx : n / 2 ^ lo % 2 ^ len = x.toNat) :
    (BitVec.ofNat 32 n).extractLsb' lo len = x :=
  BitVec.eq_of_toNat_eq ((extractLsb'_ofNat_toNat n h).trans hx)

theorem extractLsb'_ofNat_eq_zero {n lo len : Nat} (h : lo + len ≤ 32) (hx : n / 2 ^ lo % 2 ^ len = 0) :
    (BitVec.ofNat 32 n).extractLsb' lo len = 0 :=
  extractLsb'_ofNat_eq h (hx.trans (by simp))

/-! ### The control registers -/

theorem ctrlWord_getLsbD (s : State) (k : Nat) : s.ctrlWord.getLsbD k = (decide (k = 0) && s.ie) := by
  cases h : s.ie
  · simp [State.ctrlWord, bit, h]
  · simp [State.ctrlWord, bit, h, BitVec.getLsbD_one]

theorem statusWord_fields (t : Status) :
    t.word.extractLsb' 8 4 = t.errcode ∧ t.word.extractLsb' 12 20 = 0 ∧ t.word.extractLsb' 5 3 = 0
      ∧ t.word.getLsbD 0 = t.busy ∧ t.word.getLsbD 1 = t.done ∧ t.word.getLsbD 2 = t.err
      ∧ t.word.getLsbD 3 = t.res ∧ t.word.getLsbD 4 = t.ovr := by
  have h0 := bit_le_one t.busy
  have h1 := bit_le_one t.done
  have h2 := bit_le_one t.err
  have h3 := bit_le_one t.res
  have h4 := bit_le_one t.ovr
  have h5 := t.errcode.isLt
  unfold Status.word
  refine ⟨extractLsb'_ofNat_eq (by decide) ?_, extractLsb'_ofNat_eq_zero (by decide) ?_,
    extractLsb'_ofNat_eq_zero (by decide) ?_, getLsbD_ofNat_of_bit (by decide) ?_,
    getLsbD_ofNat_of_bit (by decide) ?_, getLsbD_ofNat_of_bit (by decide) ?_,
    getLsbD_ofNat_of_bit (by decide) ?_, getLsbD_ofNat_of_bit (by decide) ?_⟩ <;> omega

/-- PARAMS shows both parameters where they fit its fields (assumption 10). -/
theorem paramsWord_fields {s : State} (hn : s.params.nonceMaxAttempts < 2 ^ 16) (hp : s.params.primeCheckBits < 2 ^ 8) :
    (s.paramsWord.extractLsb' 0 16).toNat = s.params.nonceMaxAttempts
      ∧ (s.paramsWord.extractLsb' 16 8).toNat = s.params.primeCheckBits ∧ s.paramsWord.extractLsb' 24 8 = 0 := by
  unfold State.paramsWord
  refine ⟨?_, ?_, extractLsb'_ofNat_eq_zero (by decide) ?_⟩
  · rw [extractLsb'_ofNat_toNat _ (by decide)]; omega
  · rw [extractLsb'_ofNat_toNat _ (by decide)]; omega
  · omega

/-- Settles O51: the five registers are never a draw, and their words are read field by field. -/
theorem controlRegisterReads : Obligations.ControlRegisterReads := by
  intro s off rest ha hoff
  obtain ⟨h4, hz⟩ : off.toNat % 4 = 0 ∧ (winReg off).hazard = false := by
    simp only [List.mem_cons, List.not_mem_nil, or_false] at hoff
    rcases hoff with rfl | rfl | rfl | rfl | rfl <;> exact ⟨rfl, rfl⟩
  refine ⟨s.readWord (winReg off), step_of_exact_read ha h4 (by rw [hz, Bool.and_false]), ?_, ?_, ?_, ?_, ?_⟩
  · rintro rfl; rfl
  · rintro rfl; exact ctrlWord_getLsbD s
  · rintro rfl; exact statusWord_fields s.status
  · rintro rfl; rfl
  · rintro rfl ⟨-, -, -, hn⟩ hp; exact paramsWord_fields (Nat.lt_succ_of_le hn) hp

/-! ### The tag views -/

theorem Tag.code_lt (t : Tag) : t.code < 16 := by
  cases t with
  | unwritten => decide
  | int => decide
  | fe f => simp only [Tag.code]; omega

theorem PointReg.code_lt (q : PointReg) : q.code < 16 := by
  rcases q with _ | ⟨c⟩ | ⟨c, x, y⟩ <;> simp only [PointReg.code] <;> omega

/-- Nibble `k` of a word of at most eight nibbles. -/
theorem packNibbles_nibble_word {l : List Nat} (hl : ∀ x ∈ l, x < 16) (k : Fin 8) :
    ((BitVec.ofNat 32 (packNibbles l)).extractLsb' (4 * k.val) 4).toNat = l.getD k.val 0 := by
  rw [extractLsb'_ofNat_toNat _ (by omega), pow_mul]
  exact packNibbles_nibble l hl k.val

/-- The two halves of nibble `k` (10_state.md R24). -/
theorem packNibbles_halves {l : List Nat} (hl : ∀ x ∈ l, x < 16) (k : Fin 8) :
    ((BitVec.ofNat 32 (packNibbles l)).extractLsb' (4 * k.val) 2).toNat = l.getD k.val 0 % 4
      ∧ ((BitVec.ofNat 32 (packNibbles l)).extractLsb' (4 * k.val + 2) 2).toNat = l.getD k.val 0 / 4 := by
  have h := packNibbles_nibble l hl k.val
  have e : (2 : Nat) ^ (4 * k.val) = 16 ^ k.val := pow_mul 2 4 k.val
  rw [extractLsb'_ofNat_toNat _ (by omega), extractLsb'_ofNat_toNat _ (by omega), pow_add, e, ← Nat.div_div_eq_div_mul]
  omega

/-- A nibble shows a tag (10_state.md R11). -/
def ShowsTag (t : Tag) (x : BitVec 4) : Prop :=
  match t with
  | .unwritten => x = 0
  | .int => x = 1
  | .fe f => x.toNat = 4 + f.val

theorem showsTag_of_code {t : Tag} {x : BitVec 4} (h : x.toNat = t.code) : ShowsTag t x := by
  cases t with
  | unwritten => exact BitVec.eq_of_toNat_eq h
  | int => exact BitVec.eq_of_toNat_eq h
  | fe f => exact h

theorem tagCodes_lt {l : List VReg} : ∀ x ∈ l.map (fun r => r.tag.code), x < 16 := by
  intro x hx
  obtain ⟨r, -, rfl⟩ := List.mem_map.mp hx
  exact r.tag.code_lt

/-- VTAG_LO shows the tags of V0 to V7 (10_state.md R23). -/
theorem vtagLo_nibble (s : State) (k : Fin 8) :
    ShowsTag (s.vreg (Fin.ofNat 16 k.val)).tag (s.vtagLo.extractLsb' (4 * k.val) 4) := by
  apply showsTag_of_code
  have hk : k.val % 16 = k.val := Nat.mod_eq_of_lt (by omega)
  rw [State.vtagLo, packNibbles_nibble_word tagCodes_lt]
  simp [State.vreg, Vector.get_eq_getElem, List.getD_eq_getElem?_getD, hk]

/-- VTAG_HI shows the tags of V8 to V15 (10_state.md R23). -/
theorem vtagHi_nibble (s : State) (k : Fin 8) :
    ShowsTag (s.vreg (Fin.ofNat 16 (k.val + 8))).tag (s.vtagHi.extractLsb' (4 * k.val) 4) := by
  apply showsTag_of_code
  have hk : (k.val + 8) % 16 = 8 + k.val := by omega
  rw [State.vtagHi, packNibbles_nibble_word tagCodes_lt]
  simp [State.vreg, Vector.get_eq_getElem, List.getD_eq_getElem?_getD, hk]

theorem pointCodes_lt {l : List PointReg} : ∀ x ∈ l.map PointReg.code, x < 16 := by
  intro x hx
  obtain ⟨q, -, rfl⟩ := List.mem_map.mp hx
  exact q.code_lt

theorem pointCodes_getD (s : State) (k : PIdx) : (s.p.toList.map PointReg.code).getD k.val 0 = (s.preg k).code := by
  simp [State.preg, Vector.get_eq_getElem, List.getD_eq_getElem?_getD]

/-- Nibble `k` of a word shows the kind and the slot of a point register (10_state.md R24). -/
def ShowsPoint (q : PointReg) (w : Word32) (k : PIdx) : Prop :=
  match q with
  | .unwritten => w.extractLsb' (4 * k.val) 4 = 0
  | .pt (.inf c) => w.extractLsb' (4 * k.val) 2 = 1 ∧ (w.extractLsb' (4 * k.val + 2) 2).toNat = c.val
  | .pt (.aff c _ _) => w.extractLsb' (4 * k.val) 2 = 2 ∧ (w.extractLsb' (4 * k.val + 2) 2).toNat = c.val

theorem showsPoint_of_code {q : PointReg} {w : Word32} {k : PIdx} (hn : (w.extractLsb' (4 * k.val) 4).toNat = q.code)
    (hkind : (w.extractLsb' (4 * k.val) 2).toNat = q.code % 4)
    (hslot : (w.extractLsb' (4 * k.val + 2) 2).toNat = q.code / 4) :
    ShowsPoint q w k := by
  cases q with
  | unwritten => exact BitVec.eq_of_toNat_eq hn
  | pt q =>
    cases q <;>
      exact ⟨BitVec.eq_of_toNat_eq (hkind.trans (Nat.add_mul_mod_self_left _ 4 _)),
        hslot.trans (by simp only [PointReg.code]; omega)⟩

/-- PTAG shows every point register (10_state.md R24). -/
theorem ptag_nibble (s : State) (k : PIdx) : ShowsPoint (s.preg k) s.ptag k := by
  obtain ⟨hkind, hslot⟩ := packNibbles_halves (pointCodes_lt (l := s.p.toList)) k
  have hn := packNibbles_nibble_word (pointCodes_lt (l := s.p.toList)) k
  rw [pointCodes_getD] at hn hkind hslot
  exact showsPoint_of_code hn hkind hslot

/-! ### ATTEMPTS and SLOTS -/

theorem attemptsWord_fields (s : State) :
    s.attemptsWord.extractLsb' 0 16 = s.attempts ∧ s.attemptsWord.extractLsb' 16 16 = 0 := by
  have h := s.attempts.isLt
  unfold State.attemptsWord
  refine ⟨extractLsb'_ofNat_eq (by decide) ?_, extractLsb'_ofNat_eq_zero (by decide) ?_⟩ <;> omega

theorem slots_bits (s : State) :
    s.slots.extractLsb' 8 24 = 0 ∧ (∀ f : FIdx, s.slots.getLsbD f.val = (s.fieldSlot f).valid)
    ∧ ∀ c : CIdx, s.slots.getLsbD (4 + c.val) = (s.curveSlot c).valid := by
  have hf := fun f => bit_le_one (s.fieldSlot f).valid
  have hc := fun c => bit_le_one (s.curveSlot c).valid
  have f0 := hf 0; have f1 := hf 1; have f2 := hf 2; have f3 := hf 3
  have c0 := hc 0; have c1 := hc 1; have c2 := hc 2; have c3 := hc 3
  unfold State.slots
  refine ⟨extractLsb'_ofNat_eq_zero (by decide) ?_, fun f => getLsbD_ofNat_of_bit (by omega) ?_,
    fun c => getLsbD_ofNat_of_bit (by omega) ?_⟩
  · omega
  · fin_cases f <;> simp only [Fin.zero_eta, Fin.mk_one, Fin.reduceFinMk] <;> omega
  · fin_cases c <;> simp only [Fin.zero_eta, Fin.mk_one, Fin.reduceFinMk] <;> omega

theorem winReg_of_vword_offset {off : Offset} {i : VIdx} {j : Fin 8} (h : off.toNat = 0x100 + 0x20 * i.val + 4 * j.val) :
    winReg off = .vword i j := by
  have e : off = BitVec.ofNat 12 (0x100 + 0x20 * i.val + 4 * j.val) := by rw [← h, BitVec.ofNat_toNat, BitVec.setWidth_eq]
  rw [e]
  exact winReg_vword i j

/-- Settles O52: once BUSY = 0 no read is a draw, and the words are read nibble by nibble, bit by bit and word by word. -/
theorem registerReads : Obligations.RegisterReads := by
  intro s off rest ha hb h4
  refine ⟨s.readWord (winReg off), step_of_exact_read ha h4 (by rw [hb, Bool.false_and]), ?_, ?_, ?_, ?_, ?_, ?_⟩
  · rintro rfl k; exact vtagLo_nibble s k
  · rintro rfl k; exact vtagHi_nibble s k
  · rintro rfl; exact ptag_nibble s
  · rintro rfl; exact attemptsWord_fields s
  · rintro rfl; exact slots_bits s
  · intro i j h; rw [winReg_of_vword_offset h]; rfl

end Sys2Proof.Machine
end

section
/-! The host's accesses to the register window (20_memory.md R42 to R50, 70_reset_and_hazards.md R191, R192, R196). -/

namespace Sys2Proof.Machine

open Sys2Proof.Safety

/-! ### The core's step (20_memory.md R51) -/

theorem coreStep_of_decode {s : State} {i : Instr} (h : decode s.cmd = some i) : coreStep s = exec i s := by
  simp only [coreStep, h]

/-- Settles O5: the step next is the core's, and the core's step is `exec` of the decoded word. -/
theorem stepRunsDecodedCommand : Obligations.StepRunsDecodedCommand := fun s _ rest hn hd =>
  (step_of_coreNext hn).trans (coreStep_of_decode (s := { s with agenda := rest }) hd)

/-! ### Defined writes outside reset (20_memory.md R43, R47 to R50) -/

/-- A defined write outside reset is the step `writeReg` of the register its offset names. -/
theorem step_of_defined_write {s : State} {off : Offset} {d : Word32} {rest : List Event} (hpin : s.rstN = true)
    (ha : s.agenda = .write 32 off d :: rest) (hoff : off.toNat % 4 = 0) :
    step s = .next (({ s with agenda := rest } : State).writeReg off d (winReg off)) :=
  (step_of_write ha).trans (congrArg _ (step_of_writeReg hpin ha hoff (step_of_write ha)))

theorem writeReg_cmd_of_busy {s : State} (h : s.status.busy = true) (off : Offset) (d : Word32) :
    s.writeReg off d .cmd = s.overrun off d := if_pos h

theorem writeReg_cmd_of_idle {s : State} (h : s.status.busy = false) (off : Offset) (d : Word32) :
    s.writeReg off d .cmd = s.acceptCmd d := if_neg (by simp [State.pending, h])

theorem writeReg_vword_of_busy {s : State} (h : s.status.busy = true) (off : Offset) (d : Word32) (i : VIdx) (j : Fin 8) :
    s.writeReg off d (.vword i j) = s.overrun off d := if_pos h

theorem writeReg_vword_of_idle {s : State} (h : s.status.busy = false) (off : Offset) (d : Word32) (i : VIdx) (j : Fin 8) :
    s.writeReg off d (.vword i j) = s.writeVWord i j d := if_neg (by simp [State.pending, h])

theorem vreg_writeVWord_self (s : State) (i : VIdx) (j : Fin 8) (d : Word32) :
    (s.writeVWord i j d).vreg i = ⟨withWord (s.vreg i).value j d, .int⟩ := State.vreg_setV_self s i _

theorem vreg_writeVWord_of_ne (s : State) {i k : VIdx} (j : Fin 8) (d : Word32) (h : k ≠ i) :
    (s.writeVWord i j d).vreg k = s.vreg k := State.vreg_setV_of_ne s _ h

/-- The words of a value register lie at multiples of 4 (20_memory.md R41). -/
theorem vword_offset_aligned (i : VIdx) (j : Fin 8) :
    (BitVec.ofNat 12 (0x100 + 0x20 * i.val + 4 * j.val)).toNat % 4 = 0 := by
  rw [BitVec.toNat_ofNat]
  omega

/-- Settles O46: the write reaches word `j` of V[i], which `writeReg` drops or replaces as BUSY says. -/
theorem valueWordWrite : Obligations.ValueWordWrite := by
  intro s i j d rest hpin ha
  have hstep := step_of_defined_write hpin ha (vword_offset_aligned i j)
  rw [winReg_vword] at hstep
  refine ⟨fun hb => ?_, fun hb => ?_⟩
  · rw [writeReg_vword_of_busy (s := { s with agenda := rest }) hb] at hstep
    exact ⟨_, hstep, rfl, rfl⟩
  · rw [writeReg_vword_of_idle (s := { s with agenda := rest }) hb] at hstep
    refine ⟨_, hstep, ?_, fun k => ?_, fun k hk => vreg_writeVWord_of_ne _ j d hk, rfl⟩
    · rw [vreg_writeVWord_self]
    · rw [vreg_writeVWord_self]
      exact withWord_word _ j k d

/-- Settles O47: the write reaches CMD, which `writeReg` drops or accepts as BUSY says. -/
theorem commandWrite : Obligations.CommandWrite := by
  intro s w rest hpin ha
  have hstep : step s = .next (({ s with agenda := rest } : State).writeReg 0x00C w .cmd) :=
    step_of_defined_write hpin ha rfl
  refine ⟨fun hb => ?_, fun hb => ?_⟩
  · rw [writeReg_cmd_of_busy (s := { s with agenda := rest }) hb] at hstep
    exact ⟨_, hstep, rfl, rfl⟩
  · rw [writeReg_cmd_of_idle (s := { s with agenda := rest }) hb] at hstep
    exact hstep

/-- A flag that a write of 1 clears (20_memory.md R49). -/
theorem and_not_eq_ite (a b : Bool) : (a && !b) = if b = true then false else a := by
  rw [Bool.if_false_left, Bool.decide_eq_true, Bool.and_comm]

/-- Settles O48: the write reaches STATUS, where only DONE and OVR are cleared, each by its own bit. -/
theorem statusWrite : Obligations.StatusWrite := by
  intro s d rest hpin ha
  exact ⟨_, step_of_defined_write hpin ha rfl, rfl, and_not_eq_ite _ _, and_not_eq_ite _ _, rfl, rfl, rfl, rfl⟩

/-- Settles O49: the write reaches CTRL, and bit 1 chooses between the new IE alone and the reset of the block, whose
lost draws are those of `abandonedDraws_spec`. -/
theorem ctrlWrite : Obligations.CtrlWrite := by
  intro s d rest hpin ha
  have hstep : step s = .next (({ s with agenda := rest } : State).writeCtrl d) := step_of_defined_write hpin ha rfl
  refine ⟨fun hd => ?_, fun hd => ?_⟩
  · rw [hstep, writeCtrl_of_not_srst hd]
  · rw [writeCtrl_of_srst hd] at hstep
    obtain ⟨hnone, hbound⟩ := abandonedDraws_spec { s with agenda := rest, ie := d.getLsbD 0 }
    exact ⟨_, _, hstep, atReset_resetBlock _, rfl, hpin, rfl, rfl, rfl, rfl, rfl, hnone, hbound⟩

/-! ### Accesses without an effect (20_memory.md R42, R43) -/

theorem definedAccess_iff {width : Nat} {off : Offset} :
    definedAccess width off = true ↔ width = 32 ∧ off.toNat % 4 = 0 := by
  simp [definedAccess]

/-- An undefined read returns 0 and changes nothing else. -/
theorem step_of_undefined_read {s : State} {width : Nat} {off : Offset} {rest : List Event}
    (ha : s.agenda = .read width off :: rest) (hd : ¬ definedAccess width off = true) :
    step s = .next { s with agenda := rest, reads := s.reads ++ [0] } := by
  rw [step_of_read ha, State.hostRead, if_pos (Bool.eq_false_of_not_eq_true hd)]
  rfl

/-- A write to a read-only register changes nothing (20_memory.md R43). -/
theorem writeReg_readOnly (s : State) {off : Offset} (d : Word32)
    (h : off ∈ [(0x000 : Offset), 0x010, 0x014, 0x018, 0x01C, 0x020, 0x024]) : s.writeReg off d (winReg off) = s := by
  simp only [List.mem_cons, List.not_mem_nil, or_false] at h
  rcases h with rfl | rfl | rfl | rfl | rfl | rfl | rfl <;> rfl

/-- Settles O50: an access is undefined, or it is a defined one to a register without an effect. -/
theorem ignoredAccesses : Obligations.IgnoredAccesses := by
  refine ⟨fun s width off rest ha h => ?_, fun s width off d rest ha h => ?_⟩
  · by_cases hd : definedAccess width off = true
    · obtain ⟨rfl, h4⟩ := definedAccess_iff.mp hd
      have hr : winReg off = .reserved := winReg_reserved (by simpa [h4] using h)
      rw [step_of_exact_read ha h4 (by rw [hr, WinReg.hazard, Bool.and_false]), hr]
      rfl
    · exact step_of_undefined_read ha hd
  · rw [step_of_write ha, State.hostWrite]
    split
    next => rfl
    next hn =>
      obtain ⟨rfl, h4⟩ := definedAccess_iff.mp (Bool.eq_true_of_not_eq_false (not_or.mp hn).1)
      rcases h with h | h | h | h | h
      · exact absurd rfl h
      · exact absurd h4 h
      · rw [winReg_reserved (.inl h), State.writeReg]
      · rw [winReg_reserved (.inr h), State.writeReg]
      · rw [writeReg_readOnly _ d h]

/-! ### Reads (20_memory.md R45, 70_reset_and_hazards.md R196) -/

/-- A read is noted for the host and may use up a free value, and does nothing else. -/
theorem hostRead_frame (s : State) (width : Nat) (off : Offset) :
    ∃ w n, s.hostRead width off = { s with reads := s.reads ++ [w], freeCount := n } := by
  unfold State.hostRead
  split
  · exact ⟨_, _, rfl⟩
  · split
    · exact ⟨_, _, rfl⟩
    · exact ⟨_, _, rfl⟩

/-- The registers whose reads are hazardous, by their offsets (R196). -/
theorem hazard_winReg {off : Offset} (h4 : off.toNat % 4 = 0)
    (h : (0x010 ≤ off.toNat ∧ off.toNat < 0x024) ∨ (0x100 ≤ off.toNat ∧ off.toNat < 0x300)) :
    (winReg off).hazard = true := by
  rcases h with h | h
  · have hoff : off.toNat = 0x010 ∨ off.toNat = 0x014 ∨ off.toNat = 0x018 ∨ off.toNat = 0x01C ∨ off.toNat = 0x020 := by
      omega
    rcases hoff with hoff | hoff | hoff | hoff | hoff <;> simp only [winReg, hoff, WinReg.hazard]
  · have hr : winReg off = .vword (Fin.ofNat 16 ((off.toNat - 0x100) / 0x20)) (Fin.ofNat 8 (off.toNat / 4)) :=
      winReg_of_vword_offset (by simp only [Fin.val_ofNat]; omega)
    rw [hr, WinReg.hazard]

/-- A hazardous read while BUSY = 1 returns the next free value (R196, assumption 4). -/
theorem step_of_hazardous_read {s : State} {off : Offset} {rest : List Event} (ha : s.agenda = .read 32 off :: rest)
    (h4 : off.toNat % 4 = 0) (hb : s.status.busy = true) (hz : (winReg off).hazard = true) :
    step s = .next { s with
      agenda := rest
      reads := s.reads ++ [Config.busyRead s.freeCount]
      freeCount := s.freeCount + 1 } := by
  have hd : definedAccess 32 off = true := definedAccess_iff.mpr ⟨rfl, h4⟩
  rw [step_of_read ha, State.hostRead, if_neg (by simp [hd]), if_pos (by simp [State.pending, hb, hz])]
  rfl

/-- Settles O53: the frame of every read, and the free value of a hazardous one. -/
theorem readsHaveNoSideEffects : Obligations.ReadsHaveNoSideEffects := by
  refine ⟨fun s width off rest ha => ?_, fun s off rest ha hb h4 h => step_of_hazardous_read ha h4 hb (hazard_winReg h4 h)⟩
  obtain ⟨w, n, hr⟩ := hostRead_frame { s with agenda := rest } width off
  exact ⟨_, w, (step_of_read ha).trans (congrArg _ hr), rfl, rfl⟩

end Sys2Proof.Machine
end

section
/-! The command word (30_encoding.md R60 to R71): the roles of each command's row, which say both what its word holds
and what the decoder lets through. -/

namespace Sys2Proof

/-! ### The roles of a row (R64, R66) -/

/-- The row of R66 for a command: the roles of its register fields, and whether SLOT and NEG are operands. -/
def rolesOf : Instr → Roles
  | .nop => {}
  | .mov _ _ => { rd := .value, rs1 := .value }
  | .pmov _ _ => { rd := .point, rs1 := .point }
  | .setmod _ _ => { rs1 := .value, slot := true }
  | .setcrv _ _ _ => { rs1 := .value, rs2 := .value, slot := true }
  | .fmk _ _ _ => { rd := .value, rs1 := .value, slot := true }
  | .fadd _ _ _ => { rd := .value, rs1 := .value, rs2 := .value }
  | .fsub _ _ _ => { rd := .value, rs1 := .value, rs2 := .value }
  | .fmul _ _ _ => { rd := .value, rs1 := .value, rs2 := .value }
  | .mmul _ _ _ => { rd := .value, rs1 := .value, rs2 := .value }
  | .fpow _ _ _ _ => { rd := .value, rs1 := .value, rs2 := .value, neg := true }
  | .fdiv _ _ _ => { rd := .value, rs1 := .value, rs2 := .value }
  | .feq _ _ => { rs1 := .value, rs2 := .value }
  | .pinf _ _ => { rd := .point, slot := true }
  | .pmk _ _ _ _ => { rd := .point, rs1 := .value, rs2 := .value, slot := true }
  | .peq _ _ => { rs1 := .point, rs2 := .point }
  | .padd _ _ _ => { rd := .point, rs1 := .point, rs2 := .point }
  | .pdbl _ _ => { rd := .point, rs1 := .point }
  | .psmul _ _ _ => { rd := .point, rs1 := .point, rs2 := .value }
  | .pgen _ => { rd := .point }
  | .pgetx _ _ => { rd := .value, rs1 := .point }
  | .pgety _ _ => { rd := .value, rs1 := .point }
  | .pisinf _ => { rs1 := .point }
  | .minv _ _ _ => { rd := .value, rs1 := .value, rs2 := .value }
  | .keygen _ => { rd := .value }
  | .pubkey _ _ => { rd := .point, rs1 := .value }
  | .sign _ _ _ _ => { rd := .value, rs1 := .value, rs2 := .value, rs3 := .value }
  | .verify _ _ _ _ => { rd := .point, rs1 := .value, rs2 := .value, rs3 := .value }

@[simp] theorem Role.allows_unused {x : Fin 16} : Role.unused.allows x = true ↔ x = 0 := by
  rw [Role.allows, beq_iff_eq, Fin.val_eq_zero_iff]

@[simp] theorem Role.allows_value (x : Fin 16) : Role.value.allows x = true := rfl

@[simp] theorem Role.allows_fieldOfPoint (x : PIdx) : Role.point.allows (fieldOfPoint x) = true :=
  decide_eq_true x.isLt

/-- A register field of this role as the encoder writes it. -/
def Role.canon : Role → Fin 16 → Fin 16
  | .unused, _ => 0
  | .value, x => x
  | .point, x => fieldOfPoint (pointField x)

theorem Role.canon_of_allows {r : Role} {x : Fin 16} (h : r.allows x = true) : r.canon x = x := by
  cases r with
  | unused => exact (Role.allows_unused.mp h).symm
  | value => rfl
  | point => exact fieldOfPoint_pointField (of_decide_eq_true h)

/-- The fields of a word of this row as the encoder writes them. -/
def Roles.canon (r : Roles) (f : Fields) : Fields :=
  ⟨f.op, r.rd.canon f.rd, r.rs1.canon f.rs1, r.rs2.canon f.rs2, r.rs3.canon f.rs3, if r.slot then f.slot else 0,
    if r.neg then f.neg else 0, 0⟩

/-- R64, conditions 2 to 4, field by field. -/
theorem Roles.allows_iff {r : Roles} {f : Fields} :
    r.allows f = true ↔ f.rsv = 0 ∧ r.rd.allows f.rd = true ∧ r.rs1.allows f.rs1 = true ∧ r.rs2.allows f.rs2 = true
      ∧ r.rs3.allows f.rs3 = true ∧ (r.slot = true ∨ f.slot = 0) ∧ (r.neg = true ∨ f.neg = 0) := by
  simp [Roles.allows, and_assoc]

/-- A word that meets R64 has no don't-care bit. -/
theorem Roles.canon_of_allows {r : Roles} {f : Fields} (h : r.allows f = true) : r.canon f = f := by
  obtain ⟨hrsv, hrd, hrs1, hrs2, hrs3, hslot, hneg⟩ := Roles.allows_iff.mp h
  have hs : (if r.slot = true then f.slot else 0) = f.slot := ite_eq_left_iff.mpr fun hn => (hslot.resolve_left hn).symm
  have hg : (if r.neg = true then f.neg else 0) = f.neg := ite_eq_left_iff.mpr fun hn => (hneg.resolve_left hn).symm
  rw [Roles.canon, Role.canon_of_allows hrd, Role.canon_of_allows hrs1, Role.canon_of_allows hrs2,
    Role.canon_of_allows hrs3, hs, hg, ← hrsv]

/-! ### Decoding and encoding (R64, R67, R71) -/

/-- The encoder meets R64. -/
theorem allows_fieldsFor (i : Instr) : (rolesOf i).allows (fieldsFor i) = true := by
  rw [Roles.allows_iff]
  cases i <;> simp [rolesOf, fieldsFor]

/-- The decoder finds a command's own row. -/
theorem decodeFields_fieldsFor (i : Instr) : decodeFields (fieldsFor i) = allow (rolesOf i) (fieldsFor i) i := by
  cases i with
  | fpow rd rs1 rs2 neg => cases neg <;> rfl
  | _ => simp [decodeFields, fieldsFor, rolesOf, pointField_fieldOfPoint]

/-- What a row answers, it was given, and its fields are those the encoder writes. -/
theorem fieldsFor_of_allow {r : Roles} {f : Fields} {i j : Instr} (hc : fieldsFor i = r.canon f)
    (h : allow r f i = some j) : WellFormed j ∧ fieldsFor j = f := by
  obtain ⟨ha, hw, rfl⟩ := allow_eq_some.mp h
  exact ⟨hw, hc.trans (Roles.canon_of_allows ha)⟩

/-- FPOW's NEG bit is what its flag encodes to. -/
theorem ite_val_eq_one (x : Fin 2) : (if x.val = 1 then 1 else 0) = x := by
  revert x; decide

/-- Each row of the decoder answers a command with the fields that it was given. -/
theorem fieldsFor_of_decodeFields {f : Fields} {i : Instr} (h : decodeFields f = some i) :
    WellFormed i ∧ fieldsFor i = f := by
  obtain ⟨⟨op, hlt⟩, rd, rs1, rs2, rs3, slot, neg, rsv⟩ := f
  unfold decodeFields at h
  split at h
  case h_29 => cases h
  all_goals
    rename_i hop
    obtain rfl := hop
    refine fieldsFor_of_allow ?_ h
    simp [fieldsFor, Roles.canon, Role.canon, ite_val_eq_one]

/-- Settles O1: the decoder finds the row of the command, which lets the encoder's fields through. -/
theorem decodeOfEncode : Obligations.DecodeOfEncode := by
  intro i hw
  rw [decode, encode, fieldsOf_packFields, decodeFields_fieldsFor]
  exact allow_eq_some.mpr ⟨allows_fieldsFor i, hw, rfl⟩

/-- Settles O2: the decoder's row leaves no bit of the fields open. -/
theorem decodedWordIsItsEncoding : Obligations.DecodedWordIsItsEncoding := by
  intro w i h
  obtain ⟨hw, hf⟩ := fieldsFor_of_decodeFields h
  exact ⟨hw, by rw [encode, hf, packFields_fieldsOf]⟩

/-- Settles O4, by running the decoder on the words. -/
theorem sampleWordsDecode : Obligations.SampleWordsDecode := by
  unfold Obligations.SampleWordsDecode
  decide

end Sys2Proof
end

section
/-! The opcode table (30_encoding.md R66, R70): its masks are the fixed bits of the roles, so its
search is the decoder. -/

namespace Sys2Proof

open Sys2Proof.Safety

/-! ### Masks (R66) -/

/-- The bits of a register field that its role fixes to zero (R64). -/
def Role.mask : Role → Fin 16
  | .unused => 15
  | .value => 0
  | .point => 8

theorem Role.and_mask_eq_zero {r : Role} {x : Fin 16} : x &&& r.mask = 0 ↔ r.allows x = true := by
  cases r <;> revert x <;> decide

/-- The bits that a row fixes: the opcode, the unused fields, bit 3 of the point fields and the reserved bits. -/
def Roles.mask (r : Roles) : Fields :=
  ⟨255, r.rd.mask, r.rs1.mask, r.rs2.mask, r.rs3.mask, if r.slot then 0 else 3, if r.neg then 0 else 1, 31⟩

/-- The bitwise and, field by field. -/
def Fields.and (f g : Fields) : Fields :=
  ⟨f.op &&& g.op, f.rd &&& g.rd, f.rs1 &&& g.rs1, f.rs2 &&& g.rs2, f.rs3 &&& g.rs3, f.slot &&& g.slot, f.neg &&& g.neg,
    f.rsv &&& g.rsv⟩

theorem bitsAt_and (w m : Word32) (lo len : Nat) : bitsAt (w &&& m) lo len = bitsAt w lo len &&& bitsAt m lo len := by
  rw [bitsAt, BitVec.toNat_and, Nat.and_div_two_pow, Nat.and_mod_two_pow]
  rfl

theorem fieldsOf_and (w m : Word32) : fieldsOf (w &&& m) = (fieldsOf w).and (fieldsOf m) := by
  simp only [fieldsOf, Fields.and, bitsAt_and, Fields.mk.injEq, Fin.ext_iff, Fin.and_val, and_self]

theorem fieldsOf_inj {w u : Word32} : fieldsOf w = fieldsOf u ↔ w = u :=
  ⟨fun h => by rw [← packFields_fieldsOf w, h, packFields_fieldsOf], congrArg fieldsOf⟩

/-- The word of an opcode whose other fields are all zero. -/
def opcodeWord (op : Fin 256) : Word32 := packFields ⟨op, 0, 0, 0, 0, 0, 0, 0⟩

/-- Match and mask of a row (R70) say that the word has its opcode and meets its roles (R64). -/
theorem and_mask_eq_opcodeWord {r : Roles} {op : Fin 256} {w : Word32} :
    w &&& packFields r.mask = opcodeWord op ↔ (fieldsOf w).op = op ∧ r.allows (fieldsOf w) = true := by
  have hop : ∀ x : Fin 256, x &&& 255 = x := fun x =>
    Fin.ext ((Fin.and_val x 255).trans <| (Nat.and_two_pow_sub_one_eq_mod x.val 8).trans (Nat.mod_eq_of_lt x.isLt))
  have hrsv : ∀ x : Fin 32, x &&& 31 = x := by decide
  have hslot : ∀ x : Fin 4, x &&& (if r.slot then 0 else 3) = 0 ↔ r.slot = true ∨ x = 0 := by
    cases r.slot <;> decide
  have hneg : ∀ x : Fin 2, x &&& (if r.neg then 0 else 1) = 0 ↔ r.neg = true ∨ x = 0 := by
    cases r.neg <;> decide
  rw [← fieldsOf_inj, fieldsOf_and, fieldsOf_packFields, opcodeWord, fieldsOf_packFields, Roles.allows_iff]
  simp only [Fields.and, Roles.mask, Fields.mk.injEq, Role.and_mask_eq_zero, hop, hrsv, hslot, hneg]
  exact ⟨fun ⟨ho, hrd, hrs1, hrs2, hrs3, hs, hn, hr⟩ => ⟨ho, hr, hrd, hrs1, hrs2, hrs3, hs, hn⟩,
    fun ⟨ho, hr, hrd, hrs1, hrs2, hrs3, hs, hn⟩ => ⟨ho, hrd, hrs1, hrs2, hrs3, hs, hn, hr⟩⟩

/-! ### The rows (R66) -/

/-- The row of a command: the constructors stand in the order of the table. -/
def rowOf (i : Instr) : OpcodeRow :=
  opcodeTable[i.ctorIdx]'(by cases i <;> exact Nat.le_of_ble_eq_true rfl)

theorem rowOf_mem (i : Instr) : rowOf i ∈ opcodeTable := List.getElem_mem _

/-- The table has no other rows. -/
theorem exists_rowOf : ∀ row ∈ opcodeTable, ∃ i, row = rowOf i := by
  suffices h : ∀ row ∈ opcodeTable, row = rowOf (row.command 0) from fun row hr => ⟨_, h row hr⟩
  simp only [opcodeTable, List.forall_mem_cons, List.not_mem_nil, false_implies, implies_true, and_true]
  and_intros <;> rfl

/-- A row fixes its opcode and what its roles fix. Only SETMOD's fixes more: the upper bit of its slot (R67). -/
theorem row_eq_roles (i : Instr) :
    ((rowOf i).mask = packFields (rolesOf i).mask ∧ (rowOf i).code = opcodeWord (fieldsFor i).op)
      ∨ ∃ slot rs1, i = .setmod slot rs1 := by
  cases i with
  | setmod slot rs1 => exact .inr ⟨slot, rs1, rfl⟩
  | _ =>
    left
    simp only [rowOf, Instr.ctorIdx, opcodeTable, List.getElem_cons_zero, List.getElem_cons_succ, rolesOf, fieldsFor]
    decide

/-! ### The operands of a row (R60 to R62) -/

theorem vAt_val (w : Word32) (lo : Nat) : (vAt w lo).val = bitsAt w lo 4 := by
  rw [vAt, Fin.val_ofNat, BitVec.extractLsb'_toNat, Nat.shiftRight_eq_div_pow, Nat.mod_mod]
  rfl

@[simp] theorem vAt_rd (w : Word32) : vAt w 8 = (fieldsOf w).rd := Fin.ext (vAt_val w 8)
@[simp] theorem vAt_rs1 (w : Word32) : vAt w 12 = (fieldsOf w).rs1 := Fin.ext (vAt_val w 12)
@[simp] theorem vAt_rs2 (w : Word32) : vAt w 16 = (fieldsOf w).rs2 := Fin.ext (vAt_val w 16)
@[simp] theorem vAt_rs3 (w : Word32) : vAt w 20 = (fieldsOf w).rs3 := Fin.ext (vAt_val w 20)

theorem pAt_val (w : Word32) (lo : Nat) : (pAt w lo).val = bitsAt w lo 4 % 8 := by
  rw [pAt, Fin.val_ofNat, BitVec.extractLsb'_toNat, Nat.shiftRight_eq_div_pow, Nat.mod_mod, bitsAt]
  exact (Nat.mod_mod_of_dvd _ (by decide : 2 ^ 3 ∣ 2 ^ 4)).symm

@[simp] theorem pAt_rd (w : Word32) : pAt w 8 = pointField (fieldsOf w).rd := Fin.ext (pAt_val w 8)
@[simp] theorem pAt_rs1 (w : Word32) : pAt w 12 = pointField (fieldsOf w).rs1 := Fin.ext (pAt_val w 12)
@[simp] theorem pAt_rs2 (w : Word32) : pAt w 16 = pointField (fieldsOf w).rs2 := Fin.ext (pAt_val w 16)

@[simp] theorem slotAt_eq (w : Word32) : slotAt w = (fieldsOf w).slot := by
  apply Fin.ext
  rw [slotAt, Fin.val_ofNat, BitVec.extractLsb'_toNat, Nat.shiftRight_eq_div_pow, Nat.mod_mod]
  rfl

@[simp] theorem getElem_neg (w : Word32) : w[26] = ((fieldsOf w).neg.val == 1) := by
  rw [← BitVec.getLsbD_eq_getElem, BitVec.getLsbD, Nat.testBit_eq_decide_div_mod_eq]
  rfl

/-- A word with the opcode of a row is decoded by the roles and the operands of that row. -/
theorem decode_of_opcode {i : Instr} {w : Word32} (h : (fieldsOf w).op = (fieldsFor i).op) :
    decode w = allow (rolesOf i) (fieldsOf w) ((rowOf i).command w) := by
  rw [decode, decodeFields, h]
  cases i <;> simp [rowOf, opcodeTable, rolesOf, fieldsFor, Instr.ctorIdx]

/-! ### The search (R70) -/

/-- A word that matches a row has its opcode and meets its roles. -/
theorem fields_of_match {i : Instr} {w : Word32} (h : w &&& (rowOf i).mask = (rowOf i).code) :
    (fieldsOf w).op = (fieldsFor i).op ∧ (rolesOf i).allows (fieldsOf w) = true := by
  rw [← and_mask_eq_opcodeWord]
  obtain ⟨hm, hc⟩ | ⟨slot, rs1, rfl⟩ := row_eq_roles i
  · rwa [hm, hc] at h
  · have hmask : packFields ({ rs1 := .value, slot := true } : Roles).mask = 0xFEFF0FFF &&& 0xFCFF0FFF := by decide
    calc w &&& packFields (rolesOf (.setmod slot rs1)).mask
        = w &&& 0xFEFF0FFF &&& 0xFCFF0FFF := by rw [rolesOf, hmask, BitVec.and_assoc]
      _ = 0x02000003 &&& 0xFCFF0FFF := congrArg (· &&& 0xFCFF0FFF) h
      _ = opcodeWord 3 := by decide

/-- The encoding of a well-formed command matches its row. -/
theorem encode_matches {i : Instr} (hw : WellFormed i) : encode i &&& (rowOf i).mask = (rowOf i).code := by
  obtain ⟨hm, hc⟩ | ⟨slot, rs1, rfl⟩ := row_eq_roles i
  · rw [hm, hc, and_mask_eq_opcodeWord, encode, fieldsOf_packFields]
    exact ⟨rfl, allows_fieldsFor i⟩
  · revert slot rs1
    decide

/-- The test of R70 for one row. -/
def rowMatches (w : Word32) (row : OpcodeRow) : Bool := (w &&& row.mask) == row.code && wellFormedB (row.command w)

theorem tableDecode_eq (w : Word32) :
    tableDecode w = (opcodeTable.find? (rowMatches w)).map fun row => row.command w := rfl

/-- A row that matches gives the decoder's command. -/
theorem decode_of_rowMatches {row : OpcodeRow} {w : Word32} (hrow : row ∈ opcodeTable) (h : rowMatches w row = true) :
    decode w = some (row.command w) := by
  obtain ⟨i, rfl⟩ := exists_rowOf row hrow
  obtain ⟨hm, hw⟩ := Bool.and_eq_true_iff.mp h
  obtain ⟨hop, ha⟩ := fields_of_match (eq_of_beq hm)
  rw [decode_of_opcode hop]
  exact allow_eq_some.mpr ⟨ha, hw, rfl⟩

/-- Every command the decoder finds has a row that matches. -/
theorem rowMatches_of_decode {i : Instr} {w : Word32} (h : decode w = some i) : rowMatches w (rowOf i) = true := by
  obtain ⟨hw, hf⟩ := fieldsFor_of_decodeFields h
  obtain ⟨-, hw', -⟩ := allow_eq_some.mp ((decode_of_opcode (congrArg Fields.op hf.symm)).symm.trans h)
  rw [rowMatches, hw', Bool.and_true, beq_iff_eq, ← packFields_fieldsOf w, ← hf]
  exact encode_matches hw

theorem decode_eq_tableDecode (w : Word32) : decode w = tableDecode w := by
  rw [tableDecode_eq]
  cases hr : opcodeTable.find? (rowMatches w) with
  | some row => exact decode_of_rowMatches (List.mem_of_find?_eq_some hr) (List.find?_some hr)
  | none =>
    rw [List.find?_eq_none] at hr
    cases hd : decode w with
    | none => rfl
    | some i => exact absurd (rowMatches_of_decode hd) (hr _ (rowOf_mem i))

/-- Every row fixes the whole opcode, and no two rows fix the same one. -/
theorem opcodes_distinct :
    (opcodeTable.map fun row => row.code &&& 0xFF).Nodup ∧ ∀ row ∈ opcodeTable, row.mask &&& 0xFF = 0xFF := by decide

/-- Settles O3: a row matches where its roles allow the word, so the search finds the row the decoder finds; the
opcodes tell the rows apart. -/
theorem decodeFollowsOpcodeTable : Obligations.DecodeFollowsOpcodeTable := by
  obtain ⟨hcodes, hmask⟩ := opcodes_distinct
  refine ⟨decode_eq_tableDecode, (List.pairwise_map.mp hcodes).imp_of_mem ?_⟩
  rintro a b ha hb hne w ⟨h1, h2⟩
  rw [← h1, ← h2, BitVec.and_assoc, BitVec.and_assoc, hmask a ha, hmask b hb] at hne
  exact hne rfl

end Sys2Proof
end

section
/-! What a command leaves unchanged (30_encoding.md R66, 40_control.md R84, R86), and the word that is no command
(R68). -/

namespace Sys2Proof.Machine

open Sys2Proof.Safety

/-! ### The frame of a command (R66, R84, R86) -/

/-- `t` keeps everything of `s` but the destinations of `i` and what its slot loads invalidate. -/
structure WritesOnlyDests (i : Instr) (s t : State) : Prop where
  values : ∀ j, j ∉ valueDests i → t.vreg j = s.vreg j
    ∨ ∃ f rs1, i = .setmod f rs1 ∧ (s.vreg j).tag = .fe f ∧ t.vreg j = ⟨(s.vreg j).value, .unwritten⟩
  points : ∀ j, j ∉ pointDests i → t.preg j = s.preg j
    ∨ ∃ q, s.preg j = .pt q ∧ t.preg j = .unwritten
        ∧ ((∃ f rs1, i = .setmod f rs1 ∧ (s.curveSlot q.curve).valid = true ∧ (s.curveSlot q.curve).f = f)
          ∨ ∃ rs1 rs2, i = .setcrv q.curve rs1 rs2)
  fields : ∀ f, (∀ rs1, i ≠ .setmod f rs1) → t.fieldSlot f = s.fieldSlot f
  curves : ∀ c, (∀ rs1 rs2, i ≠ .setcrv c rs1 rs2) → t.curveSlot c = s.curveSlot c
    ∨ ∃ f rs1, i = .setmod f rs1 ∧ (s.curveSlot c).valid = true ∧ (s.curveSlot c).f = f
        ∧ t.curveSlot c = { s.curveSlot c with valid := false }

namespace WritesOnlyDests

variable {i : Instr} {s t u : State}

theorem refl (i : Instr) (s : State) : WritesOnlyDests i s s :=
  ⟨fun _ _ => .inl rfl, fun _ _ => .inl rfl, fun _ _ => rfl, fun _ _ => .inl rfl⟩

/-- A change outside the registers and slots, such as the completion, after the writes. -/
theorem congr (h : WritesOnlyDests i s t) (hu : SameRegs t u := by exact ⟨rfl, rfl, rfl, rfl, rfl, rfl, rfl⟩) :
    WritesOnlyDests i s u := by
  obtain ⟨hv, hp, hf, -, hc, -⟩ := sameRegs_reads hu
  exact ⟨fun j => hv j ▸ h.values j, fun j => hp j ▸ h.points j, fun f => hf f ▸ h.fields f, fun c => hc c ▸ h.curves c⟩

/-- A write of a value destination, after the others. -/
theorem setV (h : WritesOnlyDests i s t) {rd : VIdx} (hrd : rd ∈ valueDests i) (x : VReg) :
    WritesOnlyDests i s (t.setV rd x) where
  values j hj := by
    rw [State.vreg_setV_of_ne t x (ne_of_mem_of_not_mem hrd hj).symm]
    exact h.values j hj
  points := h.points
  fields := h.fields
  curves := h.curves

/-- A write of a point destination, after the others. -/
theorem setP (h : WritesOnlyDests i s t) {rd : PIdx} (hrd : rd ∈ pointDests i) (q : Point) :
    WritesOnlyDests i s (t.setP rd q) where
  values := h.values
  points j hj := by
    rw [State.preg_setP_of_ne t q (ne_of_mem_of_not_mem hrd hj).symm]
    exact h.points j hj
  fields := h.fields
  curves := h.curves

/-- SETMOD's load with the invalidation of R84. -/
theorem loadField (s : State) {f : FIdx} (hf : 2 ≤ f.val) (rs1 : VIdx) (x : FieldSlot) :
    WritesOnlyDests (.setmod f rs1) s ((s.invalidateField f).setField f x) where
  values j _ := by
    rw [State.vreg_setField, State.vreg_invalidateField, VReg.dropField]
    split
    next ht => exact .inr ⟨f, rs1, rfl, ht, rfl⟩
    next => exact .inl rfl
  points j _ := by
    rw [State.preg_setField, State.preg_invalidateField]
    cases hq : s.preg j with
    | unwritten => exact .inl rfl
    | pt q =>
      by_cases hc : q.curve ≠ 0 ∧ (s.curveSlot q.curve).valid = true ∧ (s.curveSlot q.curve).f = f
      · exact .inr ⟨q, rfl, if_pos hc, .inl ⟨f, rs1, rfl, hc.2⟩⟩
      · exact .inl (if_neg hc)
  fields g hg := by
    have hne : f ≠ g := fun he => hg rs1 (he ▸ rfl)
    rw [State.fieldSlot_loadField s hf, if_neg hne]
  curves c _ := by
    rw [State.curveSlot_setField, State.curveSlot_invalidateField]
    split
    next hc => exact .inr ⟨f, rs1, rfl, hc.2.1, hc.2.2, rfl⟩
    next => exact .inl rfl

/-- SETCRV's load with the invalidation of R86. -/
theorem loadCurve (s : State) {c : CIdx} (hc : c ≠ 0) (rs1 rs2 : VIdx) (x : CurveSlot) :
    WritesOnlyDests (.setcrv c rs1 rs2) s ((s.invalidateCurve c).setCurve c x) where
  values j _ := .inl (by rw [State.vreg_setCurve, State.vreg_invalidateCurve])
  points j _ := by
    rw [State.preg_setCurve, State.preg_invalidateCurve]
    cases hq : s.preg j with
    | unwritten => exact .inl rfl
    | pt q =>
      by_cases hq : q.curve = c
      · exact .inr ⟨q, rfl, if_pos hq, .inr ⟨rs1, rs2, hq ▸ rfl⟩⟩
      · exact .inl (if_neg hq)
  fields f _ := by rw [State.fieldSlot_setCurve, State.fieldSlot_invalidateCurve]
  curves d hd := by
    have hne : c ≠ d := fun he => hd rs1 rs2 (he ▸ rfl)
    rw [State.curveSlot_loadCurve s hc, if_neg hne]
    exact .inl rfl

end WritesOnlyDests

/-- The staged writes of a successful command go to its destinations. -/
theorem effect_writesOnlyDests {i : Instr} {s st : State} {b : Bool} (h : Effect i s st b) :
    WritesOnlyDests i s st := by
  have same : WritesOnlyDests i s s := .refl i s
  have value {rd : VIdx} {x : VReg} (hrd : rd ∈ valueDests i) : WritesOnlyDests i s (s.setV rd x) := same.setV hrd x
  have point {rd : PIdx} {q : Point} (hrd : rd ∈ pointDests i) : WritesOnlyDests i s (s.setP rd q) := same.setP hrd q
  cases i with
  | nop => obtain ⟨rfl, -⟩ := h; exact same
  | mov rd rs1 => obtain ⟨-, rfl, -⟩ := h; exact value (.head _)
  | pmov rd rs1 => obtain ⟨q, -, rfl, -⟩ := h; exact point (.head _)
  | setmod f rs1 => obtain ⟨hf, -, -, rfl, -⟩ := h; exact .loadField s hf rs1 _
  | setcrv c rs1 rs2 => obtain ⟨hc, f, g, -, -, -, rfl, -⟩ := h; exact .loadCurve s hc rs1 rs2 _
  | fmk rd rs1 f => obtain ⟨-, -, -, rfl, -⟩ := h; exact value (.head _)
  | fadd rd rs1 rs2 => obtain ⟨o, -, rfl, -⟩ := h; exact value (.head _)
  | fsub rd rs1 rs2 => obtain ⟨o, -, rfl, -⟩ := h; exact value (.head _)
  | fmul rd rs1 rs2 => obtain ⟨o, -, rfl, -⟩ := h; exact value (.head _)
  | mmul rd rs1 rs2 => obtain ⟨o, -, -, rfl, -⟩ := h; exact value (.head _)
  | fpow rd rs1 rs2 neg => obtain ⟨f, -, -, rfl, -⟩ := h; exact value (.head _)
  | fdiv rd rs1 rs2 => obtain ⟨o, -, -, rfl, -⟩ := h; exact value (.head _)
  | feq rs1 rs2 => obtain ⟨f, g, -, -, rfl, -⟩ := h; exact same
  | pinf rd c => obtain ⟨-, rfl, -⟩ := h; exact point (.head _)
  | pmk rd rs1 rs2 c => obtain ⟨-, -, -, rfl, -⟩ := h; exact point (.head _)
  | peq rs1 rs2 => obtain ⟨A, B, -, -, rfl, -⟩ := h; exact same
  | padd rd rs1 rs2 => obtain ⟨A, B, q, -, -, -, rfl, -⟩ := h; exact point (.head _)
  | pdbl rd rs1 => obtain ⟨A, q, -, -, rfl, -⟩ := h; exact point (.head _)
  | psmul rd rs1 rs2 => obtain ⟨A, q, -, -, -, rfl, -⟩ := h; exact point (.head _)
  | pgen rd => obtain ⟨rfl, -⟩ := h; exact point (.head _)
  | pgetx rd rs1 => obtain ⟨c, x, y, -, rfl, -⟩ := h; exact value (.head _)
  | pgety rd rs1 => obtain ⟨c, x, y, -, rfl, -⟩ := h; exact value (.head _)
  | pisinf rs1 => obtain ⟨q, -, rfl, -⟩ := h; exact same
  | minv rd rs1 rs2 => obtain ⟨-, -, x, -, rfl, -⟩ := h; exact value (.head _)
  | keygen rd =>
    obtain ⟨rfl, -⟩ := h
    have drawn : WritesOnlyDests (.keygen rd) s { s with rng := s.rng.draw.2 } := same.congr
    exact drawn.setV (.head _) _
  | pubkey rd rs1 => obtain ⟨-, -, q, -, rfl, -⟩ := h; exact point (.head _)
  | sign rd rs1 rs2 rs3 =>
    obtain ⟨-, -, -, -, r, g, n, p, -, -, rfl, -⟩ := h
    have drawn : WritesOnlyDests (.sign rd rs1 rs2 rs3) s (s.afterNonces r) := same.congr
    exact (drawn.setV (.head _) _).setV (.tail _ (.head _)) _
  | verify rd rs1 rs2 rs3 => obtain ⟨q, -, -, -, -, -, -, rfl⟩ := h; exact same

/-- An error discards the writes, and a success keeps those of its effect. -/
theorem exec_writesOnlyDests {i : Instr} {s t : State} (h : exec i s = .next t) : WritesOnlyDests i s t := by
  rcases exec_cases i s with ⟨e, he⟩ | ⟨_, _, _, _, r, e, -, -, -, -, he⟩ | ⟨st, b, he, hst⟩ <;>
    rw [he] at h <;> cases h
  · exact (WritesOnlyDests.refl i s).congr
  · exact (WritesOnlyDests.refl i s).congr
  · exact (effect_writesOnlyDests hst).congr

/-- Settles O10, from the frame of each command's effect. -/
theorem commandsWriteOnlyTheirDestinations : Obligations.CommandsWriteOnlyTheirDestinations := by
  intro i s t h
  obtain ⟨hv, hp, hf, hc⟩ := exec_writesOnlyDests h
  exact ⟨hv, hp, hf, hc⟩

/-! ### Words that are no command (R68) -/

theorem coreStep_of_illegal {s : State} (h : decode s.cmd = none) :
    coreStep s = .next (s.completeErr .illegalCommand) := by
  simp only [coreStep, h, finish_error]

/-- Settles O6: the step next is the core's, and the core's step on such a word is the error completion of R162. -/
theorem illegalWordCompletes : Obligations.IllegalWordCompletes := by
  intro s rest hn hd
  have hstep := (step_of_coreNext hn).trans (coreStep_of_illegal (s := { s with agenda := rest }) hd)
  exact ⟨_, hstep, failed_completeErr _ _, rfl, rfl, rfl⟩

end Sys2Proof.Machine
end

section
/-! The control commands (40_control.md R80 to R87): the answer of each to operands it accepts, and SETMOD's refusal. -/

namespace Sys2Proof.Machine

open Sys2Proof.Safety

/-! ### What each command answers -/

theorem exec_mov {s : State} {rd rs1 : VIdx} (h : Written s rs1) :
    exec (.mov rd rs1) s = .next ((s.setV rd (s.vreg rs1)).completeOk false) := by
  simp only [exec, execMov, State.readV_of_written h, bind_ok_left, finish_ok]

theorem exec_pmov {s : State} {rd rs1 : PIdx} {q : Point} (h : s.preg rs1 = .pt q) :
    exec (.pmov rd rs1) s = .next ((s.setP rd q).completeOk false) := by
  simp only [exec, execPmov, State.readP_of_pt h, bind_ok_left, finish_ok]

/-- SETMOD of an acceptable modulus to a generic slot (R83). -/
theorem exec_setmod_of_acceptable {s : State} {f : FIdx} {rs1 : VIdx} (hf : 2 ≤ f.val) (h : Written s rs1)
    (hp : primeAcceptable s.params.primeCheckBits (s.vreg rs1).value.toNat = true) :
    exec (.setmod f rs1) s
      = .next (((s.invalidateField f).setField f ⟨true, (s.vreg rs1).value⟩).completeOk false) := by
  simp only [exec, execSetmod, require_of _ hf, State.readV_of_written h, require_of _ hp, bind_ok_left, finish_ok]

/-- SETMOD of any other value to a generic slot (R83). -/
theorem exec_setmod_of_not_acceptable {s : State} {f : FIdx} {rs1 : VIdx} (hf : 2 ≤ f.val) (h : Written s rs1)
    (hp : ¬ primeAcceptable s.params.primeCheckBits (s.vreg rs1).value.toNat = true) :
    exec (.setmod f rs1) s = .next (s.completeErr .invalidModulus) := by
  simp only [exec, execSetmod, require_of _ hf, State.readV_of_written h, require_of_not _ hp, bind_ok_left,
    bind_error_left, finish_error]

/-- SETCRV of two elements of one modulus to a generic slot (R85). -/
theorem exec_setcrv_of_sameField {s : State} {c : CIdx} {rs1 rs2 : VIdx} {f g : FIdx} (hc : c ≠ 0)
    (hf : (s.vreg rs1).tag = .fe f) (hg : (s.vreg rs2).tag = .fe g) (hm : s.modOf f = s.modOf g) :
    exec (.setcrv c rs1 rs2) s
      = .next (((s.invalidateCurve c).setCurve c ⟨true, f, (s.vreg rs1).value, (s.vreg rs2).value⟩).completeOk false) := by
  have h1 : Written s rs1 := by simp [hf]
  have h2 : Written s rs2 := by simp [hg]
  simp only [exec, execSetcrv, require_of _ hc, State.readV_of_written h1, State.readV_of_written h2, hf, hg, fieldOfTag_fe,
    require_of _ hm, bind_ok_left, finish_ok]

/-! ### What the invalidation of a generic field slot drops (R84) -/

/-- The hardwired curve is over F0 (R16), so a curve over a generic field slot is a generic curve. -/
theorem State.generic_and_over_iff {s : State} {f : FIdx} (hf : 2 ≤ f.val) (c : CIdx) :
    c ≠ 0 ∧ (s.curveSlot c).valid = true ∧ (s.curveSlot c).f = f
      ↔ (s.curveSlot c).valid = true ∧ (s.curveSlot c).f = f := by
  refine and_iff_right_of_imp ?_
  rintro ⟨-, rfl⟩ rfl
  simp at hf

/-! ### The obligations -/

/-- Settles O20: the copy is what the destination reads after the write, rd = rs1 included. -/
theorem copyResults : Obligations.CopyResults := by
  refine ⟨fun s => ?nop, fun s rd rs1 h => ?mov, fun s rd rs1 q h => ?pmov⟩
  case nop => exact ⟨_, rfl, succeeded_completeOk s false, rfl⟩
  case mov => exact ⟨_, exec_mov h, succeeded_completeOk _ _, State.vreg_setV_self s rd _⟩
  case pmov => exact ⟨_, exec_pmov h, succeeded_completeOk _ _, State.preg_setP_self s rd q⟩

/-- Settles O21: the model's trial division decides the obligation's condition on the modulus, and the accepted
modulus is loaded after R84's invalidation. -/
theorem setmodLoadsPrimes : Obligations.SetmodLoadsPrimes := by
  intro s f rs1 hf hw
  rw [← primeAcceptable_iff _ (s.vreg rs1).value.isLt]
  refine ⟨fun hp => ?accepted, fun hp => ?refused⟩
  case refused => exact ⟨_, exec_setmod_of_not_acceptable hf hw hp, failed_completeErr _ _, rfl⟩
  case accepted =>
    refine ⟨_, exec_setmod_of_acceptable hf hw hp, succeeded_completeOk _ _, ?field, fun j => ?value, fun c => ?curve,
      fun j => ?point⟩
    case field => rw [State.fieldSlot_completeOk, State.fieldSlot_loadField s hf, if_pos rfl]
    case value => rw [State.vreg_completeOk, State.vreg_setField, State.vreg_invalidateField, VReg.dropField]
    case curve =>
      rw [State.curveSlot_completeOk, State.curveSlot_setField, State.curveSlot_invalidateField]
      exact if_congr (State.generic_and_over_iff hf c) rfl rfl
    case point =>
      rw [State.preg_completeOk, State.preg_setField, State.preg_invalidateField]
      cases s.preg j with
      | unwritten => rfl
      | pt q => exact if_congr (State.generic_and_over_iff hf q.curve) rfl rfl

/-- Settles O22: the load of R85 after the invalidation of R86. -/
theorem setcrvLoadsCurve : Obligations.SetcrvLoadsCurve := by
  intro s c rs1 rs2 f g hc hf hg hm
  refine ⟨_, exec_setcrv_of_sameField hc hf hg hm, succeeded_completeOk _ _, ?curve, fun j => ?point⟩
  case curve => rw [State.curveSlot_completeOk, State.curveSlot_loadCurve s hc, if_pos rfl]
  case point =>
    rw [State.preg_completeOk, State.preg_setCurve, State.preg_invalidateCurve]
    cases s.preg j <;> rfl

end Sys2Proof.Machine
end

section
/-! Errors of operand checks (60_exceptions.md R160): FieldMismatch where field operands are integers or of different
moduli (41_field.md R100), and OutOfRange and InfinityCoordinate where a value or a point is not what a rule asks for. -/

namespace Sys2Proof.Machine

open Sys2Proof.Safety

/-! ### Errors of a command's body -/

/-- A command whose body raises completes with the error (R162). -/
theorem raises_of_error {i : Instr} {s : State} {body : Except Err Staged} {e : Err} (hb : exec i s = finish s body)
    (h : body = .error e) : Raises i s e := ⟨_, exec_of_error hb h, failed_completeErr s e⟩

/-- A command that begins with the operand head of R100 raises the head's error. -/
theorem raises_of_readFieldPair {i : Instr} {s : State} {rs1 rs2 : VIdx} {rest : FieldPair → Except Err Staged} {e : Err}
    (hb : exec i s = finish s (s.readFieldPair rs1 rs2 >>= rest)) (h : s.readFieldPair rs1 rs2 = .error e) :
    Raises i s e := raises_of_error hb (bind_eq_error.mpr (.inl h))

/-! ### FieldMismatch (R100) -/

theorem fieldOfTag_of_int {t : Tag} (h : t = .int) : fieldOfTag t = .error .fieldMismatch := h ▸ rfl

/-- CheckFE of two tags and a check of their slots, if they are not field elements that pass it. -/
theorem checkPair_mismatch {α : Type} {x y : Tag} {C : FIdx → FIdx → Prop} [∀ f g, Decidable (C f g)]
    {rest : FIdx → FIdx → Except Err α} (h : ¬ ∃ f g, x = .fe f ∧ y = .fe g ∧ C f g) :
    (do let f ← fieldOfTag x
        let g ← fieldOfTag y
        require (C f g) .fieldMismatch
        rest f g) = .error .fieldMismatch := by
  cases x with
  | unwritten => rfl
  | int => rfl
  | fe f =>
    cases y with
    | unwritten => rfl
    | int => rfl
    | fe g =>
      have hC : ¬ C f g := fun hC => h ⟨f, g, rfl, rfl, hC⟩
      simp only [fieldOfTag_fe, bind_ok_left, require_of_not _ hC, bind_error_left]

theorem State.readFieldPair_mismatch {s : State} {rs1 rs2 : VIdx} (h1 : Written s rs1) (h2 : Written s rs2)
    (h : ¬ SameField s rs1 rs2) : s.readFieldPair rs1 rs2 = .error .fieldMismatch := by
  simp only [State.readFieldPair, State.readV_of_written h1, State.readV_of_written h2, bind_ok_left]
  exact checkPair_mismatch h

theorem raises_setcrv_mismatch {s : State} {c : CIdx} {rs1 rs2 : VIdx} (hc : c ≠ 0) (h1 : Written s rs1)
    (h2 : Written s rs2) (h : ¬ SameField s rs1 rs2) : Raises (.setcrv c rs1 rs2) s .fieldMismatch := by
  refine raises_of_error rfl ?_
  simp only [require_of _ hc, State.readV_of_written h1, State.readV_of_written h2, bind_ok_left]
  exact checkPair_mismatch h

theorem raises_pmk_mismatch {s : State} {rd : PIdx} {rs1 rs2 : VIdx} {c : CIdx} (h1 : Written s rs1)
    (h2 : Written s rs2) (hc : (s.curveSlot c).valid = true)
    (h : ¬ ∃ f g, (s.vreg rs1).tag = .fe f ∧ (s.vreg rs2).tag = .fe g ∧ s.modOf f = (s.curveKey c).m
      ∧ s.modOf g = (s.curveKey c).m) : Raises (.pmk rd rs1 rs2 c) s .fieldMismatch := by
  refine raises_of_error rfl ?_
  simp only [State.readV_of_written h1, State.readV_of_written h2, require_of _ hc, bind_ok_left]
  exact checkPair_mismatch h

/-- FPOW checks its base only (R108). -/
theorem raises_fpow_of_int {s : State} {rd rs1 rs2 : VIdx} (neg : Bool) (h2 : Written s rs2)
    (h : (s.vreg rs1).tag = .int) : Raises (.fpow rd rs1 rs2 neg) s .fieldMismatch := by
  have h1 : Written s rs1 := by simp [h]
  refine raises_of_error rfl ?_
  simp only [State.readV_of_written h1, State.readV_of_written h2, fieldOfTag_of_int h, bind_ok_left, bind_error_left]

theorem raises_feq_of_int {s : State} {rs1 rs2 : VIdx} (h1 : Written s rs1) (h2 : Written s rs2)
    (h : (s.vreg rs1).tag = .int ∨ (s.vreg rs2).tag = .int) : Raises (.feq rs1 rs2) s .fieldMismatch := by
  refine raises_of_error rfl ?_
  simp only [State.readV_of_written h1, State.readV_of_written h2, bind_ok_left]
  rcases h with h | h
  · simp only [fieldOfTag_of_int h, bind_error_left]
  · simp only [fieldOfTag_of_int h, bind_error_left]
    cases (s.vreg rs1).tag <;> rfl

/-- Settles O16: the checks of field operands all come down to CheckFE of R100. -/
theorem fieldMismatchRaises : Obligations.FieldMismatchRaises := by
  refine ⟨rfl, fun s rd rs1 rs2 h1 h2 h => ?pair, fun _ _ _ _ neg h2 h => raises_fpow_of_int neg h2 h,
    fun _ _ _ => raises_feq_of_int, fun _ _ _ _ _ => raises_pmk_mismatch⟩
  have head := State.readFieldPair_mismatch h1 h2 h
  exact ⟨raises_of_readFieldPair rfl head, raises_of_readFieldPair rfl head, raises_of_readFieldPair rfl head,
    raises_of_readFieldPair rfl head, raises_of_readFieldPair rfl head, fun c hc => raises_setcrv_mismatch hc h1 h2 h⟩

/-! ### OutOfRange and InfinityCoordinate (R101, R131, R132, R144) -/

theorem exec_fmk_of_modulus_le {s : State} {rd rs1 : VIdx} {f : FIdx} (h1 : Written s rs1)
    (hv : (s.fieldSlot f).valid = true) (h : s.modOf f ≤ (s.vreg rs1).value.toNat) :
    exec (.fmk rd rs1 f) s = .next (s.completeErr .outOfRange) := by
  simp only [exec, execFmk, State.readV_of_written h1, require_of _ hv, require_of_not _ (Nat.not_lt.mpr h),
    bind_ok_left, bind_error_left, finish_error]

/-- The integers outside [1, N − 1] are no keys (43_ecdsa.md R144). -/
theorem not_validKey {d : U256} (h : d = 0 ∨ Config.order ≤ d) : ¬ ValidKey d.toNat := by
  rintro ⟨hpos, hlt⟩
  rcases h with rfl | h
  · exact absurd hpos (by decide)
  · exact Nat.not_le.mpr hlt (BitVec.le_def.mp h)

theorem raises_pubkey_of_not_validKey {s : State} {rd : PIdx} {rs1 : VIdx} (h1 : Written s rs1)
    (h : ¬ ValidKey (s.vreg rs1).value.toNat) : Raises (.pubkey rd rs1) s .outOfRange := by
  refine raises_of_error rfl ?_
  simp only [State.readV_of_written h1, require_of_not _ h, bind_ok_left, bind_error_left]

/-- SIGN checks the key before it draws a nonce (43_ecdsa.md R147). -/
theorem raises_sign_of_not_validKey {s : State} {rd rs1 rs2 rs3 : VIdx} (hne : rd ≠ rs3) (h1 : Written s rs1)
    (h2 : Written s rs2) (h : ¬ ValidKey (s.vreg rs2).value.toNat) : Raises (.sign rd rs1 rs2 rs3) s .outOfRange := by
  have ho : s.signOperands rd rs1 rs2 rs3 = .error .outOfRange := by
    simp only [State.signOperands, require_of _ hne, State.readV_of_written h1, State.readV_of_written h2,
      require_of_not _ h, bind_ok_left, bind_error_left]
  exact raises_of_error (body := .error .outOfRange) (by simp only [exec, execSign, ho]) rfl

theorem exec_pgetx_of_inf {s : State} {rd : VIdx} {rs1 : PIdx} {c : CIdx} (h : s.preg rs1 = .pt (.inf c)) :
    exec (.pgetx rd rs1) s = .next (s.completeErr .infinityCoordinate) := by
  simp only [exec, execPgetx, State.readP_of_pt h, bind_ok_left, finish_error]

theorem exec_pgety_of_inf {s : State} {rd : VIdx} {rs1 : PIdx} {c : CIdx} (h : s.preg rs1 = .pt (.inf c)) :
    exec (.pgety rd rs1) s = .next (s.completeErr .infinityCoordinate) := by
  simp only [exec, execPgety, State.readP_of_pt h, bind_ok_left, finish_error]

/-- Settles O17: in each clause the check is the first of the command to fail, the reads before it having succeeded. -/
theorem validationErrorsRaise : Obligations.ValidationErrorsRaise := by
  refine ⟨fun s rd rs1 f h1 hv h => ?fmk, fun s rd rs1 h1 h => ?pubkey, fun s rd rs1 rs2 rs3 hne h1 h2 h => ?sign,
    fun s rd rs1 c h => ⟨?pgetx, ?pgety⟩⟩
  case fmk => exact ⟨_, exec_fmk_of_modulus_le h1 hv h, failed_completeErr _ _, rfl⟩
  case pubkey => exact raises_pubkey_of_not_validKey h1 (not_validKey h)
  case sign => exact raises_sign_of_not_validKey hne h1 h2 (not_validKey h)
  case pgetx => exact ⟨_, exec_pgetx_of_inf h, failed_completeErr _ _, rfl⟩
  case pgety => exact ⟨_, exec_pgety_of_inf h, failed_completeErr _ _⟩

end Sys2Proof.Machine
end

section
/-! The field commands (41_field.md R100 to R111): the answer of each to operands it accepts, and the arithmetic of its
result. -/

namespace Sys2Proof.Machine

open Sys2Proof.Safety

/-! ### Reading a result -/

theorem State.modOf_le (s : State) (f : FIdx) : s.modOf f ≤ 2 ^ 256 := (s.fieldSlot f).m.isLt.le

/-- A command that writes the residue `x` of slot `f` to `rd`, as R111 asks: what the host then reads. -/
theorem result_of_feReg {i : Instr} {s : State} {rd : VIdx} {f : FIdx} {x : Nat}
    (h : exec i s = .next ((s.setV rd (feReg x f)).completeOk false)) (hx : x < s.modOf f) :
    ∃ t, exec i s = .next t ∧ Succeeded t false ∧ (t.vreg rd).tag = .fe f ∧ (t.vreg rd).value.toNat = x := by
  refine ⟨_, h, succeeded_completeOk _ _, ?_⟩
  rw [State.vreg_completeOk, State.vreg_setV_self, feReg, BitVec.toNat_ofNat]
  exact ⟨rfl, Nat.mod_eq_of_lt (hx.trans_le (s.modOf_le f))⟩

/-! ### What each command answers -/

theorem exec_fmk {s : State} {rd rs1 : VIdx} {f : FIdx} (h1 : Written s rs1) (hv : (s.fieldSlot f).valid = true)
    (h : (s.vreg rs1).value.toNat < s.modOf f) :
    exec (.fmk rd rs1 f) s = .next ((s.setV rd ⟨(s.vreg rs1).value, .fe f⟩).completeOk false) := by
  simp only [exec, execFmk, State.readV_of_written h1, require_of _ hv, require_of _ h, bind_ok_left, finish_ok]

theorem exec_fpow {s : State} {rd rs1 rs2 : VIdx} {f : FIdx} (neg : Bool) (hf : (s.vreg rs1).tag = .fe f)
    (h2 : Written s rs2) :
    exec (.fpow rd rs1 rs2 neg) s
      = .next ((s.setV rd (feReg (fieldPow (s.vreg rs1).value.toNat (s.vreg rs2).value.toNat neg (s.modOf f)) f)).completeOk
          false) := by
  have h1 : Written s rs1 := by simp [hf]
  simp only [exec, execFpow, State.readV_of_written h1, State.readV_of_written h2, hf, fieldOfTag_fe, bind_ok_left,
    finish_ok]

theorem exec_feq {s : State} {rs1 rs2 : VIdx} {f g : FIdx} (hf : (s.vreg rs1).tag = .fe f)
    (hg : (s.vreg rs2).tag = .fe g) :
    exec (.feq rs1 rs2) s
      = .next (s.completeOk (decide ((s.vreg rs1).value = (s.vreg rs2).value) && decide (s.modOf f = s.modOf g))) := by
  have h1 : Written s rs1 := by simp [hf]
  have h2 : Written s rs2 := by simp [hg]
  simp only [exec, execFeq, State.readV_of_written h1, State.readV_of_written h2, hf, hg, fieldOfTag_fe, bind_ok_left,
    finish_ok]

section SameField

variable {s : State} {rd rs1 rs2 : VIdx} {f g : FIdx} (hf : (s.vreg rs1).tag = .fe f) (hg : (s.vreg rs2).tag = .fe g)
  (hm : s.modOf f = s.modOf g)

include hf hg hm

theorem exec_fadd :
    exec (.fadd rd rs1 rs2) s = .next
      ((s.setV rd (feReg (((s.vreg rs1).value.toNat + (s.vreg rs2).value.toNat) % s.modOf f) f)).completeOk false) := by
  simp only [exec, execFadd, State.readFieldPair_of hf hg hm, bind_ok_left, finish_ok]

theorem exec_fsub :
    exec (.fsub rd rs1 rs2) s = .next
      ((s.setV rd (feReg (residue (((s.vreg rs1).value.toNat : Int) - (s.vreg rs2).value.toNat) (s.modOf f)) f)).completeOk
        false) := by
  simp only [exec, execFsub, State.readFieldPair_of hf hg hm, bind_ok_left, finish_ok]

theorem exec_fmul :
    exec (.fmul rd rs1 rs2) s = .next
      ((s.setV rd (feReg ((s.vreg rs1).value.toNat * (s.vreg rs2).value.toNat % s.modOf f) f)).completeOk false) := by
  simp only [exec, execFmul, State.readFieldPair_of hf hg hm, bind_ok_left, finish_ok]

theorem exec_mmul_of_odd (hodd : s.modOf f % 2 ≠ 0) :
    exec (.mmul rd rs1 rs2) s = .next
      ((s.setV rd (feReg ((s.vreg rs1).value.toNat * (s.vreg rs2).value.toNat * montgomeryRinv (s.modOf f) % s.modOf f)
        f)).completeOk false) := by
  simp only [exec, execMmul, State.readFieldPair_of hf hg hm, require_of _ hodd, bind_ok_left, finish_ok]

theorem raises_mmul_of_even (heven : s.modOf f % 2 = 0) : Raises (.mmul rd rs1 rs2) s .invalidModulus := by
  refine raises_of_error rfl ?_
  simp only [State.readFieldPair_of hf hg hm, require_of_not _ (not_not_intro heven), bind_ok_left, bind_error_left]

theorem exec_fdiv_of_ne_zero (hb : (s.vreg rs2).value.toNat ≠ 0) :
    exec (.fdiv rd rs1 rs2) s = .next
      ((s.setV rd (feReg (fermatQuotient (s.vreg rs1).value.toNat (s.vreg rs2).value.toNat (s.modOf f)) f)).completeOk
        false) := by
  simp only [exec, execFdiv, State.readFieldPair_of hf hg hm, require_of _ hb, bind_ok_left, finish_ok]

theorem raises_fdiv_of_zero (hb : (s.vreg rs2).value.toNat = 0) : Raises (.fdiv rd rs1 rs2) s .divisionByZero := by
  refine raises_of_error rfl ?_
  simp only [State.readFieldPair_of hf hg hm, require_of_not _ (not_not_intro hb), bind_ok_left, bind_error_left]

end SameField

/-! ### The arithmetic of the results -/

/-- A sum of two residues is reduced by one subtraction (R102). -/
theorem add_mod_eq_ite {a b m : Nat} (ha : a < m) (hb : b < m) :
    (a + b) % m = if a + b < m then a + b else a + b - m := by
  split
  next h => exact Nat.mod_eq_of_lt h
  next h => rw [Nat.mod_eq_sub_mod (Nat.not_lt.mp h), Nat.mod_eq_of_lt (by omega)]

/-- The residue of a difference is what must be added to the subtrahend (R103). -/
theorem residue_sub_add_mod {a m : Nat} (ha : a < m) (b : Nat) : (residue ((a : Int) - b) m + b) % m = a := by
  have h : (((residue ((a : Int) - b) m + b) % m : Nat) : Int) = a := by
    rw [Int.natCast_mod, Nat.cast_add, residue_cast _ (Nat.zero_lt_of_lt ha), Int.emod_add_emod, Int.sub_add_cancel]
    exact_mod_cast Nat.mod_eq_of_lt ha
  exact_mod_cast h

/-- Multiplying by the Montgomery constant and then by the radix changes no residue (R106). -/
theorem montgomery_mul_radix {m : Nat} (hodd : m % 2 = 1) (hm : m < 2 ^ 256) (x : Nat) :
    x * montgomeryRinv m % m * 2 ^ 256 % m = x % m := by
  obtain ⟨-, hR⟩ := montgomeryRinv_spec hodd hm
  have h : x * (2 ^ 256 * montgomeryRinv m) ≡ x * 1 [MOD m] := Nat.ModEq.mul_left x hR
  rw [Nat.mod_mul_mod, mul_assoc, mul_comm (montgomeryRinv m)]
  rwa [mul_one] at h

/-- NEG with the exponent 0 is the plain power (R107). -/
theorem fieldPow_eq_ite {m : Nat} (h2 : 2 ≤ m) (hm : m ≤ 2 ^ 256) (x : Nat) (e : U256) (neg : Bool) :
    fieldPow x e.toNat neg m = if neg = true ∧ e ≠ 0 then (x ^ ((m - 2) % (m - 1))) ^ (e.toNat % (m - 1)) % m
      else x ^ (e.toNat % (m - 1)) % m := by
  have hpos : 0 < e.toNat ↔ e ≠ 0 := Nat.pos_iff_ne_zero.trans (BitVec.toNat_inj (y := 0)).not
  split
  next h =>
    obtain ⟨rfl, he⟩ := h
    rw [fieldPow_neg x _ m h2 hm (hpos.mpr he), ← Nat.pow_mod]
  next h =>
    rw [← hpos] at h
    rw [← fieldPow_nonneg x _ m h2 hm, fieldPow, fieldPow, if_neg h, if_neg (by simp)]

/-- In a prime field the Fermat quotient times the divisor is the dividend (R109). -/
theorem fermatQuotient_mul_mod {a b m : Nat} (hp : m.Prime) (hm : m ≤ 2 ^ 256) (ha : a < m) (hb : b < m) (h0 : b ≠ 0) :
    fermatQuotient a b m * b % m = a := by
  have : Fact m.Prime := ⟨hp⟩
  have hne : (b : ZMod m) ≠ 0 := fun h =>
    Nat.not_dvd_of_pos_of_lt (Nat.pos_of_ne_zero h0) hb ((ZMod.natCast_eq_zero_iff b m).mp h)
  have hq : ((fermatQuotient a b m * b : Nat) : ZMod m) = (a : ZMod m) := by
    rw [Nat.cast_mul, fermatQuotient_zmod hp hm a hne, inv_mul_cancel_right₀ hne]
  rw [(ZMod.natCast_eq_natCast_iff' _ _ m).mp hq, Nat.mod_eq_of_lt ha]

/-! ### The obligations -/

/-- Settles O23: the value that passes the check is written with the slot's tag. -/
theorem fmkTagsValue : Obligations.FmkTagsValue := fun s rd _ _ h1 hv h =>
  ⟨_, exec_fmk h1 hv h, succeeded_completeOk _ _, State.vreg_setV_self s rd _⟩

/-- Settles O24: both operands are below the common modulus, so one subtraction reduces the sum. -/
theorem adderResults : Obligations.AdderResults := by
  intro s rd rs1 rs2 f g inv hf hg hm
  have ha := (inv.element rs1 f hf).2
  have hb := hm ▸ (inv.element rs2 g hg).2
  have hpos : 0 < s.modOf f := Nat.zero_lt_of_lt ha
  constructor
  · rw [← add_mod_eq_ite ha hb]
    exact result_of_feReg (exec_fadd hf hg hm) (Nat.mod_lt _ hpos)
  · have hlt := residue_lt ((s.vreg rs1).value.toNat - (s.vreg rs2).value.toNat) hpos
    obtain ⟨t, ht, hok, htag, hv⟩ := result_of_feReg (rd := rd) (exec_fsub hf hg hm) hlt
    exact ⟨t, ht, hok, htag, hv ▸ hlt, hv ▸ residue_sub_add_mod ha _⟩

/-- Settles O25: MMUL's result is the product times the inverse of the radix, which an even modulus has not. -/
theorem multiplierResults : Obligations.MultiplierResults := by
  intro s rd rs1 rs2 f g inv hf hg hm
  have hpos : 0 < s.modOf f := Nat.zero_lt_of_lt (inv.element rs1 f hf).2
  refine ⟨result_of_feReg (exec_fmul hf hg hm) (Nat.mod_lt _ hpos), fun hodd => ?odd, raises_mmul_of_even hf hg hm⟩
  have hlt := Nat.mod_lt ((s.vreg rs1).value.toNat * (s.vreg rs2).value.toNat * montgomeryRinv (s.modOf f)) hpos
  obtain ⟨t, ht, hok, htag, hv⟩ := result_of_feReg (rd := rd) (exec_mmul_of_odd hf hg hm (by omega)) hlt
  exact ⟨t, ht, hok, htag, hv ▸ hlt, hv ▸ montgomery_mul_radix hodd (s.fieldSlot f).m.isLt _⟩

/-- Settles O26: FieldPow in closed form, with NEG of the exponent 0 the plain power. -/
theorem fpowResult : Obligations.FpowResult := by
  intro s rd rs1 rs2 f neg inv hf h2
  have hmod : 2 ≤ s.modOf f := inv.modulus f (inv.element rs1 f hf).1
  rw [← fieldPow_eq_ite hmod (s.modOf_le f)]
  exact result_of_feReg (exec_fpow neg hf h2) (fieldPow_lt hmod (s.modOf_le f) _ _ _)

/-- Settles O27: modulo a prime the Fermat quotient is the field quotient. -/
theorem fdivResult : Obligations.FdivResult := by
  intro s rd rs1 rs2 f g inv hp hf hg hm
  obtain ⟨hvalid, ha⟩ := inv.element rs1 f hf
  have hb := hm ▸ (inv.element rs2 g hg).2
  split
  next h0 => exact raises_fdiv_of_zero hf hg hm (congrArg BitVec.toNat h0)
  next h0 =>
    have hne : (s.vreg rs2).value.toNat ≠ 0 := fun h => h0 (BitVec.eq_of_toNat_eq h)
    have hlt : fermatQuotient (s.vreg rs1).value.toNat (s.vreg rs2).value.toNat (s.modOf f) < s.modOf f :=
      Nat.mod_lt _ (Nat.zero_lt_of_lt ha)
    obtain ⟨t, ht, hok, htag, hv⟩ := result_of_feReg (rd := rd) (exec_fdiv_of_ne_zero hf hg hm hne) hlt
    exact ⟨t, ht, hok, htag, hv ▸ hlt, hv ▸ fermatQuotient_mul_mod (hp f hvalid) (s.modOf_le f) ha hb hne⟩

/-- Settles O28: the comparison is of the values and the moduli. -/
theorem feqResult : Obligations.FeqResult := fun _ _ _ _ _ hf hg =>
  ⟨_, _, exec_feq hf hg, succeeded_completeOk _ _, by rw [Bool.and_eq_true, decide_eq_true_iff, decide_eq_true_iff]⟩

end Sys2Proof.Machine
end

section
/-! The point commands (42_point.md R120 to R133): the answer of each to operands it accepts, and the errors of the group
law, CurveMismatch and DivisionByZero. -/

namespace Sys2Proof.Machine

open Sys2Proof.Safety

/-! ### Commands that write a computed point -/

/-- The body that PADD, PDBL and PSMUL share after their reads: the point computed is written to `rd` (R126, R127, R129). -/
def State.writePoint (s : State) (rd : PIdx) (x : Except Err Point) : Except Err Staged := do
  let q ← x
  .ok ⟨s.setP rd q, false⟩

theorem exec_padd {s : State} {rd rs1 rs2 : PIdx} {A B : Point} (hA : s.preg rs1 = .pt A) (hB : s.preg rs2 = .pt B) :
    exec (.padd rd rs1 rs2) s = finish s (s.writePoint rd (s.pointAdd A B)) := by
  simp only [exec, execPadd, State.writePoint, State.readP_of_pt hA, State.readP_of_pt hB, bind_ok_left]

theorem exec_pdbl {s : State} {rd rs1 : PIdx} {A : Point} (hA : s.preg rs1 = .pt A) :
    exec (.pdbl rd rs1) s = finish s (s.writePoint rd (s.pointAdd A A)) := by
  simp only [exec, execPdbl, State.writePoint, State.readP_of_pt hA, bind_ok_left]

theorem exec_psmul {s : State} {rd rs1 : PIdx} {rs2 : VIdx} {A : Point} (hA : s.preg rs1 = .pt A) (hk : Written s rs2) :
    exec (.psmul rd rs1 rs2) s = finish s (s.writePoint rd (s.scalarMul A (s.vreg rs2).value.toNat)) := by
  simp only [exec, execPsmul, State.writePoint, State.readP_of_pt hA, State.readV_of_written hk, bind_ok_left]

section Computed

variable {i : Instr} {s : State} {rd : PIdx} {x : Except Err Point} (hb : exec i s = finish s (s.writePoint rd x))

include hb

theorem result_of_computed {P : Point → Prop} (h : ∃ q, x = .ok q ∧ P q) :
    ∃ t q, exec i s = .next t ∧ Succeeded t false ∧ P q ∧ t.preg rd = .pt q := by
  obtain ⟨q, rfl, hq⟩ := h
  exact ⟨_, q, exec_of_ok hb rfl, succeeded_completeOk _ _, hq, State.preg_setP_self s rd q⟩

theorem fails_of_computed {e : Err} (h : x = .error e) : ∃ t, exec i s = .next t ∧ Failed t e ∧ t.status.errcode = e.code := by
  subst h
  exact ⟨_, exec_of_error hb rfl, failed_completeErr s e, rfl⟩

theorem raises_of_computed {e : Err} (h : x = .error e) : Raises i s e := by
  obtain ⟨t, ht, hf, -⟩ := fails_of_computed hb h
  exact ⟨t, ht, hf⟩

end Computed

/-! ### CurveMismatch (R124, 43_ecdsa.md R148) -/

theorem pointAdd_of_not_compatible {s : State} {A B : Point} (h : ¬ s.CurveCompatible A.curve B.curve) :
    s.pointAdd A B = .error .curveMismatch := if_pos h

/-- VERIFY checks the key's curve once its operands are read, before it looks at r and s (43_ecdsa.md R148). -/
theorem raises_verify_of_not_compatible {s : State} {rd : PIdx} {rs1 rs2 rs3 : VIdx} {q : Point} (hq : s.preg rd = .pt q)
    (h1 : Written s rs1) (h2 : Written s rs2) (h3 : Written s rs3) (h : ¬ s.CurveCompatible q.curve 0) :
    Raises (.verify rd rs1 rs2 rs3) s .curveMismatch := by
  refine raises_of_error rfl ?_
  simp only [State.readP_of_pt hq, State.readV_of_written h1, State.readV_of_written h2, State.readV_of_written h3,
    require_of_not _ h, bind_ok_left, bind_error_left]

/-- Settles O18: the compatibility test is the first of PointAdd, and VERIFY's is with C0, whose key is (p, 0, 7). -/
theorem curveMismatchRaises : Obligations.CurveMismatchRaises :=
  ⟨fun _ _ _ _ _ _ hA hB h => fails_of_computed (exec_padd hA hB) (pointAdd_of_not_compatible h),
    fun _ _ _ _ _ _ hq h1 h2 h3 h => raises_verify_of_not_compatible hq h1 h2 h3 h⟩

/-! ### Doubling over GF(2) (R124, 90_conflicts.md C4) -/

theorem pointAdd_self_fails {s : State} {A : Point} (h : DoublingFails s A) : s.pointAdd A A = .error .divisionByZero := by
  cases A with
  | inf c => exact h.elim
  | aff c x y => exact pointAdd_fails h rfl

/-- C0 has the modulus p, which is not 2. -/
theorem curve_ne_zero_of_doublingFails {s : State} {A : Point} (h : DoublingFails s A) : A.curve ≠ 0 := fun h0 =>
  not_doublingFails_of_key (show s.curveKey A.curve = s.curveKey 0 by rw [h0]) h

/-- The scalar is not reduced, as the point is not on C0, so the loop makes a first turn (R128). -/
theorem scalarMul_fails {s : State} {A : Point} {k : Nat} (h : DoublingFails s A) (hk : k ≠ 0) :
    s.scalarMul A k = .error .divisionByZero := by
  rw [State.scalarMul, loopScalar_eq, if_neg (curve_ne_zero_of_doublingFails h)]
  cases A with
  | inf c => exact h.elim
  | aff c x y => exact scalarLoop_fails h hk

/-- Settles O19: each of the three commands doubles the point. -/
theorem doublingOverTwoRaises : Obligations.DoublingOverTwoRaises := by
  intro s rd rs1 A hA hf
  refine ⟨raises_of_computed (exec_pdbl hA) (pointAdd_self_fails hf), fun rs2 B hB hc hAB => ?padd, fun rs2 hk h0 =>
    raises_of_computed (exec_psmul hA hk) (scalarMul_fails hf (BitVec.toNat_ne_iff_ne.mpr h0))⟩
  case padd =>
    obtain ⟨c, d, x, y, rfl, rfl⟩ := hAB
    exact fails_of_computed (exec_padd hA hB) (pointAdd_fails hf hc)

/-! ### The group law (R124 to R129) -/

/-- Settles O32: PointAdd gives the relation's sum of two points below a prime modulus. -/
theorem paddResult : Obligations.PaddResult := by
  intro s rd rs1 rs2 A B inv hp hA hB hc hd
  refine result_of_computed (exec_padd hA hB) ?_
  rcases pointAdd_spec (prime_preg inv hp hA) hc (pointBelow_preg inv hA) (pointBelow_preg inv hB) with ⟨hf, hAB, -⟩ | h
  · exact absurd ⟨hf, hAB⟩ hd
  · exact h

/-- Settles O33: a curve is compatible with itself, so PointAdd gives the relation's sum. -/
theorem pdblResult : Obligations.PdblResult := by
  intro s rd rs1 A inv hp hA hd
  have hb := pointBelow_preg inv hA
  refine result_of_computed (exec_pdbl hA) ?_
  rcases pointAdd_spec (prime_preg inv hp hA) rfl hb hb with ⟨hf, -⟩ | h
  · exact absurd hf hd
  · exact h

/-- Settles O34: the slope modulo a prime is unique, and with it the third point. -/
theorem sumIsUnique : Obligations.SumIsUnique := fun _ _ _ _ _ hp hv h h' => groupLaw_unique (hp _ hv) h h'

/-- Settles O35: a point whose doubling fails has the scalar 0, and the loop makes no turn; for any other point the
loop and its relation go together. -/
theorem psmulResult : Obligations.PsmulResult := by
  intro s rd rs1 rs2 A inv hp hA hk hd
  refine result_of_computed (exec_psmul hA hk) ?_
  by_cases hf : DoublingFails s A
  · have h0 : (s.vreg rs2).value = 0 := not_not.mp fun h => hd ⟨hf, h⟩
    rw [h0]
    exact ⟨_, scalarMul_zero s A⟩
  · obtain ⟨q, hq, his, -⟩ := scalarMul_spec (prime_preg inv hp hA) (pointBelow_preg inv hA) hf (s.vreg rs2).value.isLt
    exact ⟨q, hq, his⟩

/-! ### PINF, PGEN and PMK (R121, R122, R130) -/

theorem exec_pinf {s : State} {c : CIdx} (rd : PIdx) (hv : (s.curveSlot c).valid = true) :
    exec (.pinf rd c) s = .next ((s.setP rd (.inf c)).completeOk false) := by
  simp only [exec, execPinf, require_of _ hv, bind_ok_left, finish_ok]

/-- Settles O29: the generator's digits are those of 00_scope.md R8. -/
theorem pinfAndPgenResults : Obligations.PinfAndPgenResults :=
  ⟨fun s rd c hv => ⟨_, exec_pinf rd hv, succeeded_completeOk _ _, State.preg_setP_self s rd (.inf c)⟩,
    fun s rd => ⟨_, rfl, succeeded_completeOk _ _, State.preg_setP_self s rd generator⟩⟩

/-- PMK of two elements of the curve's modulus comes down to the check of the equation (R122). -/
theorem exec_pmk {s : State} {rs1 rs2 : VIdx} {c : CIdx} {f g : FIdx} (rd : PIdx) (hv : (s.curveSlot c).valid = true)
    (hf : (s.vreg rs1).tag = .fe f) (hg : (s.vreg rs2).tag = .fe g) (hm : s.modOf f = (s.curveKey c).m)
    (hn : s.modOf g = (s.curveKey c).m) :
    exec (.pmk rd rs1 rs2 c) s = finish s (do
      require (s.OnCurve c (s.vreg rs1).value.toNat (s.vreg rs2).value.toNat) .pointNotOnCurve
      .ok ⟨s.setP rd (.aff c (s.vreg rs1).value (s.vreg rs2).value), false⟩) := by
  have h1 : Written s rs1 := by simp [hf]
  have h2 : Written s rs2 := by simp [hg]
  simp only [exec, execPmk, State.readV_of_written h1, State.readV_of_written h2, require_of _ hv, hf, hg, fieldOfTag_fe,
    require_of _ (And.intro hm hn), bind_ok_left]

/-- Settles O30: the curve's modulus is positive, so the residue that PMK tests is 0 exactly on the curve. -/
theorem pmkResult : Obligations.PmkResult := by
  intro s rd rs1 rs2 c f g inv hv hf hg hm hn
  have hpos : 0 < (s.curveKey c).m := hm ▸ Nat.zero_lt_of_lt (inv.element rs1 f hf).2
  rw [← onCurve_iff hpos]
  have hb := exec_pmk rd hv hf hg hm hn
  refine ⟨fun h => ?onCurve, fun h => ?offCurve⟩
  case onCurve =>
    rw [require_of _ h] at hb
    exact ⟨_, hb, succeeded_completeOk _ _, State.preg_setP_self s rd _⟩
  case offCurve =>
    rw [require_of_not _ h] at hb
    exact ⟨_, hb, failed_completeErr _ _, rfl⟩

/-! ### PEQ, PGETX, PGETY and PISINF (R123, R131 to R133) -/

theorem exec_peq {s : State} {rs1 rs2 : PIdx} {A B : Point} (hA : s.preg rs1 = .pt A) (hB : s.preg rs2 = .pt B) :
    exec (.peq rs1 rs2) s = .next (s.completeOk (s.pointEq A B)) := by
  simp only [exec, execPeq, State.readP_of_pt hA, State.readP_of_pt hB, bind_ok_left, finish_ok]

theorem pointEq_iff (s : State) (A B : Point) :
    s.pointEq A B = true ↔ (∃ c d, A = .inf c ∧ B = .inf d)
      ∨ ∃ c d x y, A = .aff c x y ∧ B = .aff d x y ∧ s.curveKey c = s.curveKey d := by
  cases A with
  | inf c => cases B <;> simp [State.pointEq]
  | aff c x y =>
    cases B with
    | inf d => simp [State.pointEq]
    | aff d x' y' => simp [State.pointEq, and_assoc, eq_comm (a := x), eq_comm (a := y)]

/-- Settles O31: the comparison case by case. -/
theorem peqResult : Obligations.PeqResult := fun s _ _ A B hA hB =>
  ⟨_, _, exec_peq hA hB, succeeded_completeOk _ _, pointEq_iff s A B⟩

theorem exec_pgetx {s : State} {rs1 : PIdx} {c : CIdx} {x y : U256} (rd : VIdx) (h : s.preg rs1 = .pt (.aff c x y)) :
    exec (.pgetx rd rs1) s = .next ((s.setV rd ⟨x, .fe (s.curveSlot c).f⟩).completeOk false) := by
  simp only [exec, execPgetx, State.readP_of_pt h, bind_ok_left, finish_ok]

theorem exec_pgety {s : State} {rs1 : PIdx} {c : CIdx} {x y : U256} (rd : VIdx) (h : s.preg rs1 = .pt (.aff c x y)) :
    exec (.pgety rd rs1) s = .next ((s.setV rd ⟨y, .fe (s.curveSlot c).f⟩).completeOk false) := by
  simp only [exec, execPgety, State.readP_of_pt h, bind_ok_left, finish_ok]

theorem exec_pisinf {s : State} {rs1 : PIdx} {q : Point} (h : s.preg rs1 = .pt q) :
    exec (.pisinf rs1) s = .next (s.completeOk q.isInf) := by
  simp only [exec, execPisinf, State.readP_of_pt h, bind_ok_left, finish_ok]

theorem isInf_iff (q : Point) : q.isInf = true ↔ ∃ c, q = .inf c := by
  cases q <;> simp [Point.isInf]

/-- Settles O36: a coordinate goes out with the tag of its curve's field slot. -/
theorem accessorResults : Obligations.AccessorResults := by
  refine ⟨fun s rd rs1 c x y h => ⟨?pgetx, ?pgety⟩, fun s rs1 q h => ?pisinf⟩
  case pgetx => exact ⟨_, exec_pgetx rd h, succeeded_completeOk _ _, State.vreg_setV_self s rd _⟩
  case pgety => exact ⟨_, exec_pgety rd h, succeeded_completeOk _ _, State.vreg_setV_self s rd _⟩
  case pisinf => exact ⟨_, _, exec_pisinf h, succeeded_completeOk _ _, isInf_iff q⟩

end Sys2Proof.Machine
end

section
/-! The inverse, the keys and the signatures (43_ecdsa.md R140 to R149): the answer of each command to operands it
accepts, and the round trip from SIGN through PUBKEY to VERIFY. -/

namespace Sys2Proof.Machine

open Sys2Proof.Safety

/-! ### Integers and keys in value registers -/

/-- An integer below a 256-bit bound fits in a value register. -/
theorem intReg_toNat {n : Nat} {bound : U256} (h : n < bound.toNat) : (intReg n).value.toNat = n := by
  rw [intReg, BitVec.toNat_ofNat, Nat.mod_eq_of_lt (h.trans bound.isLt)]

theorem written_of_intReg {s : State} {i : VIdx} {n : Nat} (h : s.vreg i = intReg n) : Written s i := by
  simp [h, intReg]

/-- The integers in [1, N − 1] are the keys (R144). -/
theorem validKey_of_lt {d : U256} (h0 : d ≠ 0) (h : d < Config.order) : ValidKey d.toNat :=
  ⟨Nat.pos_of_ne_zero (BitVec.toNat_ne_iff_ne.mpr h0), BitVec.lt_def.mp h⟩

theorem ValidKey.lt_pow {d : Nat} (h : ValidKey d) : d < 2 ^ 256 := h.2.trans Config.order.isLt

/-! ### MINV (R140, R141) -/

theorem exec_minv_of_some {s : State} {rs1 rs2 : VIdx} {x : Nat} (rd : VIdx) (h1 : Written s rs1) (h2 : Written s rs2)
    (hx : modInverse (s.vreg rs1).value.toNat (s.vreg rs2).value.toNat = some x) :
    exec (.minv rd rs1 rs2) s = .next ((s.setV rd (intReg x)).completeOk false) := by
  simp only [exec, execMinv, State.readV_of_written h1, State.readV_of_written h2, invertOrRaise_eq_ok.mpr hx,
    bind_ok_left, finish_ok]

theorem exec_minv_of_none {s : State} {rs1 rs2 : VIdx} (rd : VIdx) (h1 : Written s rs1) (h2 : Written s rs2)
    (hx : modInverse (s.vreg rs1).value.toNat (s.vreg rs2).value.toNat = none) :
    exec (.minv rd rs1 rs2) s = .next (s.completeErr .notInvertible) := by
  simp only [exec, execMinv, State.readV_of_written h1, State.readV_of_written h2, invertOrRaise, hx, bind_ok_left,
    bind_error_left, finish_error]

/-- There is no inverse modulo 0, and none of a number that shares a divisor with the modulus. -/
theorem modInverse_eq_none {a n : Nat} (hn : n < 2 ^ 256) (h : ¬ (n ≠ 0 ∧ Nat.gcd a n = 1)) :
    modInverse a n = none := by
  rcases Nat.eq_zero_or_pos n with rfl | h0
  · exact modInverse_zero a
  · have hg : Nat.gcd a n ≠ 1 := fun hg => h ⟨h0.ne', hg⟩
    simpa only [if_neg hg] using modInverse_spec a n h0 hn

/-- Settles O37: the extended Euclidean inverse of R140, which exists exactly if n > 0 and gcd(a, n) = 1. -/
theorem minvResult : Obligations.MinvResult := by
  intro s rd rs1 rs2 h1 h2
  have hn := (s.vreg rs2).value.isLt
  split
  case isTrue h =>
    obtain ⟨h0, hg⟩ := h
    have spec := modInverse_spec (s.vreg rs1).value.toNat _ (Nat.pos_of_ne_zero (BitVec.toNat_ne_iff_ne.mpr h0)) hn
    rw [if_pos hg] at spec
    obtain ⟨x, hx, hlt, hinv⟩ := spec
    refine ⟨_, exec_minv_of_some rd h1 h2 hx, succeeded_completeOk _ _, ?_⟩
    rw [State.vreg_completeOk, State.vreg_setV_self, BitVec.lt_def, intReg_toNat hlt]
    exact ⟨rfl, hlt, hinv⟩
  case isFalse h =>
    have hx := modInverse_eq_none hn (fun h' => h ⟨BitVec.toNat_ne_iff_ne.mp h'.1, h'.2⟩)
    exact ⟨_, exec_minv_of_none rd h1 h2 hx, failed_completeErr _ _, rfl⟩

/-! ### KEYGEN (R142, R143, 20_memory.md R55) -/

/-- Reading digits to base 256 with the most significant first gives their sum by place value. -/
theorem foldl_digits_eq_sum : ∀ {n : Nat} (f : Fin n → Nat) (acc : Nat),
    ((List.finRange n).map f).foldl (fun acc x => acc * 256 + x) acc
      = acc * 256 ^ n + ((List.finRange n).map fun i => f i * 256 ^ (n - 1 - i.val)).sum := by
  intro n
  induction n with
  | zero => simp
  | succ n ih =>
    intro f acc
    have hexp : ∀ i : Fin n, n - (i.val + 1) = n - 1 - i.val := fun i => by omega
    have htail := ih (fun i => f i.succ) (acc * 256 + f 0)
    simp only [List.finRange_succ, List.map_cons, List.map_map, List.foldl_cons, List.sum_cons, Function.comp_def,
      Fin.val_zero, Fin.val_succ, Nat.add_sub_cancel, Nat.sub_zero, hexp, htail]
    ring

/-- The integer of an answer, byte by byte (20_memory.md R55). -/
theorem rawOfBytes_eq_sum (b : Vector Byte 32) :
    rawOfBytes b = ((List.finRange 32).map fun i => (b.get i).toNat * 256 ^ (31 - i.val)).sum := by
  have hb : b.toList.map BitVec.toNat = (List.finRange 32).map fun i => (b.get i).toNat := by
    apply List.ext_getElem <;> simp [Vector.get_eq_getElem]
  rw [rawOfBytes, ← List.foldl_map, hb, foldl_digits_eq_sum, Nat.zero_mul, Nat.zero_add]

/-- Settles O38: KEYGEN checks nothing, and the scalar of any draw is a key. -/
theorem keygenResult : Obligations.KeygenResult := by
  refine ⟨fun s rd => ⟨_, rfl, succeeded_completeOk _ _, ?_⟩, fun g b rest h => ?_⟩
  · obtain ⟨hpos, hlt⟩ := nonce_range s.rng.draw.1
    rw [State.vreg_completeOk, State.vreg_setV_self, intReg_toNat hlt]
    exact ⟨rfl, rfl, Rng.draw_drawn _, Nat.pos_of_ne_zero hpos, hlt⟩
  · simp only [Rng.draw, h]
    exact ⟨rawOfBytes_eq_sum b, trivial⟩

/-! ### PUBKEY (R145) -/

theorem exec_pubkey {s : State} {rs1 : VIdx} (rd : PIdx) (h1 : Written s rs1) (hk : ValidKey (s.vreg rs1).value.toNat) :
    exec (.pubkey rd rs1) s = finish s (s.writePoint rd (s.scalarMul generator (s.vreg rs1).value.toNat)) := by
  simp only [exec, execPubkey, State.writePoint, State.readV_of_written h1, require_of _ hk, bind_ok_left]

/-- The loop of R128 makes one turn for the scalar 1 and ends with the point itself. -/
theorem scalarMulIs_generator_one {s : State} {q : Point} (h : ScalarMulIs s generator 1 q) : q = generator := by
  change DoubleAndAdd s 1 (.inf 0) generator q at h
  cases h with
  | odd _ _ _ sum _ _ _ _ hadd _ hend =>
    cases hadd.2
    cases hend with
    | done => rfl
    | odd => contradiction
    | even => contradiction
  | even => contradiction

/-- A key's multiple of G is affine, because G has order N (R149.5). -/
theorem generator_key_affine (s : State) {d : Nat} (hd : ValidKey d) :
    ∃ x y, s.scalarMul generator d = .ok (.aff 0 x y) ∧ ScalarMulIs s generator d (.aff 0 x y)
      ∧ PointBelow s (.aff 0 x y) := by
  obtain ⟨q, hq, his, hc, hb⟩ := generator_scalarMul s hd.lt_pow
  cases q with
  | inf c => exact absurd (Nat.le_of_dvd hd.1 (generator_multiple_affine his)) (Nat.not_le.mpr hd.2)
  | aff c x y =>
    obtain rfl : c = 0 := hc
    exact ⟨x, y, hq, his, hb⟩

/-- PUBKEY of a key writes its multiple of G, an affine point of C0. -/
theorem pubkey_key {s : State} {rs1 : VIdx} (rd : PIdx) (h1 : Written s rs1) (hk : ValidKey (s.vreg rs1).value.toNat) :
    ∃ x y, exec (.pubkey rd rs1) s = .next ((s.setP rd (.aff 0 x y)).completeOk false)
      ∧ ScalarMulIs s generator (s.vreg rs1).value.toNat (.aff 0 x y) ∧ PointBelow s (.aff 0 x y) := by
  obtain ⟨x, y, hq, his, hb⟩ := generator_key_affine s hk
  exact ⟨x, y, exec_of_ok (exec_pubkey rd h1 hk) (by rw [hq]; rfl), his, hb⟩

/-- Settles O39: the loop and its relation go together, and for the scalar 1 the relation ends at G. -/
theorem pubkeyResult : Obligations.PubkeyResult := by
  intro s rd rs1 h1 h0 hlt
  obtain ⟨x, y, hex, his, -⟩ := pubkey_key rd h1 (validKey_of_lt h0 hlt)
  refine ⟨_, _, hex, succeeded_completeOk _ _, his, State.preg_setP_self s rd _, fun hone => ?_⟩
  rw [hone] at his
  exact scalarMulIs_generator_one his

/-- Settles O40: N divides no key, and a multiple of G is at infinity only for a multiple of N. -/
theorem pubkeyIsNeverInfinity : Obligations.PubkeyIsNeverInfinity := by
  intro s rd rs1 h1 h0 hlt
  obtain ⟨x, y, hex, -⟩ := pubkey_key rd h1 (validKey_of_lt h0 hlt)
  exact ⟨_, x, y, hex, State.preg_setP_self s rd _⟩

/-! ### SIGN (R146, R147) -/

theorem exec_sign {s : State} {rd rs1 rs2 rs3 : VIdx} (hne : rd ≠ rs3) (h1 : Written s rs1) (h2 : Written s rs2)
    (hk : ValidKey (s.vreg rs2).value.toNat) {r : SignResult}
    (hr : s.signLoop (s.vreg rs1).value.toNat (s.vreg rs2).value.toNat s.params.nonceMaxAttempts 0 s.rng = r) :
    exec (.sign rd rs1 rs2 rs3) s = finish (s.afterNonces r) ((s.afterNonces r).writeSignature rd rs3 r.sig) := by
  simp only [exec, execSign, signOperands_eq_ok.mpr ⟨hne, h1, h2, hk, rfl⟩, hr]

theorem signAttempt_of_degenerate {s : State} {z d n : Nat} (h : NonceDegenerate s z d (nonceAt s n)) :
    s.signAttempt z d (nonceAt s n) = .ok none := by
  obtain ⟨r, t, hg, hzero⟩ := h
  obtain ⟨h0, hlt⟩ := nonce_range (s.rng.skip n).draw.1
  exact (signAttempt_of_gives h0 hlt hg).trans (by rw [if_pos hzero])

theorem signAttempt_of_signature {s : State} {z d n r t : Nat} (h : NonceGives s z d (nonceAt s n) r t) (hr : r ≠ 0)
    (ht : t ≠ 0) : s.signAttempt z d (nonceAt s n) = .ok (some (r, t)) := by
  obtain ⟨h0, hlt⟩ := nonce_range (s.rng.skip n).draw.1
  exact (signAttempt_of_gives h0 hlt h).trans (by rw [if_neg (not_or.mpr ⟨hr, ht⟩)])

/-- The loop with degenerate nonces only. -/
theorem signLoop_of_degenerate {s : State} {z d left : Nat}
    (h : ∀ j, j < left → NonceDegenerate s z d (nonceAt s j)) :
    s.signLoop z d left 0 s.rng = ⟨s.rng.skip left, left, .error .nonceExhausted⟩ := by
  obtain ⟨n, -, -, ⟨-, he⟩ | ⟨hlt, p, hp, -⟩⟩ := signLoop_cases s z d left 0 s.rng
  · rw [he, Nat.zero_add]
  · cases hp.symm.trans (signAttempt_of_degenerate (h n hlt))

/-- The loop with `n` degenerate nonces before one that gives a signature. -/
theorem signLoop_of_signature {s : State} {z d left n r t : Nat} (hn : n < left)
    (h : ∀ j, j < n → NonceDegenerate s z d (nonceAt s j)) (hg : NonceGives s z d (nonceAt s n) r t) (hr : r ≠ 0)
    (ht : t ≠ 0) : s.signLoop z d left 0 s.rng = ⟨s.rng.skip (n + 1), n + 1, .ok (r, t)⟩ := by
  have hsig := signAttempt_of_signature hg hr ht
  obtain ⟨m, -, hall, hend⟩ := signLoop_cases s z d left 0 s.rng
  have hle : m ≤ n := Nat.not_lt.mp fun hlt => by cases hsig.symm.trans (hall n hlt)
  rcases hend with ⟨rfl, -⟩ | ⟨-, p, hp, he⟩
  · omega
  · rcases Nat.lt_or_eq_of_le hle with hlt | rfl
    · cases hp.symm.trans (signAttempt_of_degenerate (h m hlt))
    · cases hsig.symm.trans hp
      rw [he, Nat.zero_add]

/-- The r and s of a nonce are residues modulo N. -/
theorem nonceGives_lt_order {s : State} {z d k r t : Nat} (h : NonceGives s z d k r t) :
    r < Config.order.toNat ∧ t < Config.order.toNat := by
  obtain ⟨x, y, -, rfl, ht, -⟩ := h
  exact ⟨Nat.mod_lt _ prime_order.pos, ht⟩

theorem attempts_toNat {n : Nat} (h : n ≤ 65535) : (BitVec.ofNat 16 n).toNat = n := by
  rw [BitVec.toNat_ofNat, Nat.mod_eq_of_lt (by omega)]

/-- Settles O41: the loop ends at the first nonce that is not degenerate, and SIGN commits its r and s. -/
theorem signResult : Obligations.SignResult := by
  intro s rd rs1 rs2 rs3 n r u hl hne h1 h2 h0 hlt hn hdeg hg hr hu
  obtain ⟨-, -, -, hmax⟩ := hl
  obtain ⟨hrN, huN⟩ := nonceGives_lt_order hg
  have hex := exec_sign hne h1 h2 (validKey_of_lt h0 hlt) (signLoop_of_signature hn hdeg hg hr hu)
  refine ⟨_, hex.trans (finish_ok _ _), succeeded_completeOk _ _, ?_⟩
  rw [State.vreg_completeOk, State.vreg_completeOk, State.vreg_setV_of_ne _ _ hne, State.vreg_setV_self,
    State.vreg_setV_self, intReg_toNat hrN, intReg_toNat huN]
  exact ⟨rfl, rfl, rfl, rfl, attempts_toNat (n := n + 1) (by omega), rfl⟩

/-- Settles O42: the loop runs out of attempts, and ATTEMPTS is kept although SIGN fails. -/
theorem signExhaustsNonces : Obligations.SignExhaustsNonces := by
  intro s rd rs1 rs2 rs3 hl hne h1 h2 h0 hlt hdeg
  obtain ⟨-, -, -, hmax⟩ := hl
  have hex := exec_sign hne h1 h2 (validKey_of_lt h0 hlt) (signLoop_of_degenerate hdeg)
  exact ⟨_, hex.trans (finish_error _ _), failed_completeErr _ _, rfl, attempts_toNat hmax, rfl⟩

/-! ### A signature that SIGN has written (R147, R149.3) -/

/-- SIGN, run in `s`, has ended in `t` with the signature (r, u) of the nonce `k`. -/
structure SignedWith (s t : State) (rd rs1 rs2 rs3 : VIdx) (k r u : Nat) : Prop where
  hash : Written s rs1
  key : Written s rs2 ∧ ValidKey (s.vreg rs2).value.toNat
  gives : NonceGives s (s.vreg rs1).value.toNat (s.vreg rs2).value.toNat k r u
  nonce : ValidKey k
  nonzero : r ≠ 0 ∧ u ≠ 0
  written : t.vreg rd = intReg r ∧ t.vreg rs3 = intReg u
  others : ∀ i, i ≠ rd → i ≠ rs3 → t.vreg i = s.vreg i

/-- A signature that the loop ends with comes from a nonce. -/
theorem signLoop_signature {s : State} {z d left : Nat} {g : Rng} {n : Nat} {p : Nat × Nat}
    (h : s.signLoop z d left 0 s.rng = ⟨g, n, .ok p⟩) :
    ∃ k, ValidKey k ∧ NonceGives s z d k p.1 p.2 ∧ p.1 ≠ 0 ∧ p.2 ≠ 0 := by
  obtain ⟨m, -, -, ⟨-, he⟩ | ⟨-, p', hp, he⟩⟩ := signLoop_cases s z d left 0 s.rng
  · cases h.symm.trans he
  · cases h.symm.trans he
    obtain ⟨h0, hlt⟩ := nonce_range (s.rng.skip m).draw.1
    rcases signAttempt_cases (s := s) (z := z) (d := d) h0 hlt with hnone | ⟨r, t, hsome, hg, hr, ht⟩
    · cases hp.symm.trans hnone
    · cases hp.symm.trans hsome
      exact ⟨_, ⟨Nat.pos_of_ne_zero h0, hlt⟩, hg, hr, ht⟩

/-- A completion of SIGN without an error has written the signature of a nonce. -/
theorem signedWith_of_exec {s t : State} {rd rs1 rs2 rs3 : VIdx} (h : exec (.sign rd rs1 rs2 rs3) s = .next t)
    (herr : t.status.err = false) : ∃ k r u, SignedWith s t rd rs1 rs2 rs3 k r u := by
  rcases exec_cases (.sign rd rs1 rs2 rs3) s with ⟨e, hex⟩ | ⟨_, _, _, _, _, e, -, -, -, -, hex⟩ | ⟨st, b, hex, he⟩ <;>
    rw [hex] at h <;> cases h
  · cases herr
  · cases herr
  · obtain ⟨hne, h1, h2, hkey, _, g, n, ⟨r, u⟩, hloop, rfl, rfl, -⟩ := he
    obtain ⟨k, hk, hg, hr, hu⟩ := signLoop_signature hloop
    refine ⟨k, r, u, h1, ⟨h2, hkey⟩, hg, hk, ⟨hr, hu⟩, ?_, fun i hi hi' => ?_⟩
    · rw [State.vreg_completeOk, State.vreg_completeOk, State.vreg_setV_of_ne _ _ hne, State.vreg_setV_self,
        State.vreg_setV_self]
      exact ⟨rfl, rfl⟩
    · rw [State.vreg_completeOk, State.vreg_setV_of_ne _ _ hi', State.vreg_setV_of_ne _ _ hi, State.vreg_afterNonces]

/-- The r and u of a nonce are residues modulo N, and SIGN keeps none that is 0. -/
theorem SignedWith.inRange {s t : State} {rd rs1 rs2 rs3 : VIdx} {k r u : Nat}
    (h : SignedWith s t rd rs1 rs2 rs3 k r u) : SignatureInRange r u := by
  obtain ⟨hr, hu⟩ := h.nonzero
  obtain ⟨hrN, huN⟩ := nonceGives_lt_order h.gives
  exact ⟨⟨by omega, by omega⟩, by omega, by omega⟩

/-- Settles O43: SIGN writes the signature of a nonce, as integers. -/
theorem signatureIsInRange : Obligations.SignatureIsInRange := by
  intro s t rd rs1 rs2 rs3 hex herr
  obtain ⟨k, r, u, sig⟩ := signedWith_of_exec hex herr
  obtain ⟨hrN, huN⟩ := nonceGives_lt_order sig.gives
  obtain ⟨⟨hr1, hr2⟩, hu1, hu2⟩ := sig.inRange
  rw [sig.written.1, sig.written.2, intReg_toNat hrN, intReg_toNat huN]
  exact ⟨rfl, hr1, hr2, rfl, hu1, hu2⟩

/-! ### VERIFY (R148) -/

/-- VERIFY completes with its verdict, and this is the relation's (R148, R167). -/
theorem verify_verdict {s : State} {rd : PIdx} {rs1 rs2 rs3 : VIdx} {q : Point} (hq : s.preg rd = .pt q)
    (h1 : Written s rs1) (h2 : Written s rs2) (h3 : Written s rs3) (hc : IsSecp s q.curve) (hb : PointBelow s q) :
    ∃ v, exec (.verify rd rs1 rs2 rs3) s = .next (s.completeOk v)
      ∧ (v = true ↔ SignatureInRange (s.vreg rs2).value.toNat (s.vreg rs3).value.toNat
        ∧ VerifyAccepts s q (s.vreg rs1).value.toNat (s.vreg rs2).value.toNat (s.vreg rs3).value.toNat) := by
  obtain ⟨v, hv, hiff⟩ := verdict_spec (z := (s.vreg rs1).value.toNat) (r := (s.vreg rs2).value.toNat)
    (t := (s.vreg rs3).value.toNat) hc hb
  have hcomp : s.CurveCompatible q.curve 0 := hc
  refine ⟨v, ?_, hiff⟩
  simp only [exec, execVerify, State.readP_of_pt hq, State.readV_of_written h1, State.readV_of_written h2,
    State.readV_of_written h3, require_of _ hcomp, hv, bind_ok_left, finish_ok]

/-- Settles O44: the invariant bounds the key's coordinates, and the verdict is the relation's. -/
theorem verifyResult : Obligations.VerifyResult := by
  intro s rd rs1 rs2 rs3 q inv hq h1 h2 h3 hc
  obtain ⟨v, hex, hiff⟩ := verify_verdict hq h1 h2 h3 hc (pointBelow_preg inv hq)
  exact ⟨_, v, hex, succeeded_completeOk _ _, hiff.trans and_assoc⟩

/-! ### The round trip (R149.1) -/

/-- u·G + v·Q can be formed for every point Q of secp256k1. -/
theorem combination_exists {s : State} {q : Point} (hc : IsSecp s q.curve) (hb : PointBelow s q) {u v : Nat}
    (hu : u < 2 ^ 256) (hv : v < 2 ^ 256) :
    ∃ A B S, (ScalarMulIs s generator u A ∧ A.curve = 0 ∧ PointBelow s A)
      ∧ (ScalarMulIs s q v B ∧ B.curve = q.curve ∧ PointBelow s B) ∧ PointAddIs s A B S := by
  have hp : (s.curveKey q.curve).m.Prime := hc ▸ prime_p
  obtain ⟨A, -, hA, hAc, hAb⟩ := generator_scalarMul s hu
  obtain ⟨B, -, hB, hBc, hBb⟩ := scalarMul_spec hp hb (not_doublingFails_of_key hc) hv
  have hAk : IsSecp s A.curve := by rw [hAc]; rfl
  have hcomp : s.CurveCompatible A.curve B.curve := by rw [State.CurveCompatible, hBc, hAk, hc]
  rcases pointAdd_spec (hAk ▸ prime_p) hcomp hAb hBb with ⟨hf, -⟩ | ⟨S, -, hS⟩
  · exact absurd hf (not_doublingFails_of_key hAk)
  · exact ⟨A, B, S, ⟨hA, hAc, hAb⟩, ⟨hB, hBc, hBb⟩, hcomp, hS⟩

/-- With w the inverse of t and t·k = z + r·d, the scalars of VERIFY add up to the nonce: z·w + (r·w)·d = k modulo N. -/
theorem verify_scalars_eq_nonce {m z d k r t w : Nat} (hw : w * t % m = 1 % m) (h : t * k % m = (z + r * d) % m) :
    (z * w % m + r * w % m * d) % m = k % m := by
  have hscalars : z * w % m + r * w % m * d ≡ z * w + r * w * d [MOD m] :=
    (Nat.mod_modEq _ _).add ((Nat.mod_modEq _ _).mul_right d)
  have hnonce : z + r * d ≡ t * k [MOD m] := h.symm
  have hinv : w * t ≡ 1 [MOD m] := hw
  calc z * w % m + r * w % m * d ≡ z * w + r * w * d [MOD m] := hscalars
    _ = w * (z + r * d) := by ring
    _ ≡ w * (t * k) [MOD m] := hnonce.mul_left w
    _ = w * t * k := by ring
    _ ≡ 1 * k [MOD m] := hinv.mul_right k
    _ = k := Nat.one_mul k

/-- The signature of a nonce is accepted under the key's point d·G: u·G + v·(d·G) is the point k·G. -/
theorem verifyAccepts_of_nonceGives {s s' s'' : State} {z d k r t : Nat} {D : Point} (hg : NonceGives s z d k r t)
    (hk : ValidKey k) (ht : t ≠ 0) (hD : ScalarMulIs s' generator d D) (hDc : D.curve = 0) (hDb : PointBelow s'' D) :
    VerifyAccepts s'' D z r t := by
  obtain ⟨x, y, hR, hr, htN, he⟩ := hg
  obtain ⟨x', y', -, hR', hRb⟩ := generator_key_affine s hk
  obtain ⟨w, -, -, htw⟩ := modInverse_order ht htN
  have hw : w * t % Config.order.toNat = 1 := by rw [Nat.mul_comm, htw]
  have hmod : ∀ n, n % Config.order.toNat < 2 ^ 256 := fun n => (Nat.mod_lt n prime_order.pos).trans Config.order.isLt
  obtain ⟨A, B, S, ⟨hA, hAc, hAb⟩, ⟨hB, hBc, hBb⟩, hcomp, hS⟩ :=
    combination_exists (by rw [hDc]; rfl) hDb (hmod (z * w)) (hmod (r * w))
  have hnonce := verify_scalars_eq_nonce (hw.trans (by decide)) he
  cases scalarMulIs_unique (pt := generator) (prime_curveKey_zero s) hR' hR
  obtain rfl : S = .aff 0 x y :=
    combination_eq hD hDc hDb hA hAc hAb hB (hBc.trans hDc) hBb hS hR rfl hRb hnonce
  exact ⟨w, 0, x, y, A, B, hw, hA, hB, ⟨hcomp, hS⟩, hr.symm⟩

/-- Settles O45: PUBKEY writes d·G, and VERIFY accepts the signature of the nonce under it. -/
theorem signVerifyRoundTrip : Obligations.SignVerifyRoundTrip := by
  intro s t u pq vz vd vr vs hzr hzs hdr hds hsign herr hpub
  obtain ⟨k, r, n, sig⟩ := signedWith_of_exec hsign herr
  obtain ⟨hrN, hnN⟩ := nonceGives_lt_order sig.gives
  have hd : t.vreg vd = s.vreg vd := sig.others vd hdr hds
  have hkey : Written t vd ∧ ValidKey (t.vreg vd).value.toNat := by rw [Written, hd]; exact sig.key
  obtain ⟨x, y, hex, his, hb⟩ := pubkey_key pq hkey.1 hkey.2
  have hu : u = (t.setP pq (.aff 0 x y)).completeOk false := Host.Outcome.next.inj (hpub.symm.trans hex)
  have hpq : u.preg pq = .pt (.aff 0 x y) := by rw [hu]; exact State.preg_setP_self t pq _
  have hz : u.vreg vz = s.vreg vz := by rw [hu]; exact sig.others vz hzr hzs
  have hr : u.vreg vr = intReg r := by rw [hu]; exact sig.written.1
  have hn : u.vreg vs = intReg n := by rw [hu]; exact sig.written.2
  have hhash : Written u vz := by rw [Written, hz]; exact sig.hash
  obtain ⟨v, hverify, hiff⟩ := verify_verdict hpq hhash (written_of_intReg hr) (written_of_intReg hn) rfl hb
  rw [hz, hr, hn, intReg_toNat hrN, intReg_toNat hnN] at hiff
  rw [hd] at his
  obtain rfl : v = true :=
    hiff.mpr ⟨sig.inRange, verifyAccepts_of_nonceGives sig.gives sig.nonce sig.nonzero.2 his rfl hb⟩
  exact ⟨_, hverify, succeeded_completeOk _ _⟩

end Sys2Proof.Machine
end

section
/-! The command cycle and the errors of a command (60_exceptions.md R160 to R167): every command completes, an error commits
nothing, an unwritten source is noticed first, and a command raises only what R160 lists for it. -/

namespace Sys2Proof.Machine

open Sys2Proof.Safety

/-! ### Completion (R162, 70_reset_and_hazards.md R197) -/

theorem coreStep_answers (s : State) : ∃ t, coreStep s = .next t := by
  rcases coreStep_cases s with ⟨e, h⟩ | ⟨r, e, h⟩ | ⟨i, st, b, -, h, -⟩ <;> exact ⟨_, h⟩

theorem coreMove_answers (s : State) : ∃ t, coreMove s = .next t := by
  unfold coreMove
  split
  · exact coreStep_answers s
  · exact ⟨s, rfl⟩

/-- Every move of an agent has an effect (20_memory.md R51). -/
theorem step_answers (s : State) : ∃ t, step s = .next t := by
  unfold step nextMove
  split
  · exact coreMove_answers s
  · exact coreMove_answers _
  · exact ⟨_, rfl⟩
  · exact ⟨_, rfl⟩
  · exact ⟨_, rfl⟩

theorem coreStep_not_busy {s t : State} (h : coreStep s = .next t) : t.status.busy = false := by
  obtain ⟨⟨_, hb, -⟩ | ⟨_, hb, -⟩, -⟩ := coreStep_frame h <;> exact hb

/-- Settles O7: each kind of move answers, and the core's move is the completion of a command. -/
theorem stepAnswersAndCommandsEnd : Obligations.StepAnswersAndCommandsEnd := by
  refine ⟨step_answers, fun s rest hn => ?_⟩
  obtain ⟨t, ht⟩ := coreStep_answers { s with agenda := rest }
  exact ⟨t, (step_of_coreNext hn).trans ht, coreStep_not_busy ht, coreStep_done ht⟩

/-- Settles O8: an error completes the state found or the one after SIGN's nonces, and a success the effect's. -/
theorem everyCommandCompletes : Obligations.EveryCommandCompletes := by
  intro i s
  rcases exec_cases i s with ⟨e, h⟩ | ⟨_, _, _, _, r, e, -, -, -, -, h⟩ | ⟨st, b, h, he⟩
  · exact ⟨_, h, .inr ⟨e, failed_completeErr _ _, rfl⟩, rfl, rfl, rfl, rfl, rfl, rfl, rfl, rfl, rfl⟩
  · exact ⟨_, h, .inr ⟨e, failed_completeErr _ _, rfl⟩, rfl, rfl, rfl, rfl, rfl, rfl, rfl, rfl, rfl⟩
  · obtain ⟨hstatus, hie, hcmd, hparams, hpin, hagenda, hreads, hfree, hovr, herr⟩ := effect_frame he
    exact ⟨_, h, .inl ⟨b, succeeded_completeOk _ _, herr⟩, (congrArg Status.ovr hstatus :), hie, hcmd, hparams, hpin, hagenda,
      hreads, hfree, hovr⟩

/-- An error commits nothing: SIGN's nonces leave the registers and slots alone too (R162). -/
theorem sameRegs_of_exec_failed {i : Instr} {s t : State} (h : exec i s = .next t) (herr : t.status.err = true) :
    SameRegs s t := by
  rcases exec_cases i s with ⟨e, hex⟩ | ⟨_, _, _, _, r, e, -, -, -, -, hex⟩ | ⟨st, b, hex, -⟩ <;> rw [hex] at h <;> cases h
  · exact ⟨rfl, rfl, rfl, rfl, rfl, rfl, rfl⟩
  · exact ⟨rfl, rfl, rfl, rfl, rfl, rfl, rfl⟩
  · cases herr

/-- Settles O9: the registers and slots are those found. -/
theorem failedCommandCommitsNothing : Obligations.FailedCommandCommitsNothing := by
  intro i s t h herr
  have same := sameRegs_of_exec_failed h herr
  obtain ⟨-, -, hf, -, hc, -⟩ := sameRegs_reads same
  obtain ⟨hv, hp, -⟩ := same
  exact ⟨hv, hp, hf, hc⟩

/-! ### Errors of SIGN before its nonces (43_ecdsa.md R147) -/

theorem exec_sign_of_signOperands_error {s : State} {rd rs1 rs2 rs3 : VIdx} {e : Err}
    (h : s.signOperands rd rs1 rs2 rs3 = .error e) : exec (.sign rd rs1 rs2 rs3) s = .next (s.completeErr e) := by
  simp only [exec, execSign, h, finish_error]

/-! ### Unwritten sources (R163) -/

/-- A source of value registers `vs` and point registers `ps` is unwritten. -/
def Missing (s : State) (vs : List VIdx) (ps : List PIdx) : Prop :=
  (∃ j ∈ vs, ¬ Written s j) ∨ ∃ j ∈ ps, s.preg j = .unwritten

namespace Missing

variable {s : State} {i j : VIdx} {vs : List VIdx} {k : PIdx} {ps : List PIdx} {α : Type}

theorem elim {P : Prop} (h : Missing s [] []) : P := by simp [Missing] at h

/-- Reading the first value source raises UnwrittenOperand if it is the unwritten one, and else the rest has to. -/
theorem readV (h : Missing s (i :: vs) ps) {rest : VReg → Except Err α}
    (hrest : ∀ x, Missing s vs ps → rest x = .error .unwrittenOperand) :
    (s.readV i >>= rest) = .error .unwrittenOperand := by
  by_cases hi : (s.vreg i).tag = .unwritten
  · rw [State.readV_of_unwritten hi, bind_error_left]
  · rw [State.readV_of_written hi, bind_ok_left]
    refine hrest _ (h.imp_left ?_)
    rintro ⟨j, hj, hw⟩
    rcases List.mem_cons.mp hj with rfl | hj
    · exact absurd hi hw
    · exact ⟨j, hj, hw⟩

/-- The same of the first point source. -/
theorem readP (h : Missing s vs (k :: ps)) {rest : Point → Except Err α}
    (hrest : ∀ q, Missing s vs ps → rest q = .error .unwrittenOperand) :
    (s.readP k >>= rest) = .error .unwrittenOperand := by
  cases hk : s.preg k with
  | unwritten => rw [State.readP_of_unwritten hk, bind_error_left]
  | pt q =>
    rw [State.readP_of_pt hk, bind_ok_left]
    refine hrest q (h.imp_right ?_)
    rintro ⟨j, hj, hu⟩
    rcases List.mem_cons.mp hj with rfl | hj
    · cases hk.symm.trans hu
    · exact ⟨j, hj, hu⟩

theorem readFieldPair (h : Missing s [i, j] []) (rest : FieldPair → Except Err α) :
    (s.readFieldPair i j >>= rest) = .error .unwrittenOperand :=
  bind_eq_error.mpr (.inl (h.readV fun _ h => h.readV fun _ h => h.elim))

end Missing

/-- Every well-formed command reads its sources before it checks anything else. -/
theorem exec_of_missing {i : Instr} {s : State} (hw : WellFormed i) (h : Missing s (valueSources i) (pointSources i)) :
    exec i s = .next (s.completeErr .unwrittenOperand) := by
  cases i with
  | nop => exact h.elim
  | mov rd rs1 => exact exec_of_error rfl (h.readV fun _ h => h.elim)
  | pmov rd rs1 => exact exec_of_error rfl (h.readP fun _ h => h.elim)
  | setmod f rs1 =>
    have hf : 2 ≤ f.val := of_decide_eq_true hw
    refine exec_of_error rfl ?_
    rw [require_of _ hf, bind_ok_left]
    exact h.readV fun _ h => h.elim
  | setcrv c rs1 rs2 =>
    have hc : c ≠ 0 := fun h0 => of_decide_eq_true hw (congrArg Fin.val h0)
    refine exec_of_error rfl ?_
    rw [require_of _ hc, bind_ok_left]
    exact h.readV fun _ h => h.readV fun _ h => h.elim
  | fmk rd rs1 f => exact exec_of_error rfl (h.readV fun _ h => h.elim)
  | fadd rd rs1 rs2 => exact exec_of_error rfl (h.readFieldPair _)
  | fsub rd rs1 rs2 => exact exec_of_error rfl (h.readFieldPair _)
  | fmul rd rs1 rs2 => exact exec_of_error rfl (h.readFieldPair _)
  | mmul rd rs1 rs2 => exact exec_of_error rfl (h.readFieldPair _)
  | fpow rd rs1 rs2 neg => exact exec_of_error rfl (h.readV fun _ h => h.readV fun _ h => h.elim)
  | fdiv rd rs1 rs2 => exact exec_of_error rfl (h.readFieldPair _)
  | feq rs1 rs2 => exact exec_of_error rfl (h.readV fun _ h => h.readV fun _ h => h.elim)
  | pinf rd c => exact h.elim
  | pmk rd rs1 rs2 c => exact exec_of_error rfl (h.readV fun _ h => h.readV fun _ h => h.elim)
  | peq rs1 rs2 => exact exec_of_error rfl (h.readP fun _ h => h.readP fun _ h => h.elim)
  | padd rd rs1 rs2 => exact exec_of_error rfl (h.readP fun _ h => h.readP fun _ h => h.elim)
  | pdbl rd rs1 => exact exec_of_error rfl (h.readP fun _ h => h.elim)
  | psmul rd rs1 rs2 => exact exec_of_error rfl (h.readP fun _ h => h.readV fun _ h => h.elim)
  | pgen rd => exact h.elim
  | pgetx rd rs1 => exact exec_of_error rfl (h.readP fun _ h => h.elim)
  | pgety rd rs1 => exact exec_of_error rfl (h.readP fun _ h => h.elim)
  | pisinf rs1 => exact exec_of_error rfl (h.readP fun _ h => h.elim)
  | minv rd rs1 rs2 => exact exec_of_error rfl (h.readV fun _ h => h.readV fun _ h => h.elim)
  | keygen rd => exact h.elim
  | pubkey rd rs1 => exact exec_of_error rfl (h.readV fun _ h => h.elim)
  | sign rd rs1 rs2 rs3 =>
    have hne : rd ≠ rs3 := of_decide_eq_true hw
    refine exec_sign_of_signOperands_error ?_
    rw [State.signOperands, require_of _ hne, bind_ok_left]
    exact h.readV fun _ h => h.readV fun _ h => h.elim
  | verify rd rs1 rs2 rs3 =>
    exact exec_of_error rfl (h.readP fun _ h => h.readV fun _ h => h.readV fun _ h => h.readV fun _ h => h.elim)

/-- Settles O14: the reads of the sources come first, and one of them raises. -/
theorem unwrittenSourceRaises : Obligations.UnwrittenSourceRaises := fun _ _ hw h =>
  ⟨_, exec_of_missing hw h, failed_completeErr _ _, rfl⟩

/-! ### Unconfigured slots (R101, R121, R122) -/

theorem exec_fmk_of_invalid {s : State} {rd rs1 : VIdx} {f : FIdx} (h1 : Written s rs1)
    (hv : (s.fieldSlot f).valid = false) : exec (.fmk rd rs1 f) s = .next (s.completeErr .unconfiguredSlot) := by
  simp only [exec, execFmk, State.readV_of_written h1, require_of_not _ (Bool.not_eq_true _ ▸ hv), bind_ok_left,
    bind_error_left, finish_error]

theorem exec_pinf_of_invalid {s : State} {rd : PIdx} {c : CIdx} (hv : (s.curveSlot c).valid = false) :
    exec (.pinf rd c) s = .next (s.completeErr .unconfiguredSlot) := by
  simp only [exec, execPinf, require_of_not _ (Bool.not_eq_true _ ▸ hv), bind_error_left, finish_error]

theorem exec_pmk_of_invalid {s : State} {rd : PIdx} {rs1 rs2 : VIdx} {c : CIdx} (h1 : Written s rs1) (h2 : Written s rs2)
    (hv : (s.curveSlot c).valid = false) : exec (.pmk rd rs1 rs2 c) s = .next (s.completeErr .unconfiguredSlot) := by
  simp only [exec, execPmk, State.readV_of_written h1, State.readV_of_written h2,
    require_of_not _ (Bool.not_eq_true _ ▸ hv), bind_ok_left, bind_error_left, finish_error]

/-- Settles O15: the test of the valid bit is the first after the reads. -/
theorem unconfiguredSlotRaises : Obligations.UnconfiguredSlotRaises :=
  ⟨fun _ _ _ _ h1 hv => ⟨_, exec_fmk_of_invalid h1 hv, failed_completeErr _ _, rfl⟩,
    fun _ _ _ hv => ⟨_, exec_pinf_of_invalid hv, failed_completeErr _ _⟩,
    fun _ _ _ _ _ h1 h2 hv => ⟨_, exec_pmk_of_invalid h1 h2 hv, failed_completeErr _ _⟩⟩

/-! ### The errors of a body (R160) -/

/-- Whatever `x` raises is one of `L`. -/
def RaisesOnly {α : Type} (L : List Err) (x : Except Err α) : Prop := ∀ e, x = .error e → e ∈ L

namespace RaisesOnly

variable {α β : Type} {L : List Err} {s : State}

theorem ok (a : α) : RaisesOnly L (.ok a : Except Err α) := fun _ h => by cases h

theorem error {e : Err} (he : e ∈ L := by simp [listedErrors]) : RaisesOnly L (.error e : Except Err α) := fun _ h => by
  cases h; exact he

/-- A sequence raises what its first part raises, or its rest on an answer of that. -/
theorem bind {x : Except Err α} {k : α → Except Err β} (hx : RaisesOnly L x) (hk : ∀ a, x = .ok a → RaisesOnly L (k a)) :
    RaisesOnly L (x >>= k) := fun e h => by
  rcases bind_eq_error.mp h with h | ⟨a, ha, h⟩
  · exact hx e h
  · exact hk a ha e h

theorem require {c : Prop} [Decidable c] {e : Err} (he : e ∈ L := by simp [listedErrors]) :
    RaisesOnly L (require c e) := fun _ h => (require_eq_error.mp h).2 ▸ he

theorem readV {i : VIdx} (he : .unwrittenOperand ∈ L := by simp [listedErrors]) : RaisesOnly L (s.readV i) := fun _ h =>
  (State.readV_eq_error.mp h).2 ▸ he

theorem readP {i : PIdx} (he : .unwrittenOperand ∈ L := by simp [listedErrors]) : RaisesOnly L (s.readP i) := fun _ h =>
  (State.readP_eq_error.mp h).2 ▸ he

theorem fieldOfTag {t : Tag} (he : .fieldMismatch ∈ L := by simp [listedErrors]) : RaisesOnly L (fieldOfTag t) := fun _ h =>
  (fieldOfTag_eq_error.mp h).2 ▸ he

theorem readFieldPair {i j : VIdx} (hu : .unwrittenOperand ∈ L := by simp [listedErrors])
    (hm : .fieldMismatch ∈ L := by simp [listedErrors]) : RaisesOnly L (s.readFieldPair i j) := fun _ h => by
  rcases State.readFieldPair_eq_error h with rfl | rfl
  · exact hu
  · exact hm

theorem invertOrRaise {a n : Nat} (he : .notInvertible ∈ L := by simp [listedErrors]) :
    RaisesOnly L (invertOrRaise a n) := by
  unfold Machine.invertOrRaise
  split
  · exact .ok _
  · exact .error he

theorem pointAdd {A B : Point} (hc : .curveMismatch ∈ L := by simp [listedErrors])
    (hd : .divisionByZero ∈ L := by simp [listedErrors]) : RaisesOnly L (s.pointAdd A B) := fun _ h => by
  rcases pointAdd_error h with rfl | rfl
  · exact hc
  · exact hd

/-- A point is compatible with itself, so doubling it is no CurveMismatch (R127). -/
theorem double {A : Point} (hd : .divisionByZero ∈ L := by simp [listedErrors]) : RaisesOnly L (s.pointAdd A A) := by
  rcases pointAdd_same (s := s) (A := A) (B := A) rfl with h | ⟨q, h, -⟩ <;> rw [h]
  · exact .error hd
  · exact .ok q

theorem scalarMul {A : Point} {k : Nat} (hd : .divisionByZero ∈ L := by simp [listedErrors]) :
    RaisesOnly L (s.scalarMul A k) := fun _ h => by
  obtain rfl := scalarLoop_error 256 (loopScalar A.curve k) (.inf A.curve) A rfl h
  exact hd

/-- Multiplying G raises nothing, as p is not 2 and so no doubling fails (43_ecdsa.md R145). -/
theorem scalarMul_generator {k : U256} : RaisesOnly L (s.scalarMul generator k.toNat) := by
  obtain ⟨q, h, -⟩ := generator_scalarMul s k.isLt
  rw [h]
  exact .ok q

/-- SIGN's loop of nonces raises nothing but NonceExhausted (R147). -/
theorem signLoop {z d left done : Nat} {g : Rng} (he : .nonceExhausted ∈ L := by simp [listedErrors]) :
    RaisesOnly L (s.signLoop z d left done g).sig := by
  obtain ⟨n, -, -, ⟨-, h⟩ | ⟨-, p, -, h⟩⟩ := signLoop_cases s z d left done g <;> rw [h]
  · exact .error he
  · exact .ok p

end RaisesOnly

/-! ### Each command raises the errors listed for it (R160, R167) -/

/-- SIGN: the errors of its checks, and of its loop. -/
theorem sign_body_raisesOnly {s : State} {rd rs1 rs2 rs3 : VIdx} (hne : rd ≠ rs3) :
    ∃ u body, exec (.sign rd rs1 rs2 rs3) s = finish u body ∧ RaisesOnly (listedErrors (.sign rd rs1 rs2 rs3)) body := by
  have checks : RaisesOnly (listedErrors (.sign rd rs1 rs2 rs3)) (s.signOperands rd rs1 rs2 rs3) := by
    rw [State.signOperands, require_of _ hne, bind_ok_left]
    exact .bind .readV fun _ _ => .bind .readV fun _ _ => .bind .require fun _ _ => .ok _
  cases h : s.signOperands rd rs1 rs2 rs3 with
  | error e => exact ⟨s, .error e, exec_sign_of_signOperands_error h, .error (checks e h)⟩
  | ok p =>
    obtain ⟨-, h1, h2, hk, -⟩ := signOperands_eq_ok.mp h
    exact ⟨_, _, exec_sign hne h1 h2 hk rfl, .bind .signLoop fun _ _ => .ok _⟩

/-- VERIFY: past the curve check there is a verdict, and no error (R148, R167). -/
theorem verify_body_raisesOnly {s : State} (inv : RegistersInv s) {rd : PIdx} {rs1 rs2 rs3 : VIdx} :
    ∃ u body, exec (.verify rd rs1 rs2 rs3) s = finish u body
      ∧ RaisesOnly (listedErrors (.verify rd rs1 rs2 rs3)) body := by
  refine ⟨s, _, rfl, .bind .readP fun q hq => .bind .readV fun z _ => .bind .readV fun r _ => .bind .readV fun t _ =>
    .bind .require fun _ hc => ?_⟩
  obtain ⟨v, hv, -⟩ := verdict_spec (z := z.value.toNat) (r := r.value.toNat) (t := t.value.toNat) (require_eq_ok.mp hc)
    (pointBelow_preg inv (State.readP_eq_ok.mp hq))
  rw [hv]
  exact .ok _

/-- A well-formed command is the commit of a body that raises nothing but the errors listed for it. -/
theorem exec_body_raisesOnly {i : Instr} {s : State} (inv : RegistersInv s) (hw : WellFormed i) :
    ∃ u body, exec i s = finish u body ∧ RaisesOnly (listedErrors i) body := by
  cases i with
  | nop => exact ⟨s, _, rfl, .ok _⟩
  | mov rd rs1 => exact ⟨s, _, rfl, .bind .readV fun _ _ => .ok _⟩
  | pmov rd rs1 => exact ⟨s, _, rfl, .bind .readP fun _ _ => .ok _⟩
  | setmod f rs1 =>
    have hf : 2 ≤ f.val := of_decide_eq_true hw
    refine ⟨s, _, rfl, ?_⟩
    rw [require_of _ hf, bind_ok_left]
    exact .bind .readV fun _ _ => .bind .require fun _ _ => .ok _
  | setcrv c rs1 rs2 =>
    have hc : c ≠ 0 := fun h0 => of_decide_eq_true hw (congrArg Fin.val h0)
    refine ⟨s, _, rfl, ?_⟩
    rw [require_of _ hc, bind_ok_left]
    exact .bind .readV fun _ _ => .bind .readV fun _ _ => .bind .fieldOfTag fun _ _ => .bind .fieldOfTag fun _ _ =>
      .bind .require fun _ _ => .ok _
  | fmk rd rs1 f =>
    exact ⟨s, _, rfl, .bind .readV fun _ _ => .bind .require fun _ _ => .bind .require fun _ _ => .ok _⟩
  | fadd rd rs1 rs2 => exact ⟨s, _, rfl, .bind .readFieldPair fun _ _ => .ok _⟩
  | fsub rd rs1 rs2 => exact ⟨s, _, rfl, .bind .readFieldPair fun _ _ => .ok _⟩
  | fmul rd rs1 rs2 => exact ⟨s, _, rfl, .bind .readFieldPair fun _ _ => .ok _⟩
  | mmul rd rs1 rs2 => exact ⟨s, _, rfl, .bind .readFieldPair fun _ _ => .bind .require fun _ _ => .ok _⟩
  | fpow rd rs1 rs2 neg =>
    exact ⟨s, _, rfl, .bind .readV fun _ _ => .bind .readV fun _ _ => .bind .fieldOfTag fun _ _ => .ok _⟩
  | fdiv rd rs1 rs2 => exact ⟨s, _, rfl, .bind .readFieldPair fun _ _ => .bind .require fun _ _ => .ok _⟩
  | feq rs1 rs2 =>
    exact ⟨s, _, rfl, .bind .readV fun _ _ => .bind .readV fun _ _ => .bind .fieldOfTag fun _ _ =>
      .bind .fieldOfTag fun _ _ => .ok _⟩
  | pinf rd c => exact ⟨s, _, rfl, .bind .require fun _ _ => .ok _⟩
  | pmk rd rs1 rs2 c =>
    exact ⟨s, _, rfl, .bind .readV fun _ _ => .bind .readV fun _ _ => .bind .require fun _ _ => .bind .fieldOfTag fun _ _ =>
      .bind .fieldOfTag fun _ _ => .bind .require fun _ _ => .bind .require fun _ _ => .ok _⟩
  | peq rs1 rs2 => exact ⟨s, _, rfl, .bind .readP fun _ _ => .bind .readP fun _ _ => .ok _⟩
  | padd rd rs1 rs2 =>
    exact ⟨s, _, rfl, .bind .readP fun _ _ => .bind .readP fun _ _ => .bind .pointAdd fun _ _ => .ok _⟩
  | pdbl rd rs1 => exact ⟨s, _, rfl, .bind .readP fun _ _ => .bind .double fun _ _ => .ok _⟩
  | psmul rd rs1 rs2 =>
    exact ⟨s, _, rfl, .bind .readP fun _ _ => .bind .readV fun _ _ => .bind .scalarMul fun _ _ => .ok _⟩
  | pgen rd => exact ⟨s, _, rfl, .ok _⟩
  | pgetx rd rs1 =>
    refine ⟨s, _, rfl, .bind .readP fun q _ => ?_⟩
    cases q with
    | inf c => exact .error
    | aff c x y => exact .ok _
  | pgety rd rs1 =>
    refine ⟨s, _, rfl, .bind .readP fun q _ => ?_⟩
    cases q with
    | inf c => exact .error
    | aff c x y => exact .ok _
  | pisinf rs1 => exact ⟨s, _, rfl, .bind .readP fun _ _ => .ok _⟩
  | minv rd rs1 rs2 =>
    exact ⟨s, _, rfl, .bind .readV fun _ _ => .bind .readV fun _ _ => .bind .invertOrRaise fun _ _ => .ok _⟩
  | keygen rd => exact ⟨s, _, rfl, .ok _⟩
  | pubkey rd rs1 =>
    exact ⟨s, _, rfl, .bind .readV fun _ _ => .bind .require fun _ _ => .bind .scalarMul_generator fun _ _ => .ok _⟩
  | sign rd rs1 rs2 rs3 => exact sign_body_raisesOnly (of_decide_eq_true hw)
  | verify rd rs1 rs2 rs3 => exact verify_body_raisesOnly inv

/-- Settles O13: the error reported is one that the command's body raises. -/
theorem errorsAreThoseListed : Obligations.ErrorsAreThoseListed := by
  intro i s t inv hw h herr
  obtain ⟨u, body, hb, hr⟩ := exec_body_raisesOnly inv hw
  obtain ⟨r, -, rfl⟩ | ⟨e, he, rfl⟩ := finish_next (hb.symm.trans h)
  · cases herr
  · exact ⟨e, hr e he, rfl⟩

end Sys2Proof.Machine
end

section
/-! The `rst_n` pin (70_reset_and_hazards.md R190 to R193): what its two levels do, and what a low one shuts out. -/

namespace Sys2Proof.Machine

theorem State.driveRstN_low (s : State) : s.driveRstN false = { s.resetBlock with rstN := false } := rfl

theorem State.driveRstN_high (s : State) : s.driveRstN true = { s with rstN := true } := rfl

/-- A low pin shuts out every write (R190; assumption 5). -/
theorem State.hostWrite_of_rstN_low {s : State} (hpin : s.rstN = false) (width : Nat) (off : Offset) (d : Word32) :
    s.hostWrite width off d = s := if_pos (.inr hpin)

/-- Settles O55: a low level resets the block, whose lost draws are those of `abandonedDraws_spec`, a write while the pin
is low is dropped, and a high level sets the pin alone. -/
theorem pinResetsBlock : Obligations.PinResetsBlock := by
  refine ⟨fun s rest ha => ?_, fun s width off d rest hpin ha => ?_, fun s rest ha => ?_⟩
  · have hstep := step_of_rstN ha
    rw [State.driveRstN_low] at hstep
    obtain ⟨hnone, hbound⟩ := abandonedDraws_spec { s with agenda := rest }
    exact ⟨_, _, hstep, atReset_resetBlock { s with agenda := rest }, rfl, rfl, rfl, rfl, rfl, rfl, rfl, hnone, hbound⟩
  · rw [step_of_write ha, State.hostWrite_of_rstN_low (s := { s with agenda := rest }) hpin]
  · rw [step_of_rstN ha, State.driveRstN_high]

end Sys2Proof.Machine
end
